-- ==== Sys2Proof/Word.lean ====
section
/-! DEFINITION. The word types of the block: 32-bit words, bytes, handles, host byte offsets. -/

namespace Sys2Proof

/-- A 32-bit word: a register, a pixel, a palette entry, a colour-table slot (10_state.md). -/
abbrev Word := BitVec 32

/-- A byte: a character of the text buffer, a channel of a pixel. -/
abbrev Byte := BitVec 8

/-- A bitmap handle, 0..255 (30_encoding.md R83). -/
abbrev Handle := BitVec 8

/-- A byte offset on the host port, 23 bits (20_memory.md R61). -/
abbrev HostAddr := BitVec 23

end Sys2Proof
end

