-- ==== Sys2Proof/Syntax.lean ====
section
/-! DEFINITION. The thirteen commands of the opcode map (30_encoding.md R86). Their operands stand in the
latched ARG and TEXT registers (R84); only BLIT has fields in the command word. -/

namespace Sys2Proof

/-- One constructor per row of the opcode table. -/
inductive Instr where
  /-- R100 -/
  | nop
  /-- R103 -/
  | surfAlloc
  /-- R106 -/
  | surfSeal
  /-- R120 -/
  | palUnpack
  /-- R140 -/
  | ctLoad
  /-- R160 -/
  | remap
  /-- R181 -/
  | fillRect
  /-- R183 -/
  | fillCircle
  /-- R185 -/
  | fillEllipse
  /-- R187 -/
  | fillRing
  /-- R189 -/
  | drawLine
  /-- R210; the fields MH, MV and ROT of the command word (R81). -/
  | blit (mh mv : Bool) (rot : BitVec 2)
  /-- R214 -/
  | crop
  deriving DecidableEq, Repr

end Sys2Proof
end

