-- ==== Sys2Proof/WellFormed.lean ====
section
/-! DEFINITION. Which terms of `Instr` a command word stands for (30_encoding.md R82). -/

namespace Sys2Proof

/-- The one condition on a command's own fields: BLIT's ROT is 00 or 01 (R82, item 4). -/
def Instr.wellFormed : Instr → Bool
  | .nop => true
  | .surfAlloc => true
  | .surfSeal => true
  | .palUnpack => true
  | .ctLoad => true
  | .remap => true
  | .fillRect => true
  | .fillCircle => true
  | .fillEllipse => true
  | .fillRing => true
  | .drawLine => true
  | .blit _ _ rot => rot == 0 || rot == 1
  | .crop => true

end Sys2Proof
end

