-- ==== Sys2Proof/Decode.lean ====
section
/-! DEFINITION. The decoder of a command word, total on every 32-bit word and rejecting by name
(30_encoding.md R81, R82, R86, R89); after it the encoder, and the mask and match rows of R86. -/

namespace Sys2Proof

/-- Why a command word is illegal (R82, R89). -/
inductive DecodeError where
  /-- OPC is none of the 13 values of R86. -/
  | unassignedOpcode
  /-- w[31:12] is not 0. -/
  | reservedBits
  /-- MH, MV or ROT is nonzero on a command other than BLIT. -/
  | modifierBits
  /-- BLIT with ROT = 10 or 11. -/
  | reservedRotation
  deriving DecidableEq, Repr

/-- OPC = w[7:0] (R81). -/
def fieldOpc (w : Word) : BitVec 8 := w.extractLsb' 0 8

/-- MH = w[8] (R81). -/
def fieldMh (w : Word) : Bool := w.getLsbD 8

/-- MV = w[9] (R81). -/
def fieldMv (w : Word) : Bool := w.getLsbD 9

/-- ROT = w[11:10] (R81). -/
def fieldRot (w : Word) : BitVec 2 := w.extractLsb' 10 2

/-- RSV = w[31:12] (R81). -/
def fieldRsv (w : Word) : BitVec 20 := w.extractLsb' 12 20

/-- A command without modifiers: MH, MV and ROT must be 0 (R82, item 3). -/
def decodePlain (w : Word) (i : Instr) : Except DecodeError Instr :=
  if fieldMh w = false ∧ fieldMv w = false ∧ fieldRot w = 0 then .ok i else .error .modifierBits

/-- BLIT: ROT must be 00 or 01 (R82, item 4). -/
def decodeBlit (w : Word) : Except DecodeError Instr :=
  if fieldRot w = 0 ∨ fieldRot w = 1 then .ok (.blit (fieldMh w) (fieldMv w) (fieldRot w))
  else .error .reservedRotation

/-- The command of opcode OPC (R86), the modifier fields checked. -/
def decodeOpc (w : Word) : Except DecodeError Instr :=
  if fieldOpc w = 0x00 then decodePlain w .nop
  else if fieldOpc w = 0x01 then decodePlain w .surfAlloc
  else if fieldOpc w = 0x02 then decodePlain w .surfSeal
  else if fieldOpc w = 0x08 then decodePlain w .palUnpack
  else if fieldOpc w = 0x09 then decodePlain w .ctLoad
  else if fieldOpc w = 0x10 then decodePlain w .remap
  else if fieldOpc w = 0x20 then decodePlain w .fillRect
  else if fieldOpc w = 0x21 then decodePlain w .fillCircle
  else if fieldOpc w = 0x22 then decodePlain w .fillEllipse
  else if fieldOpc w = 0x23 then decodePlain w .fillRing
  else if fieldOpc w = 0x24 then decodePlain w .drawLine
  else if fieldOpc w = 0x30 then decodeBlit w
  else if fieldOpc w = 0x31 then decodePlain w .crop
  else .error .unassignedOpcode

/-- The decoder: RSV must be 0 (R82, item 2), then the opcode map. -/
def decode (w : Word) : Except DecodeError Instr :=
  if fieldRsv w = 0 then decodeOpc w else .error .reservedBits

/-- A command word is legal iff it decodes (R82). -/
def legal (w : Word) : Bool :=
  match decode w with
  | .ok _ => true
  | .error _ => false

/-- A word of the given OPC with every other field 0 (R86). -/
def encodePlain (opc : BitVec 8) : Word := (0 : BitVec 24) ++ opc

/-- The encoder, from the encoding column of R86. -/
def encode : Instr → Word
  | .nop => encodePlain 0x00
  | .surfAlloc => encodePlain 0x01
  | .surfSeal => encodePlain 0x02
  | .palUnpack => encodePlain 0x08
  | .ctLoad => encodePlain 0x09
  | .remap => encodePlain 0x10
  | .fillRect => encodePlain 0x20
  | .fillCircle => encodePlain 0x21
  | .fillEllipse => encodePlain 0x22
  | .fillRing => encodePlain 0x23
  | .drawLine => encodePlain 0x24
  | .blit mh mv rot => (0 : BitVec 20) ++ rot ++ BitVec.ofBool mv ++ BitVec.ofBool mh ++ (0x30 : BitVec 8)
  | .crop => encodePlain 0x31

/-- One row of R86's mask and match convention: a decoder selects the row iff `w &&& mask = pattern`. -/
structure OpcodeRow where
  mnemonic : String
  mask : Word
  pattern : Word
  deriving DecidableEq, Repr

/-- The rows of R86, with their masks as the text under the table gives them. -/
def opcodeRows : List OpcodeRow :=
  [ ⟨"NOP", 0xFFFFFFFF, 0x00000000⟩, ⟨"SURF_ALLOC", 0xFFFFFFFF, 0x00000001⟩,
    ⟨"SURF_SEAL", 0xFFFFFFFF, 0x00000002⟩, ⟨"PAL_UNPACK", 0xFFFFFFFF, 0x00000008⟩,
    ⟨"CT_LOAD", 0xFFFFFFFF, 0x00000009⟩, ⟨"REMAP", 0xFFFFFFFF, 0x00000010⟩,
    ⟨"FILL_RECT", 0xFFFFFFFF, 0x00000020⟩, ⟨"FILL_CIRCLE", 0xFFFFFFFF, 0x00000021⟩,
    ⟨"FILL_ELLIPSE", 0xFFFFFFFF, 0x00000022⟩, ⟨"FILL_RING", 0xFFFFFFFF, 0x00000023⟩,
    ⟨"DRAW_LINE", 0xFFFFFFFF, 0x00000024⟩, ⟨"BLIT", 0xFFFFF8FF, 0x00000030⟩,
    ⟨"CROP", 0xFFFFFFFF, 0x00000031⟩ ]

/-- The row selects the word. -/
def OpcodeRow.selects (r : OpcodeRow) (w : Word) : Bool := (w &&& r.mask) == r.pattern

/-- The table's mnemonic of a command. -/
def Instr.mnemonic : Instr → String
  | .nop => "NOP"
  | .surfAlloc => "SURF_ALLOC"
  | .surfSeal => "SURF_SEAL"
  | .palUnpack => "PAL_UNPACK"
  | .ctLoad => "CT_LOAD"
  | .remap => "REMAP"
  | .fillRect => "FILL_RECT"
  | .fillCircle => "FILL_CIRCLE"
  | .fillEllipse => "FILL_ELLIPSE"
  | .fillRing => "FILL_RING"
  | .drawLine => "DRAW_LINE"
  | .blit _ _ _ => "BLIT"
  | .crop => "CROP"

/-- The command word whose bits are `w`, as the opcode table numbers them, of `nbits` bits (the bits above
are 0). A command word is one 32-bit bus word (R80, R90), so no byte order enters. -/
def commandWord (nbits w : Nat) : Word := BitVec.ofNat 32 (w % 2 ^ nbits)

/-- The instruction the decoder reads from a table word. -/
def decodeTableWord (nbits w : Nat) : Option Instr :=
  if w % 2 ^ nbits < 2 ^ 32 then (decode (commandWord nbits w)).toOption else none

end Sys2Proof
end

