-- ==== Sys2Proof/Config.lean ====
section
/-! DEFINITION. The configuration values of 00_scope.md R7, the block's open parameters, and the free
value that the spec leaves for pixel memory after reset. -/

namespace Sys2Proof

/-- `TILE`: tile edge in pixels (R7). -/
def Config.tile : Nat := 8

/-- `NBUCKETS`: luminance buckets (R7). -/
def Config.nBuckets : Nat := 4

/-- `CT_WIDTH = NBUCKETS`: the digits stored per colour table, one for each bucket (R7, R32). -/
def Config.ctWidth : Nat := Config.nBuckets

/-- `DIGIT_BITS`: bits per colour-table digit (R7, R32). -/
def Config.digitBits : Nat := 5

/-- `BUCKET_DIV`: the bucket divisor (R7). -/
def Config.bucketDiv : Nat := 85

/-- `PAL_DEPTH`: palette entries (R7, R30). -/
def Config.palDepth : Nat := 32

/-- `NCT`: colour-table slots (R7, R32). -/
def Config.nCt : Nat := 256

/-- `MAX_DIM`: largest bitmap width or height (R7, R33). -/
def Config.maxDim : Nat := 4095

/-- The constant of the ID register (10_state.md R21). -/
def Config.idValue : Word := 0x50545531

/-- FREE VALUE (log 3): the byte that pixel-memory byte `addr` holds after the `n`-th reset, until it is
written. 93 U2 lets a model take any value, fixed per word until written: the constant has no body, so
nothing can be proved of it. -/
opaque Config.resetByte : (n : Nat) → (addr : Nat) → Byte

/-- The parameters that 00_scope.md R7 marks as the platform's or the instance's choice (93 U14, log 6).
They are carried in State and no step changes them. -/
structure Params where
  /-- `PIX_WORDS`, at most 2^20 (R62). -/
  pixWords : Fin (2 ^ 20 + 1)
  /-- `CT_ACCEPT_LOWERCASE` (R142). -/
  ctAcceptLowercase : Bool
  /-- `PTU_BASE`, the block's base in the system address space (R75). -/
  ptuBase : Nat
  /-- `PTU_IRQ_LINE`, the platform line that `irq` drives (R240). -/
  ptuIrqLine : Nat
  deriving DecidableEq, Repr

/-- The defaults of R7; the two parameters without a default are 0 (DESIGN CHOICE, log 6). -/
def Params.standard : Params :=
  { pixWords := ⟨2 ^ 20, by decide⟩, ctAcceptLowercase := false, ptuBase := 0, ptuIrqLine := 0 }

end Sys2Proof
end

