-- ==== Sys2Proof/Machine/State.lean ====
section
/-! DEFINITION. The state of the block (10_state.md R39), the reasons a step can stop, and the state after
reset (70_reset_and_hazards.md R260). -/

namespace Sys2Proof.Machine

/-- The codes of STATUS.ERR (60_exceptions.md R230). The reserved codes 0x0A..0xFF are never produced. -/
inductive ErrCode where
  | ok
  | palFormat
  | palFull
  | illegal
  | inUse
  | noMem
  | dim
  | readOnly
  | ctRange
  | fatalLock
  deriving DecidableEq, Repr

/-- STATUS (R22). Its reserved bits read 0 and ignore writes, so they have no storage (log 14). -/
structure Status where
  busy : Bool
  done : Bool
  fatal : Bool
  cmdOvr : Bool
  sent : Bool
  err : ErrCode
  deriving DecidableEq, Repr

/-- One bitmap descriptor (R33), 47 bits. -/
structure Desc where
  valid : Bool
  ro : Bool
  w : BitVec 12
  h : BitVec 12
  base : BitVec 21
  deriving DecidableEq, Repr

/-- The all-zero descriptor: a sentinel (R34, item 3). -/
def Desc.sentinel : Desc := { valid := false, ro := false, w := 0, h := 0, base := 0 }

/-- The latched command LCMD, LARG, LTEXT (R37). -/
structure Latch where
  cmd : Word
  arg : Vector Word 8
  text : Vector Byte 16
  deriving DecidableEq, Repr

/-- The latch at reset (R39). -/
def Latch.zero : Latch := { cmd := 0, arg := Vector.replicate 8 0, text := Vector.replicate 16 0 }

/-- What happens next at the block's ports, one entry per step (log 1): a host read or write with its byte
enables, the engine's turn, or the reset input. -/
inductive Input where
  | hostRead (addr : HostAddr) (be : BitVec 4)
  | hostWrite (addr : HostAddr) (be : BitVec 4) (data : Word)
  | engineTurn
  | hardReset
  deriving DecidableEq, Repr

/-- The response that completes a host access: the bus-error flag and the read data (R61, log 5). -/
structure Reply where
  busError : Bool
  data : Word
  deriving DecidableEq, Repr

/-- Pixel memory as (byte address, byte) cells, addresses strictly rising (`Memory.wf`). An unlisted byte
has never been written since reset; the list gives it no value, and a read supplies the free value
`Config.resetByte` (log 3). Byte `4 * a` is the R byte of word `a` (R60, log 7). -/
abbrev Memory := List Host.Cell

/-- The machine. Fields above the line are the spec's; those below are the model's own (logs 1, 3, 5, 6). -/
structure State where
  /-- STATUS (R22) -/
  status : Status
  /-- CTRL.IE (R23) -/
  ie : Bool
  /-- CMD readback (R24) -/
  cmd : Word
  /-- ARG0..ARG7 (R26) -/
  args : Vector Word 8
  /-- TEXT0..TEXT3 (R27) -/
  text : Vector Word 4
  /-- PAL_COUNT[5:0] (R28) -/
  palCount : BitVec 6
  /-- ALLOC_PTR[20:0] (R29) -/
  allocPtr : BitVec 21
  /-- PAL[0..31] (R30) -/
  palRam : Vector Word 32
  /-- CT[0..255] (R32) -/
  ctRam : Vector Word 256
  /-- DESC[0..255] (R33) -/
  descTable : Vector Desc 256
  /-- pixel memory (R35) -/
  mem : Memory
  /-- LCMD, LARG, LTEXT (R37) -/
  latch : Latch
  /-- the instance's parameters (R7), which no step changes -/
  params : Params
  /-- how many resets there have been; selects the free content of pixel memory -/
  resets : Nat
  /-- what happens next at the ports, oldest first -/
  inputs : List Input
  /-- the response of the last completed host access -/
  reply : Option Reply
  deriving DecidableEq, Repr

/-- The one reason the machine stops. -/
inductive Fault where
  /-- The engine would access a pixel-memory word at or beyond PIX_WORDS, which does not exist
  (10_state.md R35). Raised by the destination prologue of the fills, by BLIT, REMAP and CROP for a surface
  that does not lie in pixel memory. Safe (the model stops); no state that meets R34 raises it (log 10). -/
  | noSuchPixelWord
  deriving DecidableEq, Repr

/-- Why the model gives an instruction no meaning. -/
inductive Refusal where
  /-- Raised by an arm of `exec` for an instruction without a meaning. Safe. No arm raises it now. -/
  | notModelled (mnemonic : String)
  deriving DecidableEq, Repr

/-- The machine after reset (R39, R260, R262). PAL's stored bits are unspecified and unobservable: 0
(DESIGN CHOICE, log 4). Pixel memory is unspecified: nothing is listed (log 3). -/
def State.reset : State :=
  { status := { busy := false, done := false, fatal := false, cmdOvr := false, sent := false, err := .ok }
    ie := false
    cmd := 0
    args := Vector.replicate 8 0
    text := Vector.replicate 4 0
    palCount := 0
    allocPtr := 0
    palRam := Vector.replicate 32 0
    ctRam := Vector.replicate 256 0
    descTable := Vector.replicate 256 Desc.sentinel
    mem := []
    latch := Latch.zero
    params := Params.standard
    resets := 0
    inputs := []
    reply := none }

end Sys2Proof.Machine
end

