-- ==== Sys2Proof/Machine/Flags.lean ====
section
/-! DEFINITION. The STATUS register: its word, its codes, what completion, acceptance and a host write do to
its fields (10_state.md R22, R38; 60_exceptions.md R230, R231, R233). The block has no other flags. -/

namespace Sys2Proof.Machine

/-- The code of R230. -/
def ErrCode.toByte : ErrCode → Byte
  | .ok => 0x00
  | .palFormat => 0x01
  | .palFull => 0x02
  | .illegal => 0x03
  | .inUse => 0x04
  | .noMem => 0x05
  | .dim => 0x06
  | .readOnly => 0x07
  | .ctRange => 0x08
  | .fatalLock => 0x09

/-- STATUS as the host reads it (R22). -/
def Status.toWord (st : Status) : Word :=
  (0 : BitVec 16) ++ st.err.toByte ++ (0 : BitVec 3) ++ BitVec.ofBool st.sent ++ BitVec.ofBool st.cmdOvr
    ++ BitVec.ofBool st.fatal ++ BitVec.ofBool st.done ++ BitVec.ofBool st.busy

/-- `complete(code)` (R231). -/
def Status.complete (st : Status) (code : ErrCode) : Status :=
  { st with err := code, sent := false, done := true, busy := false }

/-- `complete_sentinel()` (R231): code OK, and SENT is 1. -/
def Status.completeSentinel (st : Status) : Status :=
  { st with err := .ok, sent := true, done := true, busy := false }

/-- `raise Fatal(code)` (R233): FATAL is set, then `complete(code)`. -/
def Status.raiseFatal (st : Status) (code : ErrCode) : Status :=
  ({ st with fatal := true } : Status).complete code

/-- Acceptance of a command sets BUSY and nothing else (R37). -/
def Status.accept (st : Status) : Status := { st with busy := true }

/-- A CMD write while BUSY = 1 sets CMD_OVR (R24). -/
def Status.overrun (st : Status) : Status := { st with cmdOvr := true }

/-- A host write of `v` to STATUS: bit 1 clears DONE, bit 3 clears CMD_OVR, every other bit is ignored (R22). -/
def Status.hostWrite (st : Status) (v : Word) : Status :=
  { st with done := st.done && !v.getLsbD 1, cmdOvr := st.cmdOvr && !v.getLsbD 3 }

end Sys2Proof.Machine
end

