-- ==== Sys2Proof/Machine/Ops.lean ====
section
/-! DEFINITION. The shared operations: pixel memory, descriptors, palette, slots, `Alloc`, the pixel writes of
a command, and the one way a command ends (00_scope.md R10, 40_control.md R104, 60_exceptions.md R231 to R236).
The block takes no exception and returns from none (R237, R238): `State.complete`, `State.completeSentinel` and
`State.raiseFatal` are all there is. -/

namespace Sys2Proof.Machine

/-- What a command or a step answers. -/
abbrev Result := Host.Outcome State Fault Refusal

/-! ### Pixel memory -/

/-- The canonical form: addresses strictly rising. An unlisted byte has no value, so no entry can equal one. -/
abbrev Memory.wf (m : Memory) : Prop := m.Pairwise (fun c d => c.1 < d.1)

/-- The byte at address `a`, where one has been written. -/
def Memory.read? : Memory → Nat → Option Byte
  | [], _ => none
  | (k, v) :: m, a => if k = a then some v else Memory.read? m a

/-- Write the byte `v` at address `a`. -/
def Memory.write : Memory → Nat → Byte → Memory
  | [], a, v => [(a, v)]
  | (k, w) :: m, a, v =>
    if a < k then (a, v) :: (k, w) :: m
    else if a = k then (a, v) :: m
    else (k, w) :: Memory.write m a v

/-- Write the four bytes of word `a` in the order R, G, B, A (R60). -/
def Memory.writeWord (m : Memory) (a : Nat) (v : Word) : Memory :=
  (((m.write (4 * a) (v.extractLsb' 24 8)).write (4 * a + 1) (v.extractLsb' 16 8)).write (4 * a + 2)
    (v.extractLsb' 8 8)).write (4 * a + 3) (v.extractLsb' 0 8)

/-- The byte at address `a` of pixel memory: the last one written, or else the free content of the last
reset (R35, 93 U2, log 3). -/
def State.readByte (s : State) (a : Nat) : Byte := (s.mem.read? a).getD (Config.resetByte s.resets a)

/-- `MemRead(a, 1)` (R10): bytes R, G, B, A of word `a`, R in bits 31:24 (R60). -/
def State.memRead (s : State) (a : Nat) : Word :=
  s.readByte (4 * a) ++ s.readByte (4 * a + 1) ++ s.readByte (4 * a + 2) ++ s.readByte (4 * a + 3)

/-- `MemWrite(a, 1, v)` (R10). -/
def State.memWrite (s : State) (a : Nat) (v : Word) : State := { s with mem := s.mem.writeWord a v }

/-! ### Descriptors, slots, palette -/

/-- `DESC[h]` (R33). -/
def State.desc (s : State) (h : Handle) : Desc := s.descTable[h.toNat]'h.isLt

/-- `DESC[h] <- d`. -/
def State.setDesc (s : State) (h : Handle) (d : Desc) : State :=
  { s with descTable := s.descTable.set h.toNat d h.isLt }

/-- `CT[k]` (R32). -/
def State.slot (s : State) (k : BitVec 8) : Word := s.ctRam[k.toNat]'k.isLt

/-- `CT[k] <- v`. -/
def State.setSlot (s : State) (k : BitVec 8) (v : Word) : State :=
  { s with ctRam := s.ctRam.set k.toNat v k.isLt }

/-- `EffPal(i)` (R31): the palette entry below PAL_COUNT, and 0xFFFFFFFF for a missing one. -/
def State.effPal (s : State) (i : Nat) : Word :=
  if i < s.palCount.toNat then s.palRam[i]?.getD 0xFFFFFFFF else 0xFFFFFFFF

/-- `PAL[PAL_COUNT] <- e; PAL_COUNT <- PAL_COUNT + 1` (R120). -/
def State.appendPal (s : State) (e : Word) : State :=
  { s with palRam := s.palRam.setIfInBounds s.palCount.toNat e, palCount := s.palCount + 1 }

/-! ### Pixels of a surface -/

/-- Width and height of surface `h` as numbers. -/
def State.width (s : State) (h : Handle) : Nat := (s.desc h).w.toNat

def State.height (s : State) (h : Handle) : Nat := (s.desc h).h.toNat

/-- The word index of pixel (x, y) of surface `h` (R35). -/
def State.pxAddr (s : State) (h : Handle) (x y : Nat) : Nat := (s.desc h).base.toNat + y * s.width h + x

/-- `InB(h, x, y)` (R10). -/
def State.inB (s : State) (h : Handle) (x y : Int) : Bool :=
  decide (0 ≤ x ∧ x < s.width h ∧ 0 ≤ y ∧ y < s.height h)

/-- `Px(h, x, y)` (R10). -/
def State.px (s : State) (h : Handle) (x y : Nat) : Word := s.memRead (s.pxAddr h x y)

/-- `if InB(h, x, y) then SetPx(h, x, y, v)` on the memory `m`, for the pixel write `(x, y, v)`. -/
def State.writePixel (s : State) (h : Handle) (m : Memory) (p : Int × Int × Word) : Memory :=
  if s.inB h p.1 p.2.1 then m.writeWord (s.pxAddr h p.1.toNat p.2.1.toNat) p.2.2 else m

/-- The clipped pixel writes of a command, in order (R180, R210). -/
def State.setPixels (s : State) (h : Handle) (ws : List (Int × Int × Word)) : State :=
  { s with mem := ws.foldl (s.writePixel h) s.mem }

/-- The points (x, y) of a `w` by `h` box, row by row. -/
def points (w h : Nat) : List (Nat × Nat) :=
  (List.range h).flatMap fun y => (List.range w).map fun x => (x, y)

/-- Set each pixel (x, y) of surface `h` to `f x y`, where that is a value, row by row. -/
def State.paint (s : State) (h : Handle) (f : Nat → Nat → Option Word) : State :=
  s.setPixels h ((points (s.width h) (s.height h)).filterMap fun p =>
    (f p.1 p.2).map fun v => ((p.1 : Int), (p.2 : Int), v))

/-- Every word of surface `h` exists: the surface ends within pixel memory (R35, log 10). -/
def State.surfaceExists (s : State) (h : Handle) : Bool :=
  decide ((s.desc h).base.toNat + s.width h * s.height h ≤ s.params.pixWords.val)

/-! ### How a command ends -/

/-- `complete(code)` (R231). -/
def State.complete (s : State) (code : ErrCode) : State := { s with status := s.status.complete code }

/-- `complete_sentinel()` (R231, R236). -/
def State.completeSentinel (s : State) : State := { s with status := s.status.completeSentinel }

/-- `raise Fatal(code)` (R233). -/
def State.raiseFatal (s : State) (code : ErrCode) : State := { s with status := s.status.raiseFatal code }

/-- The fatal lock of the common prologue (R234): while FATAL = 1 a command completes with E_FATAL_LOCK and
does nothing else (log 13). -/
def State.unlessLocked (s : State) (body : State → Result) : Result :=
  if s.status.fatal then .next (s.complete .fatalLock) else body s

/-- An illegal command word (R234): E_ILLEGAL, after the fatal lock. -/
def State.illegalWord (s : State) : Result := s.unlessLocked fun s => .next (s.complete .illegal)

/-- Go on only where surface `h` lies in pixel memory (log 10). -/
def State.onSurface (s : State) (h : Handle) (body : State → Result) : Result :=
  if s.surfaceExists h then body s else .fault .noSuchPixelWord

/-- The destination prologue of the fills (R180): sentinel, then E_READ_ONLY; `draw` writes the pixels. -/
def State.drawOn (s : State) (h : Handle) (draw : State → State) : Result :=
  if (s.desc h).valid = false then .next s.completeSentinel
  else if (s.desc h).ro then .next (s.complete .readOnly)
  else s.onSurface h fun s => .next ((draw s).complete .ok)

/-! ### Allocation -/

/-- The descriptor and ALLOC_PTR writes of `Alloc` (R104), for dimensions that passed its checks. -/
def State.claim (s : State) (h : Handle) (w ht : Nat) : State :=
  { s.setDesc h { valid := true, ro := false, w := BitVec.ofNat 12 w, h := BitVec.ofNat 12 ht, base := s.allocPtr } with
    allocPtr := BitVec.ofNat 21 (s.allocPtr.toNat + w * ht) }

/-- `Alloc(h, W, H)` (R104): the code of the first check that fails, or the state with the cleared surface. -/
def State.alloc (s : State) (h : Handle) (w ht : Int) : Except ErrCode State :=
  if (s.desc h).valid then .error .inUse
  else if w < 0 ∨ w > Config.maxDim ∨ ht < 0 ∨ ht > Config.maxDim then .error .dim
  else if s.allocPtr.toNat + w.toNat * ht.toNat > s.params.pixWords.val then .error .noMem
  else .ok ((s.claim h w.toNat ht.toNat).paint h fun _ _ => some 0)

/-- `Alloc`, and then either its error completes the command or `body` goes on. -/
def State.allocThen (s : State) (h : Handle) (w ht : Int) (body : State → State) : Result :=
  match s.alloc h w ht with
  | .error code => .next (s.complete code)
  | .ok t => .next ((body t).complete .ok)

/-! ### Reset -/

/-- Hardware and soft reset (R260, R261): every piece of state takes its reset value, pixel memory becomes
unspecified anew, and a running command is abandoned. What the outside does next stands. -/
def State.doReset (s : State) : State :=
  { State.reset with params := s.params, resets := s.resets + 1, inputs := s.inputs }

end Sys2Proof.Machine
end

