-- ==== Sys2Proof/Machine/Operands.lean ====
section
/-! DEFINITION. The operand forms of the commands (30_encoding.md R83 to R88), all read from the latched
registers (10_state.md R37). -/

namespace Sys2Proof.Machine

/-- `ARG[k]` of the running command: the latched LARG[k] (R37). -/
def State.larg (s : State) (k : Fin 8) : Word := s.latch.arg[k.val]

/-- `TEXT[k]` of the running command: the latched LTEXT[k]. No command reads a position above 15. -/
def State.ltext (s : State) (k : Nat) : Byte := s.latch.text[k]?.getD 0

/-- `DST = ARG0[7:0]` (R83). -/
def State.dst (s : State) : Handle := (s.larg 0).extractLsb' 0 8

/-- `SRC = ARG0[15:8]` (R83). -/
def State.src (s : State) : Handle := (s.larg 0).extractLsb' 8 8

/-- `fdiv(a, b)` for `b > 0`: division rounding toward minus infinity (R9). -/
def fdiv (a b : Int) : Int := a / b

/-- `I(v) = floor(sext_32(v) / 65536)`, the integer part of a Q16.16 operand (R88). -/
def intPart (v : Word) : Int := fdiv v.toInt 65536

/-- The Q16.16 operand in ARG[k], floored. -/
def State.q (s : State) (k : Fin 8) : Int := intPart (s.larg k)

/-- `COLOR = ARG5` (R87). -/
def State.color (s : State) : Word := s.larg 5

/-- SURF_ALLOC's `W = ARG1`, unsigned (R85). -/
def State.allocW (s : State) : Nat := (s.larg 1).toNat

/-- SURF_ALLOC's `H = ARG2`, unsigned (R85). -/
def State.allocH (s : State) : Nat := (s.larg 2).toNat

/-- PAL_UNPACK's `L = ARG0[7:0]` (R85). -/
def State.palLen (s : State) : Nat := ((s.larg 0).extractLsb' 0 8).toNat

/-- CT_LOAD's `SLOT = ARG0[7:0]` (R85). -/
def State.ctSlot (s : State) : BitVec 8 := (s.larg 0).extractLsb' 0 8

/-- CT_LOAD's `L = ARG0[15:8]` (R85). -/
def State.ctLen (s : State) : BitVec 8 := (s.larg 0).extractLsb' 8 8

/-- CT_LOAD's `ABSENT = ARG0[16]` (R85). -/
def State.ctAbsent (s : State) : Bool := (s.larg 0).getLsbD 16

/-- REMAP's `CTBASE = ARG1[7:0]` (R85). -/
def State.ctBase (s : State) : Nat := ((s.larg 1).extractLsb' 0 8).toNat

/-- REMAP's `CTCOUNT = ARG1[16:8]` (R85). -/
def State.ctCount (s : State) : Nat := ((s.larg 1).extractLsb' 8 9).toNat

/-- `R(p)`, the red channel (R11, R15). -/
def red (p : Word) : Nat := (p.extractLsb' 24 8).toNat

/-- `rgba(R, G, B, A)` (R11). -/
def rgba (r g b a : Byte) : Word := r ++ g ++ b ++ a

end Sys2Proof.Machine
end

