-- ==== Sys2Proof/Machine/ColorTable.lean ====
section
/-! DEFINITION. CT_LOAD (42_color_table.md) and the slot word's fields (10_state.md R32). -/

namespace Sys2Proof.Machine

/-- `DigitVal(c)` (R142), with the parameter CT_ACCEPT_LOWERCASE; an out-of-range character is 0. -/
def digitVal (lower : Bool) (c : Byte) : BitVec 5 :=
  if 0x30 ≤ c.toNat ∧ c.toNat ≤ 0x39 then BitVec.ofNat 5 (c.toNat - 0x30)
  else if 0x41 ≤ c.toNat ∧ c.toNat ≤ 0x56 then BitVec.ofNat 5 (c.toNat - 0x41 + 10)
  else if lower = true ∧ 0x61 ≤ c.toNat ∧ c.toNat ≤ 0x76 then BitVec.ofNat 5 (c.toNat - 0x61 + 10)
  else 0

/-- PRESENT, bit 31 of a slot word (R32). -/
def slotPresent (v : Word) : Bool := v.getLsbD 31

/-- LEN, bits 27:20 of a slot word (R32). -/
def slotLen (v : Word) : BitVec 8 := v.extractLsb' 20 8

/-- `Digit(s, b)`, field `Db` of a slot word: bits 5b+4 : 5b (R32). -/
def slotDigit (v : Word) (b : Nat) : BitVec Config.digitBits :=
  v.extractLsb' (Config.digitBits * b) Config.digitBits

/-- The digit fields D(n-1) .. D1, D0 of a slot word, digit `b` at bits 5b+4 : 5b (R32). -/
def digitFields (d : Nat → BitVec Config.digitBits) : (n : Nat) → BitVec (n * Config.digitBits)
  | 0 => 0
  | n + 1 => (d n ++ digitFields d n).cast (by rw [Nat.succ_mul, Nat.add_comm])

/-- The slot word of a present table (R140): 1, 000, LEN, and the CT_WIDTH digits, D3, D2, D1, D0. -/
def slotWord (len : BitVec 8) (d : Nat → BitVec Config.digitBits) : Word :=
  (1 : BitVec 1) ++ (0 : BitVec 3) ++ len ++ digitFields d Config.ctWidth

/-- The digit stored for bucket `b` (R143): 0 at or past the string's length. -/
def State.ctDigit (s : State) (b : Nat) : BitVec 5 :=
  if b < s.ctLen.toNat then digitVal s.params.ctAcceptLowercase (s.ltext b) else 0

/-- The word CT_LOAD stores: an absent table is 0x00000000 (R144). -/
def State.ctEntry (s : State) : Word :=
  if s.ctAbsent then 0
  else slotWord s.ctLen s.ctDigit

/-- CT_LOAD (R140): it replaces the whole slot (R141) and never fails. -/
def execCtLoad (s : State) : Result :=
  s.unlessLocked fun s => .next ((s.setSlot s.ctSlot s.ctEntry).complete .ok)

end Sys2Proof.Machine
end

