-- ==== Sys2Proof/Machine/Compositor.lean ====
section
/-! DEFINITION. BLIT and CROP (45_compositor.md). -/

namespace Sys2Proof.Machine

/-- The mapping of R211: where region offset (i, j) of an `sw` by `sh` region lands. -/
def blitTarget (mh mv : Bool) (rot : BitVec 2) (dx dy sw sh i j : Int) : Int × Int :=
  let i' := if mh then sw - 1 - i else i
  let j' := if mv then sh - 1 - j else j
  if rot = 0 then (dx + i', dy + j') else (dx + j', dy + (sw - 1 - i'))

/-- The pixel writes of BLIT (R210), every value read before the first write (R212). An offset outside the
source is skipped (R213), so the loop runs over the source's pixels (u, v), with i = u - sx, j = v - sy (log 11). -/
def State.blitWrites (s : State) (mh mv : Bool) (rot : BitVec 2) (src : Handle) (dx dy sx sy sw sh : Int) :
    List (Int × Int × Word) :=
  (points (s.width src) (s.height src)).filterMap fun p =>
    let i := p.1 - sx
    let j := p.2 - sy
    if 0 ≤ i ∧ i < sw ∧ 0 ≤ j ∧ j < sh then
      let t := blitTarget mh mv rot dx dy sw sh i j
      some (t.1, t.2, s.px src p.1 p.2)
    else none

/-- BLIT (R210): the sentinel (DST or SRC), E_READ_ONLY, the copy. ROT = 10 or 11 is illegal (R82); no decoded
command has it (log 20). -/
def execBlit (mh mv : Bool) (rot : BitVec 2) (s : State) : Result :=
  s.unlessLocked fun s =>
    if rot ≠ 0 ∧ rot ≠ 1 then .next (s.complete .illegal)
    else if (s.desc s.dst).valid = false ∨ (s.desc s.src).valid = false then .next s.completeSentinel
    else if (s.desc s.dst).ro then .next (s.complete .readOnly)
    else s.onSurface s.src fun s => s.onSurface s.dst fun s =>
      .next ((s.setPixels s.dst
        (s.blitWrites mh mv rot s.src (s.q 1) (s.q 2) (s.q 3) (s.q 4) (s.q 5) (s.q 6))).complete .ok)

/-- The pixel loop of CROP (R214): pixels whose source lies outside SRC keep the cleared value (R215). -/
def State.cropInto (s : State) (dst src : Handle) (sx sy : Int) : State :=
  s.paint dst fun x y =>
    if s.inB src (sx + x) (sy + y) then some (s.px src (sx + x).toNat (sy + y).toNat) else none

/-- CROP (R214): the sentinel (SRC), `Alloc`, the copy. -/
def execCrop (s : State) : Result :=
  s.unlessLocked fun s =>
    if (s.desc s.src).valid = false then .next s.completeSentinel
    else s.onSurface s.src fun s =>
      s.allocThen s.dst (s.q 5) (s.q 6) fun t => t.cropInto t.dst t.src (t.q 3) (t.q 4)

end Sys2Proof.Machine
end

