-- ==== Sys2Proof/Machine/Control.lean ====
section
/-! DEFINITION. NOP, SURF_ALLOC and SURF_SEAL (40_control.md). -/

namespace Sys2Proof.Machine

/-- NOP (R100). -/
def execNop (s : State) : Result := s.unlessLocked fun s => .next (s.complete .ok)

/-- SURF_ALLOC (R103): `Alloc(h, W, H)` with W and H unsigned. -/
def execSurfAlloc (s : State) : Result :=
  s.unlessLocked fun s => s.allocThen s.dst s.allocW s.allocH id

/-- `DESC[h].RO <- 1` (R106, R107). -/
def State.seal (s : State) (h : Handle) : State := s.setDesc h { s.desc h with ro := true }

/-- SURF_SEAL (R106). -/
def execSurfSeal (s : State) : Result :=
  s.unlessLocked fun s =>
    if (s.desc s.dst).valid = false then .next s.completeSentinel
    else .next ((s.seal s.dst).complete .ok)

end Sys2Proof.Machine
end

