-- ==== Sys2Proof/Machine/Palette.lean ====
section
/-! DEFINITION. PAL_UNPACK (41_palette.md). -/

namespace Sys2Proof.Machine

/-- `HexVal(c)` (R121); `none` where it is invalid. -/
def hexVal (c : Byte) : Option (BitVec 4) :=
  if 0x30 ≤ c.toNat ∧ c.toNat ≤ 0x39 then some (BitVec.ofNat 4 (c.toNat - 0x30))
  else if 0x41 ≤ c.toNat ∧ c.toNat ≤ 0x46 then some (BitVec.ofNat 4 (c.toNat - 0x41 + 10))
  else if 0x61 ≤ c.toNat ∧ c.toNat ≤ 0x66 then some (BitVec.ofNat 4 (c.toNat - 0x61 + 10))
  else none

/-- The format check (R123): the length is 6 or 8 and every one of its characters is a hex digit. -/
def State.palWellFormed (s : State) : Bool :=
  (s.palLen == 6 || s.palLen == 8) && (List.range s.palLen).all fun k => (hexVal (s.ltext k)).isSome

/-- The digit `d[k]` (R122): positions 6 and 7 of a six-digit entry are the implicit "ff". -/
def State.palDigit (s : State) (k : Nat) : BitVec 4 :=
  if k < s.palLen then (hexVal (s.ltext k)).getD 0xF else 0xF

/-- The assembled entry `e` (R122): eight 4-bit fields, d[0] in bits 31:28. -/
def State.palEntry (s : State) : Word :=
  s.palDigit 0 ++ s.palDigit 1 ++ s.palDigit 2 ++ s.palDigit 3
    ++ s.palDigit 4 ++ s.palDigit 5 ++ s.palDigit 6 ++ s.palDigit 7

/-- PAL_UNPACK (R120): the format check first (R124), then the capacity. -/
def execPalUnpack (s : State) : Result :=
  s.unlessLocked fun s =>
    if s.palWellFormed = false then .next (s.raiseFatal .palFormat)
    else if s.palCount.toNat = Config.palDepth then .next (s.complete .palFull)
    else .next ((s.appendPal s.palEntry).complete .ok)

end Sys2Proof.Machine
end

