-- ==== Sys2Proof/Machine/Raster.lean ====
section
/-! DEFINITION. FILL_RECT, FILL_CIRCLE, FILL_ELLIPSE, FILL_RING and DRAW_LINE (44_raster.md). All arithmetic is
on unbounded integers (10_state.md R58). -/

namespace Sys2Proof.Machine

/-- Rectangle coverage (R181): half-open ranges, empty for a non-positive size (R182). -/
def covRect (x y w h px py : Int) : Bool := decide (x ≤ px ∧ px < x + w ∧ y ≤ py ∧ py < y + h)

/-- Squared distance of a pixel from a centre (R184). -/
def dist2 (cx cy px py : Int) : Int := (px - cx) ^ 2 + (py - cy) ^ 2

/-- Disc coverage (R183). -/
def covCircle (cx cy r px py : Int) : Bool := decide (dist2 cx cy px py ≤ r ^ 2)

/-- Ellipse coverage (R185): nothing where a radius is 0 (R186). -/
def covEllipse (cx cy rx ry px py : Int) : Bool :=
  if rx = 0 ∨ ry = 0 then false
  else decide ((px - cx) ^ 2 * ry ^ 2 + (py - cy) ^ 2 * rx ^ 2 ≤ rx ^ 2 * ry ^ 2)

/-- Annulus coverage (R187), both bounds inclusive. -/
def covRing (cx cy rIn rOut px py : Int) : Bool :=
  decide (rIn ^ 2 ≤ dist2 cx cy px py ∧ dist2 cx cy px py ≤ rOut ^ 2)

/-- The points of a stepped line, in step order (R189, R190). -/
def linePoints (x0 y0 x1 y1 : Int) : List (Int × Int) :=
  let n := max (x1 - x0).natAbs (y1 - y0).natAbs
  if n = 0 then [(x0, y0)]
  else (List.range (n + 1)).map fun (i : Nat) => (x0 + fdiv (i * (x1 - x0)) n, y0 + fdiv (i * (y1 - y0)) n)

/-- Write `c` to every pixel of surface `h` that the set covers; points of the set outside the surface are
discarded (R180), so the loop runs over the surface's pixels (log 11). -/
def State.fill (s : State) (h : Handle) (cov : Int → Int → Bool) (c : Word) : State :=
  s.paint h fun x y => if cov x y then some c else none

/-- Write `c` to each listed point that lies in surface `h` (R180). -/
def State.plot (s : State) (h : Handle) (pts : List (Int × Int)) (c : Word) : State :=
  s.setPixels h (pts.map fun p => (p.1, p.2, c))

/-- FILL_RECT (R181). -/
def execFillRect (s : State) : Result :=
  s.unlessLocked fun s => s.drawOn s.dst fun s =>
    s.fill s.dst (covRect (s.q 1) (s.q 2) (s.q 3) (s.q 4)) s.color

/-- FILL_CIRCLE (R183). -/
def execFillCircle (s : State) : Result :=
  s.unlessLocked fun s => s.drawOn s.dst fun s =>
    s.fill s.dst (covCircle (s.q 1) (s.q 2) (s.q 3)) s.color

/-- FILL_ELLIPSE (R185). -/
def execFillEllipse (s : State) : Result :=
  s.unlessLocked fun s => s.drawOn s.dst fun s =>
    s.fill s.dst (covEllipse (s.q 1) (s.q 2) (s.q 3) (s.q 4)) s.color

/-- FILL_RING (R187). -/
def execFillRing (s : State) : Result :=
  s.unlessLocked fun s => s.drawOn s.dst fun s =>
    s.fill s.dst (covRing (s.q 1) (s.q 2) (s.q 3) (s.q 4)) s.color

/-- DRAW_LINE (R189). -/
def execDrawLine (s : State) : Result :=
  s.unlessLocked fun s => s.drawOn s.dst fun s =>
    s.plot s.dst (linePoints (s.q 1) (s.q 2) (s.q 3) (s.q 4)) s.color

end Sys2Proof.Machine
end

