-- ==== Sys2Proof/Machine/Remap.lean ====
section
/-! DEFINITION. REMAP (43_tile_remap.md). -/

namespace Sys2Proof.Machine

/-- `Bucket(p) = min(floor(R(p) / 85), 3)` (R162). -/
def bucket (p : Word) : Nat := min (red p / Config.bucketDiv) (Config.nBuckets - 1)

/-- `Index(s, b)` of a slot word (R163): 0 for an absent table. -/
def slotIndex (v : Word) (b : Nat) : Nat := if slotPresent v then (slotDigit v b).toNat else 0

/-- Tiles per row and tile rows of a bitmap edge (R161). -/
def tilesIn (n : Nat) : Nat := n / Config.tile

/-- The tile index of pixel (x, y), `j = ty * TPR + tx` (R161). -/
def tileIndex (w x y : Nat) : Nat := (y / Config.tile) * tilesIn w + x / Config.tile

/-- Pixel (x, y) of a `w` by `h` source lies in a covered tile: it is in a tile (R161), and the tile's index
is below the table count (R164). -/
def tileCovered (w h count x y : Nat) : Bool :=
  decide (x / Config.tile < tilesIn w ∧ y / Config.tile < tilesIn h ∧ tileIndex w x y < count)

/-- The output for pixel `p` at (x, y) (R164, R165), read from the palette and slots as they stand (R167). -/
def State.remapPixel (s : State) (w h x y : Nat) (p : Word) : Word :=
  if tileCovered w h s.ctCount x y then
    s.effPal (slotIndex (s.slot (BitVec.ofNat 8 (s.ctBase + tileIndex w x y))) (bucket p))
  else p

/-- The pixel loop of REMAP (R160). Its reads see memory as `Alloc` left it: DST is new, so no word it writes
is a source word (R168, log 11). -/
def State.remapInto (s : State) (dst src : Handle) : State :=
  s.paint dst fun x y => some (s.remapPixel (s.width src) (s.height src) x y (s.px src x y))

/-- REMAP (R160): E_CT_RANGE (R166), the sentinel, `Alloc`, the pixels. -/
def execRemap (s : State) : Result :=
  s.unlessLocked fun s =>
    if s.ctBase + s.ctCount > Config.nCt then .next (s.complete .ctRange)
    else if (s.desc s.src).valid = false then .next s.completeSentinel
    else s.onSurface s.src fun s =>
      s.allocThen s.dst (s.width s.src) (s.height s.src) fun t => t.remapInto t.dst t.src

end Sys2Proof.Machine
end

