-- ==== Sys2Proof/Machine/Dispatch.lean ====
section
/-! DEFINITION. One arm per command. -/

namespace Sys2Proof.Machine

def exec (i : Instr) (s : State) : Host.Outcome State Fault Refusal :=
  match i with
  | .nop => Sys2Proof.Machine.execNop s
  | .surfAlloc => Sys2Proof.Machine.execSurfAlloc s
  | .surfSeal => Sys2Proof.Machine.execSurfSeal s
  | .palUnpack => Sys2Proof.Machine.execPalUnpack s
  | .ctLoad => Sys2Proof.Machine.execCtLoad s
  | .remap => Sys2Proof.Machine.execRemap s
  | .fillRect => Sys2Proof.Machine.execFillRect s
  | .fillCircle => Sys2Proof.Machine.execFillCircle s
  | .fillEllipse => Sys2Proof.Machine.execFillEllipse s
  | .fillRing => Sys2Proof.Machine.execFillRing s
  | .drawLine => Sys2Proof.Machine.execDrawLine s
  | .blit mh mv rot => Sys2Proof.Machine.execBlit mh mv rot s
  | .crop => Sys2Proof.Machine.execCrop s

end Sys2Proof.Machine
end

