-- ==== Sys2Proof/Machine/HostPort.lean ====
section
/-! DEFINITION. The host port: the address map (20_memory.md R62), the reads and writes of its windows
(R61 to R66), acceptance of a command (10_state.md R24, R37), the interrupt output (60_exceptions.md R240) and
the platform parameters (R75). -/

namespace Sys2Proof.Machine

/-- What stands at an aligned host offset (R62). -/
inductive Window where
  | id
  | status
  | ctrl
  | cmd
  | palCount
  | allocPtr
  | arg (k : Fin 8)
  | text (n : Fin 4)
  | palWin (i : Fin 32)
  | ctWin (k : BitVec 8)
  | descWin0 (h : Handle)
  | descWin1 (h : Handle)
  | pixWin (a : Nat)
  | unmapped
  deriving DecidableEq, Repr

/-- R62's map below 0x050: the registers. -/
def registerAt (off : Nat) : Window :=
  if off = 0x000 then .id
  else if off = 0x004 then .status
  else if off = 0x008 then .ctrl
  else if off = 0x00C then .cmd
  else if off = 0x010 then .palCount
  else if off = 0x014 then .allocPtr
  else if off < 0x020 then .unmapped
  else if off < 0x040 then .arg (Fin.ofNat 8 ((off - 0x020) / 4))
  else .text (Fin.ofNat 4 ((off - 0x040) / 4))

/-- R62's map from 0x050 on: the palette, colour-table, descriptor and pixel windows, with the gaps between them. -/
def tableAt (pixWords off : Nat) : Window :=
  if off < 0x100 then .unmapped
  else if off < 0x180 then .palWin (Fin.ofNat 32 ((off - 0x100) / 4))
  else if off < 0x400 then .unmapped
  else if off < 0x800 then .ctWin (BitVec.ofNat 8 ((off - 0x400) / 4))
  else if off < 0x1000 then
    if off % 8 = 0 then .descWin0 (BitVec.ofNat 8 ((off - 0x800) / 8))
    else .descWin1 (BitVec.ofNat 8 ((off - 0x800) / 8))
  else if off < 0x100000 then .unmapped
  else if off < 0x100000 + 4 * pixWords then .pixWin ((off - 0x100000) / 4)
  else .unmapped

/-- The address map of R62, for an aligned byte offset and a pixel memory of `pixWords` words. -/
def windowAt (pixWords off : Nat) : Window := if off < 0x050 then registerAt off else tableAt pixWords off

/-- The window a host access at `addr` selects. -/
def State.window (s : State) (addr : HostAddr) : Window := windowAt s.params.pixWords.val addr.toNat

/-- A legal access: all four byte enables, at a multiple of 4 (R61). -/
def legalAccess (addr : HostAddr) (be : BitVec 4) : Bool := be == 0xF && addr.toNat % 4 == 0

/-- The windows whose accesses are held while BUSY = 1 (R66, log 8). -/
def Window.held : Window → Bool
  | .id => false
  | .status => false
  | .ctrl => false
  | .cmd => false
  | .palCount => true
  | .allocPtr => true
  | .arg _ => false
  | .text _ => false
  | .palWin _ => true
  | .ctWin _ => true
  | .descWin0 _ => true
  | .descWin1 _ => true
  | .pixWin _ => true
  | .unmapped => false

/-- DESCWIN0 (R62). -/
def Desc.word0 (d : Desc) : Word := (0 : BitVec 11) ++ d.base

/-- DESCWIN1 (R62). -/
def Desc.word1 (d : Desc) : Word :=
  BitVec.ofBool d.valid ++ BitVec.ofBool d.ro ++ (0 : BitVec 2) ++ d.h ++ (0 : BitVec 4) ++ d.w

/-- The word a host read of a window returns (R62, R63, R65); reads change nothing (R74). -/
def State.readWindow (s : State) : Window → Word
  | .id => Config.idValue
  | .status => s.status.toWord
  | .ctrl => (0 : BitVec 31) ++ BitVec.ofBool s.ie
  | .cmd => s.cmd
  | .palCount => (0 : BitVec 26) ++ s.palCount
  | .allocPtr => (0 : BitVec 11) ++ s.allocPtr
  | .arg k => s.args[k.val]
  | .text n => s.text[n.val]
  | .palWin i => s.effPal i.val
  | .ctWin k => s.slot k
  | .descWin0 h => (s.desc h).word0
  | .descWin1 h => (s.desc h).word1
  | .pixWin a => s.memRead a
  | .unmapped => 0

/-- Byte k of the text buffer: the little-endian byte lanes of TEXT0..TEXT3 (R27). -/
def State.textBytes (s : State) : Vector Byte 16 :=
  Vector.ofFn fun k => (s.text[k.val / 4]'(by omega)).extractLsb' (8 * (k.val % 4)) 8

/-- Acceptance of the command word `w` (R37): CMD reads it back (R24), the operands are latched, BUSY is set. -/
def State.accept (s : State) (w : Word) : State :=
  { s with
    cmd := w
    latch := { cmd := w, arg := s.args, text := s.textBytes }
    status := s.status.accept }

/-- A host write to CMD (R24): accepted while idle, else dropped with CMD_OVR set. -/
def State.writeCmd (s : State) (w : Word) : State :=
  if s.status.busy then { s with status := s.status.overrun } else s.accept w

/-- A host write to CTRL (R23): bit 1 performs the soft reset, which has exactly the effect of a hardware
reset (R261, log 9); otherwise bit 0 is IE. -/
def State.writeCtrl (s : State) (v : Word) : State :=
  if v.getLsbD 1 then s.doReset else { s with ie := v.getLsbD 0 }

/-- A host write of `v` to a window (R62 to R65). -/
def State.writeWindow (s : State) (v : Word) : Window → State
  | .id => s
  | .status => { s with status := s.status.hostWrite v }
  | .ctrl => s.writeCtrl v
  | .cmd => s.writeCmd v
  | .palCount => s
  | .allocPtr => s
  | .arg k => { s with args := s.args.set k.val v k.isLt }
  | .text n => { s with text := s.text.set n.val v n.isLt }
  | .palWin _ => s
  | .ctWin _ => s
  | .descWin0 _ => s
  | .descWin1 _ => s
  | .pixWin a => s.memWrite a v
  | .unmapped => s

/-- The interrupt output (R240). -/
def State.irq (s : State) : Bool := s.ie && s.status.done

/-- The level of platform interrupt line `n`, as far as this block drives it (R240). -/
def State.drivesIrqLine (s : State) (n : Nat) : Bool := n == s.params.ptuIrqLine && s.irq

/-- The host offset that a system address selects, if it lies in the block's 23-bit window at PTU_BASE (R75). -/
def Params.hostOffset (p : Params) (sysAddr : Nat) : Option HostAddr :=
  if p.ptuBase ≤ sysAddr ∧ sysAddr < p.ptuBase + 2 ^ 23 then some (BitVec.ofNat 23 (sysAddr - p.ptuBase)) else none

end Sys2Proof.Machine
end

