-- ==== Sys2Proof/Machine/Engine.lean ====
section
/-! DEFINITION. The engine's turn, the host's turn, and which comes next (20_memory.md R66 to R68;
70_reset_and_hazards.md R275; log 1). -/

namespace Sys2Proof.Machine

/-- The latched command executes (R234): the decoded command, or E_ILLEGAL. -/
def State.runLatched (s : State) : Result :=
  match decode s.latch.cmd with
  | .ok i => exec i s
  | .error _ => s.illegalWord

/-- The engine's turn: a running command completes; an idle engine does nothing (R262, R275). -/
def State.engineTurn (s : State) : Result := if s.status.busy then s.runLatched else .next s

/-- The oldest input is taken off the list. -/
def State.popInput (s : State) : State := { s with inputs := s.inputs.tail }

/-- A host access completes with this response. -/
def State.respond (s : State) (r : Reply) : State := { s with reply := some r }

/-- The access is held (R66): a command runs and the access is a legal one to a held window (log 8). -/
def State.holds (s : State) (addr : HostAddr) (be : BitVec 4) : Bool :=
  s.status.busy && legalAccess addr be && (s.window addr).held

/-- A host read that is not held (R61, R62). -/
def State.doRead (s : State) (addr : HostAddr) (be : BitVec 4) : State :=
  if legalAccess addr be then s.respond { busError := false, data := s.readWindow (s.window addr) }
  else s.respond { busError := true, data := 0 }

/-- A host write that is not held (R61, R62). -/
def State.doWrite (s : State) (addr : HostAddr) (be : BitVec 4) (v : Word) : State :=
  if legalAccess addr be then (s.writeWindow v (s.window addr)).respond { busError := false, data := 0 }
  else s.respond { busError := true, data := 0 }

/-- One turn. A held access stays first in the list and the engine takes the turn, so the access is then
performed on the state after completion (R66, log 12). With nothing to come, the engine takes every turn, so
an accepted command completes (R275). -/
def State.turn (s : State) : Result :=
  match s.inputs with
  | [] => s.engineTurn
  | .engineTurn :: _ => s.popInput.engineTurn
  | .hardReset :: _ => .next s.popInput.doReset
  | .hostRead addr be :: _ =>
    if s.holds addr be then s.engineTurn else .next (s.popInput.doRead addr be)
  | .hostWrite addr be v :: _ =>
    if s.holds addr be then s.engineTurn else .next (s.popInput.doWrite addr be v)

/-- The command word `w` as the host's write to CMD leaves it when the block is idle (R37), and the engine's
turn next (log 2). -/
def State.loadCommand (s : State) (w : Word) : State :=
  { s.accept w with inputs := .engineTurn :: s.inputs }

end Sys2Proof.Machine
end

