-- ==== Sys2Proof/Machine/Step.lean ====
section
/-! DEFINITION. The step of the machine, and the placing of one command for it to run. -/

namespace Sys2Proof.Machine

/-- One step: the next entry of what happens at the ports, or the engine's turn. -/
def step (s : State) : Host.Outcome State Fault Refusal := s.turn

/-- The block fetches no instructions (R25): its next command is the latched one. The command word of `nbits`
bits is accepted, and the next step is the engine's (log 2). -/
def State.withFetchWord (s : State) (nbits w : Nat) : State := s.loadCommand (commandWord nbits w)

end Sys2Proof.Machine
end

