-- ==== Sys2Proof/Machine/Assembler.lean ====
section
/-! DEFINITION. The assembly lines of 30_encoding.md R91 and R93 and the host bus writes they stand for (R92).
The block itself has no assembler; the host issues these writes (log 17). -/

namespace Sys2Proof.Machine

/-- A decimal operand, `mantissa / 10 ^ scale` (R91). -/
structure Decimal where
  mantissa : Int
  scale : Nat
  deriving DecidableEq, Repr

/-- A Q16.16 operand is encoded as `floor(value * 65536)` (R91). For a value outside -32768 <= value < 32768 that
number does not fit the 32-bit word, and R91 says nothing of it: DESIGN CHOICE, its low 32 bits are the word
(log 21). -/
def Decimal.word (d : Decimal) : Word := BitVec.ofInt 32 (fdiv (d.mantissa * 65536) (10 ^ d.scale))

/-- The line's operands in the order of R91; the last four constructors are the pseudo-instructions of R93. `wait`
carries how often the host reads STATUS before the command completes, which R93 and R275 leave open, and `palLoad`
carries one such number with each entry, for the WAIT after it (log 17). -/
inductive Asm where
  | nop
  | surfAlloc (hD : Handle) (w h : Word)
  | surfSeal (hD : Handle)
  | palUnpack (hex : List Byte)
  | ctLoad (slot : BitVec 8) (digits : List Byte)
  | ctLoadAbsent (slot : BitVec 8)
  | remap (hD hS : Handle) (ctbase : BitVec 8) (ctcount : BitVec 9)
  | fillRect (hD : Handle) (x y w h : Decimal) (color : Word)
  | fillCircle (hD : Handle) (cx cy r : Decimal) (color : Word)
  | fillEllipse (hD : Handle) (cx cy rx ry : Decimal) (color : Word)
  | fillRing (hD : Handle) (cx cy rIn rOut : Decimal) (color : Word)
  | drawLine (hD : Handle) (x0 y0 x1 y1 : Decimal) (color : Word)
  | blit (h v r270 : Bool) (hD hS : Handle) (dx dy sx sy sw sh : Decimal)
  | crop (hD hS : Handle) (sx sy sw sh : Decimal)
  | palLoad (entries : List (List Byte × Nat))
  | clear (hD : Handle) (w h : Decimal) (color : Word)
  | copy (hD hS : Handle) (dx dy sx sy sw sh : Decimal)
  | wait (polls : Nat)
  deriving DecidableEq, Repr

/-- A whole-word host write. -/
def busWrite (off : Nat) (v : Word) : Input := .hostWrite (BitVec.ofNat 23 off) 0xF v

/-- Step 1 of R92: the operand registers a line sets, each with its value, in ascending order. -/
def argWrites (l : List (Nat × Word)) : List Input := l.map fun p => busWrite (0x020 + 4 * p.1) p.2

/-- Four characters in the byte lanes of one TEXT register, character 0 lowest (R27). A lane
past the string's end is 0 (DESIGN CHOICE, log 22). -/
def textWord (c : List Byte) (n : Nat) : Word :=
  c.getD (4 * n + 3) 0 ++ c.getD (4 * n + 2) 0 ++ c.getD (4 * n + 1) 0 ++ c.getD (4 * n) 0

/-- Step 2 of R92: TEXT0 to TEXT3 are written. -/
def textWrites (c : List Byte) : List Input :=
  (List.range 4).map fun n => busWrite (0x040 + 4 * n) (textWord c n)

/-- The writes of one command line: operands, text, command word (R92). -/
def lineWrites (args : List (Nat × Word)) (text : List Input) (i : Instr) : List Input :=
  argWrites args ++ text ++ [busWrite 0x00C (encode i)]

/-- Two handles in ARG0 (R83); the other bits are 0 (DESIGN CHOICE, log 22). -/
def handles (hD hS : Handle) : Word := (0 : BitVec 16) ++ hS ++ hD

/-- One handle in ARG0 (R83). -/
def oneHandle (hD : Handle) : Word := handles hD 0

/-- PAL_UNPACK's line; a literal of more than 16 characters cannot be assembled (R92). -/
def palUnpackWrites (hex : List Byte) : Option (List Input) :=
  if hex.length ≤ 16 then
    some (lineWrites [(0, BitVec.ofNat 32 hex.length)] (textWrites hex) .palUnpack)
  else none

/-- CT_LOAD's line: L is the string's length, at most 255; of a string longer than the text buffer only the
first 4 characters are written (R92). -/
def ctLoadWrites (slot : BitVec 8) (digits : List Byte) : Option (List Input) :=
  if digits.length ≤ 255 then
    some (lineWrites [(0, (0 : BitVec 16) ++ BitVec.ofNat 8 digits.length ++ slot)]
      (textWrites (if digits.length ≤ 16 then digits else digits.take 4)) .ctLoad)
  else none

/-- CT_LOAD's line with ABSENT, which has no string: ABSENT is 1 and TEXT is not written. R91 and R92 give no value
for the L field of ARG0, which the command then ignores (R144): DESIGN CHOICE, L is 0 (log 22). -/
def ctLoadAbsentWrites (slot : BitVec 8) : List Input :=
  lineWrites [(0, (1 : BitVec 16) ++ (0 : BitVec 8) ++ slot)] [] .ctLoad

/-- A fill's or a line's operands: four Q16.16 words in ARG1..ARG4 and COLOR in ARG5 (R84). -/
def drawWrites (hD : Handle) (a b c d : Decimal) (color : Word) (i : Instr) : List Input :=
  lineWrites [(0, oneHandle hD), (1, a.word), (2, b.word), (3, c.word), (4, d.word), (5, color)] [] i

/-- BLIT's line (R84). -/
def blitWrites (h v r270 : Bool) (hD hS : Handle) (dx dy sx sy sw sh : Decimal) : List Input :=
  lineWrites [(0, handles hD hS), (1, dx.word), (2, dy.word), (3, sx.word), (4, sy.word), (5, sw.word), (6, sh.word)]
    [] (.blit h v (if r270 then 1 else 0))

/-- `WAIT` (R93): `polls` reads of STATUS while the command runs, the engine's turn, and the read that finds
BUSY = 0. -/
def waitInputs (polls : Nat) : List Input :=
  List.replicate polls (.hostRead 0x004 0xF) ++ [.engineTurn, .hostRead 0x004 0xF]

/-- One entry of `PAL_LOAD` (R93): its PAL_UNPACK line and the WAIT after it. -/
def palLoadEntry (e : List Byte × Nat) : Option (List Input) :=
  (palUnpackWrites e.1).map fun ws => ws ++ waitInputs e.2

/-- What a line puts at the ports (R92, R93); `none` where it cannot be assembled. -/
def Asm.inputs : Asm → Option (List Input)
  | .nop => some (lineWrites [] [] .nop)
  | .surfAlloc hD w h => some (lineWrites [(0, oneHandle hD), (1, w), (2, h)] [] .surfAlloc)
  | .surfSeal hD => some (lineWrites [(0, oneHandle hD)] [] .surfSeal)
  | .palUnpack hex => palUnpackWrites hex
  | .ctLoad slot digits => ctLoadWrites slot digits
  | .ctLoadAbsent slot => some (ctLoadAbsentWrites slot)
  | .remap hD hS ctbase ctcount =>
    some (lineWrites [(0, handles hD hS), (1, (0 : BitVec 15) ++ ctcount ++ ctbase)] [] .remap)
  | .fillRect hD x y w h color => some (drawWrites hD x y w h color .fillRect)
  | .fillCircle hD cx cy r color =>
    some (lineWrites [(0, oneHandle hD), (1, cx.word), (2, cy.word), (3, r.word), (5, color)] [] .fillCircle)
  | .fillEllipse hD cx cy rx ry color => some (drawWrites hD cx cy rx ry color .fillEllipse)
  | .fillRing hD cx cy rIn rOut color => some (drawWrites hD cx cy rIn rOut color .fillRing)
  | .drawLine hD x0 y0 x1 y1 color => some (drawWrites hD x0 y0 x1 y1 color .drawLine)
  | .blit h v r270 hD hS dx dy sx sy sw sh => some (blitWrites h v r270 hD hS dx dy sx sy sw sh)
  | .crop hD hS sx sy sw sh =>
    some (lineWrites [(0, handles hD hS), (3, sx.word), (4, sy.word), (5, sw.word), (6, sh.word)] [] .crop)
  | .palLoad entries => (entries.mapM palLoadEntry).map List.flatten
  | .clear hD w h color => some (drawWrites hD ⟨0, 0⟩ ⟨0, 0⟩ w h color .fillRect)
  | .copy hD hS dx dy sx sy sw sh => some (blitWrites false false false hD hS dx dy sx sy sw sh)
  | .wait polls => some (waitInputs polls)

end Sys2Proof.Machine
end

