-- ==== Sys2Proof/Safety.lean ====
section
/-! DEFINITION. The states a run can be in (`State.Inv`), the host's duties (70_reset_and_hazards.md R270, R272)
and the comparisons of states that the statements are made in. -/

namespace Sys2Proof.Machine

/-- Word `a` belongs to surface `h`. -/
def State.covers (s : State) (h : Handle) (a : Nat) : Prop :=
  (s.desc h).valid = true ∧ (s.desc h).base.toNat ≤ a ∧ a < (s.desc h).base.toNat + s.width h * s.height h

/-- A well-formed slot word (R32): bits 30:28 are 0, and an absent table is the zero word. -/
abbrev slotWellFormed (v : Word) : Prop := v.extractLsb' 28 3 = 0 ∧ (slotPresent v = false → v = 0)

/-- The descriptor and memory invariants (R34), which every command preserves and reset establishes. -/
structure State.MemInv (s : State) : Prop where
  /-- Memory is in its canonical form. -/
  canonical : s.mem.wf
  /-- Only bytes of existing words are listed (R35). -/
  inRange : ∀ c ∈ s.mem, c.1 < 4 * s.params.pixWords.val
  /-- ALLOC_PTR is 0..PIX_WORDS (R29). -/
  allocBound : s.allocPtr.toNat ≤ s.params.pixWords.val
  /-- R34, item 1. -/
  surfaceEnd : ∀ h, (s.desc h).valid = true →
    (s.desc h).base.toNat + s.width h * s.height h ≤ s.allocPtr.toNat
  /-- R34, item 2. -/
  disjoint : ∀ h k a, s.covers h a → s.covers k a → h = k
  /-- R34, item 3. -/
  sentinelZero : ∀ h, (s.desc h).valid = false → s.desc h = Desc.sentinel
  /-- Every byte of an allocated word has been written since reset (93 U2). -/
  allocWritten : ∀ a, a < 4 * s.allocPtr.toNat → (s.mem.read? a).isSome = true

/-- The invariants of the registers and tables. -/
structure State.RegInv (s : State) : Prop where
  /-- PAL_COUNT is 0..32 (R28). -/
  palBound : s.palCount.toNat ≤ Config.palDepth
  /-- Every slot word is well formed (R32). -/
  slots : ∀ k, slotWellFormed (s.slot k)
  /-- CMD reads back the latched word (R24, R37). -/
  cmdLatched : s.cmd = s.latch.cmd
  /-- SENT = 1 only with ERR = OK (R231). -/
  sentOk : s.status.sent = true → s.status.err = .ok
  /-- While FATAL = 1 the last command raised E_PAL_FORMAT or found the lock (R233, R234). -/
  fatalErr : s.status.fatal = true → s.status.err = .palFormat ∨ s.status.err = .fatalLock

/-- What holds of the state after reset and after every step. -/
structure State.Inv (s : State) : Prop where
  memory : s.MemInv
  registers : s.RegInv

/-- The two states agree on every piece of state but STATUS. -/
abbrev State.sameButStatus (s t : State) : Prop := t = { s with status := t.status }

/-- The two states agree on every piece of state but STATUS and pixel memory. -/
abbrev State.sameButStatusMem (s t : State) : Prop := t = { s with status := t.status, mem := t.mem }

/-- The two states agree on every piece of state but STATUS, pixel memory, the descriptors and ALLOC_PTR. -/
abbrev State.sameButAllocation (s t : State) : Prop :=
  t = { s with status := t.status, mem := t.mem, descTable := t.descTable, allocPtr := t.allocPtr }

/-- A successful allocation as seen in the state after it (R104): `h` names an unsealed `w` by `ht` surface at
the old ALLOC_PTR, every other descriptor stands, ALLOC_PTR has advanced by the surface's size, every byte
outside the surface is unchanged, and only STATUS, memory, the descriptors and ALLOC_PTR differ. -/
structure State.GainsSurface (s t : State) (h : Handle) (w ht : Nat) : Prop where
  desc : t.desc h = { valid := true, ro := false, w := BitVec.ofNat 12 w, h := BitVec.ofNat 12 ht, base := s.allocPtr }
  width : t.width h = w
  height : t.height h = ht
  otherDescs : ∀ k, k ≠ h → t.desc k = s.desc k
  allocPtr : t.allocPtr.toNat = s.allocPtr.toNat + w * ht
  otherBytes : ∀ b, b / 4 < s.allocPtr.toNat ∨ s.allocPtr.toNat + w * ht ≤ b / 4 → t.readByte b = s.readByte b
  onlyAllocation : s.sameButAllocation t

/-- A fill as seen in the state after it (R180): each pixel of surface `h` that the set covers holds `c`, each
other pixel of it its old value, every byte of no covered pixel is unchanged, and only STATUS and memory
differ. -/
structure State.Draws (s t : State) (h : Handle) (cov : Int → Int → Prop) (c : Word) : Prop where
  covered : ∀ x y : Nat, x < s.width h → y < s.height h → cov x y → t.px h x y = c
  uncovered : ∀ x y : Nat, x < s.width h → y < s.height h → ¬ cov x y → t.px h x y = s.px h x y
  otherBytes : ∀ b, (∀ x y : Nat, x < s.width h → y < s.height h → cov x y → b / 4 ≠ s.pxAddr h x y) →
    t.readByte b = s.readByte b
  onlyMem : s.sameButStatusMem t

/-- How a drawing command with destination `h` ends while FATAL = 0 (R180, R235): the sentinel, E_READ_ONLY,
or the drawing. A surface that does not lie in pixel memory is no surface of a reachable state (log 10). -/
def State.DrawOutcome (s : State) (i : Instr) (h : Handle) (cov : Int → Int → Prop) (c : Word) : Prop :=
  s.status.fatal = false →
    ((s.desc h).valid = false → exec i s = .next s.completeSentinel) ∧
    ((s.desc h).valid = true → (s.desc h).ro = true → exec i s = .next (s.complete .readOnly)) ∧
    ((s.desc h).valid = true → (s.desc h).ro = false → s.surfaceExists h = true →
      ∃ t, exec i s = .next t ∧ t.status = s.status.complete .ok ∧ s.Draws t h cov c)

/-- The step completes a host write normally: it answers `u` but for the response, which reports no bus error
(R61). What data a write's response carries no rule says; it is left open here (log 5). -/
def State.WriteCompletes (s u : State) : Prop :=
  ∃ d, step s = .next { u with reply := some { busError := false, data := d } }

/-- The next input resets the block: the reset input, or a write of 1 to CTRL.SOFT_RESET (R260, R261). -/
def Input.resets (s : State) : Input → Bool
  | .hostRead _ _ => false
  | .hostWrite addr be v => legalAccess addr be && s.window addr == .ctrl && v.getLsbD 1
  | .engineTurn => false
  | .hardReset => true

/-- The next step is a reset. -/
def State.resetsNext (s : State) : Bool :=
  match s.inputs with
  | [] => false
  | i :: _ => i.resets s

/-- Host duty (R272): the input does not write, through PIXWIN, a word of surface `h`. -/
def Input.spares (s : State) (h : Handle) : Input → Prop
  | .hostRead _ _ => True
  | .hostWrite addr _ _ => ∀ a, s.window addr = .pixWin a → ¬ s.covers h a
  | .engineTurn => True
  | .hardReset => True

/-- Host duty (R270): the input does not write CMD while BUSY = 1. -/
def Input.waits (s : State) : Input → Prop
  | .hostRead _ _ => True
  | .hostWrite addr _ _ => s.status.busy = true → s.window addr ≠ .cmd
  | .engineTurn => True
  | .hardReset => True

end Sys2Proof.Machine
end

