-- ==== Sys2Proof/Certificates/Slice0/Obligations.lean ====
section
/-! DEFINITION. The statements for the provers, in the order of the spec's files. -/

open Sys2Proof Sys2Proof.Machine

/-! ### 30_encoding.md -/

/-- R86's table, word by word, with two forms of BLIT. -/
def Obligations.TableWordsDecode : Prop :=
  decode 0x00000000 = .ok .nop ∧ decode 0x00000001 = .ok .surfAlloc ∧ decode 0x00000002 = .ok .surfSeal ∧
  decode 0x00000008 = .ok .palUnpack ∧ decode 0x00000009 = .ok .ctLoad ∧ decode 0x00000010 = .ok .remap ∧
  decode 0x00000020 = .ok .fillRect ∧ decode 0x00000021 = .ok .fillCircle ∧ decode 0x00000022 = .ok .fillEllipse ∧
  decode 0x00000023 = .ok .fillRing ∧ decode 0x00000024 = .ok .drawLine ∧ decode 0x00000031 = .ok .crop ∧
  decode 0x00000130 = .ok (.blit true false 0) ∧ decode 0x00000630 = .ok (.blit false true 1)

/-- Decoding and encoding agree both ways on every word and every command: no bit of a word is dropped. -/
def Obligations.DecodeIffEncode : Prop :=
  ∀ (w : Word) (i : Instr), decode w = .ok i ↔ (i.wellFormed = true ∧ encode i = w)

/-- R86: "a decoder selects a row iff (w & mask) = match", for every word and row. -/
def Obligations.MaskRowsSelectTheDecodedCommand : Prop :=
  (∀ (w : Word) (r : OpcodeRow), r ∈ opcodeRows →
    ((w &&& r.mask = r.pattern) ↔ ∃ i, decode w = .ok i ∧ i.mnemonic = r.mnemonic)) ∧
  (∀ (w : Word) (i : Instr), decode w = .ok i → ∃ r ∈ opcodeRows, i.mnemonic = r.mnemonic)

/-- R82: the four conditions of a legal word, and what an accepted illegal word does while FATAL = 0. -/
def Obligations.LegalityAndIllegalWords : Prop :=
  (∀ w : Word, legal w = true ↔
    (w.extractLsb' 0 8 ∈ ([0x00, 0x01, 0x02, 0x08, 0x09, 0x10, 0x20, 0x21, 0x22, 0x23, 0x24, 0x30, 0x31] : List (BitVec 8))) ∧
    w.extractLsb' 12 20 = 0 ∧
    (w.extractLsb' 0 8 ≠ 0x30 → w.getLsbD 8 = false ∧ w.getLsbD 9 = false ∧ w.extractLsb' 10 2 = 0) ∧
    (w.extractLsb' 0 8 = 0x30 → w.extractLsb' 10 2 = 0 ∨ w.extractLsb' 10 2 = 1)) ∧
  (∀ s : State, s.inputs = [] → s.status.busy = true → s.status.fatal = false → legal s.latch.cmd = false →
    step s = .next { s with status :=
      { s.status with err := .illegal, sent := false, done := true, busy := false } })

/-- R88: I(v) is the floor of v / 65536, lies in -32768..32767, and is the arithmetic right shift by 16. -/
def Obligations.IntPartIsFloor : Prop :=
  intPart 0x00028000 = 2 ∧ intPart 0xFFFF8000 = -1 ∧
  ∀ v : Word, 65536 * intPart v ≤ v.toInt ∧ v.toInt < 65536 * intPart v + 65536 ∧
    -32768 ≤ intPart v ∧ intPart v ≤ 32767 ∧ intPart v = (v.sshiftRight 16).toInt

/-- R91: the word of a decimal operand in the Q16.16 range is floor(value * 65536), and its I() is floor(value).
R92 for FILL_RECT: six operand writes and the command word; after these seven steps of an idle block the command is
latched with its operands and the rest of the inputs stands. -/
def Obligations.AssembledFillRectIsAccepted : Prop :=
  (∀ d : Decimal, -32768 * 10 ^ d.scale ≤ d.mantissa → d.mantissa < 32768 * 10 ^ d.scale →
    d.word.toInt = d.mantissa * 65536 / 10 ^ d.scale ∧ intPart d.word = d.mantissa / 10 ^ d.scale) ∧
  ∀ (s : State) (hD : Handle) (x y w h : Decimal) (color : Word) (ins rest : List Input),
    s.status.busy = false → (Asm.fillRect hD x y w h color).inputs = some ins →
    ∃ t, Host.Core.run Sys2Proof.core 7 { s with inputs := ins ++ rest } = .next t ∧
      t.inputs = rest ∧ t.status = { s.status with busy := true } ∧ t.cmd = 0x20 ∧ t.latch.cmd = 0x20 ∧
      t.dst = hD ∧ t.larg 1 = x.word ∧ t.larg 2 = y.word ∧ t.larg 3 = w.word ∧ t.larg 4 = h.word ∧ t.larg 5 = color ∧
      t.latch.arg = t.args ∧ t.text = s.text ∧ t.mem = s.mem ∧ t.descTable = s.descTable

/-! ### The engine's turn -/

/-- A step runs the decoded command: with a command running, the engine's turn is `exec` of it, the turn's own
input taken off the list. While the block is idle (R250, R262) the engine's turn changes nothing. That the engine
takes the turn when no input is left is the model's choice (log 1); so is that it takes the turn while an access
that must wait (R66) stays first in the list, nothing overtaking that access (log 12). -/
def Obligations.EngineTurnRunsTheLatchedCommand : Prop :=
  (∀ (s : State) (i : Instr), s.status.busy = true → decode s.latch.cmd = .ok i →
    (s.inputs = [] → step s = exec i s) ∧
    (∀ rest, s.inputs = .engineTurn :: rest → step s = exec i { s with inputs := rest }) ∧
    (∀ addr be rest, s.inputs = .hostRead addr be :: rest → legalAccess addr be = true →
      (s.window addr).held = true → step s = exec i s) ∧
    (∀ addr be v rest, s.inputs = .hostWrite addr be v :: rest → legalAccess addr be = true →
      (s.window addr).held = true → step s = exec i s)) ∧
  (∀ s : State, s.status.busy = false →
    (s.inputs = [] → step s = .next s) ∧
    (∀ rest, s.inputs = .engineTurn :: rest → step s = .next { s with inputs := rest }))

/-- A command word placed for the engine (log 2) is what the very next step runs, on the operands latched. -/
def Obligations.LoadedCommandIsTheNextStep : Prop :=
  ∀ (s : State) (w : Nat) (i : Instr), w < 2 ^ 32 → decode (BitVec.ofNat 32 w) = .ok i →
    step (s.withFetchWord 32 w) = exec i (s.accept (BitVec.ofNat 32 w))

/-- R234: the common prologue, in its order. -/
def Obligations.CommonPrologue : Prop :=
  ∀ s : State,
    (s.status.fatal = true → s.runLatched = .next { s with status :=
      { s.status with err := .fatalLock, sent := false, done := true, busy := false } }) ∧
    (s.status.fatal = false → legal s.latch.cmd = false → s.runLatched = .next { s with status :=
      { s.status with err := .illegal, sent := false, done := true, busy := false } }) ∧
    (s.status.fatal = false → legal s.latch.cmd = true →
      ∃ i, decode s.latch.cmd = .ok i ∧ s.runLatched = exec i s) ∧
    (s.status.fatal = true → ∀ i, exec i s = .next { s with status :=
      { s.status with err := .fatalLock, sent := false, done := true, busy := false } })

/-! ### 40_control.md -/

/-- R100. -/
def Obligations.NopOutcome : Prop :=
  (∀ s : State,
    (s.status.fatal = false → exec .nop s = .next { s with status :=
      { s.status with err := .ok, sent := false, done := true, busy := false } }) ∧
    (s.status.fatal = true → exec .nop s = .next (s.complete .fatalLock)) ∧
    (∀ t, exec .nop s = .next t → t.irq = s.ie)) ∧
  (∀ w : Word, w.extractLsb' 0 8 = 0x00 → w ≠ 0 → legal w = false) ∧
  (∀ s : State, s.status.fatal = false → s.latch.cmd.extractLsb' 0 8 = 0x00 → s.latch.cmd ≠ 0 →
    s.runLatched = .next (s.complete .illegal)) ∧
  (∃ t, step (State.reset.withFetchWord 32 0x00000000) = .next t ∧ t.status.toWord = 0x00000002)

/-- R104: the checks of `Alloc` in their order, and what it does when they pass. -/
def Obligations.AllocProcedure : Prop :=
  ∀ (s : State) (h : Handle) (w ht : Int),
    let inRange := 0 ≤ w ∧ w ≤ 4095 ∧ 0 ≤ ht ∧ ht ≤ 4095
    let size := w.toNat * ht.toNat
    ((s.desc h).valid = true → s.alloc h w ht = .error .inUse) ∧
    ((s.desc h).valid = false → ¬ inRange → s.alloc h w ht = .error .dim) ∧
    ((s.desc h).valid = false → inRange → s.params.pixWords.val < s.allocPtr.toNat + size →
      s.alloc h w ht = .error .noMem) ∧
    ((s.desc h).valid = false → inRange → s.allocPtr.toNat + size ≤ s.params.pixWords.val →
      ∃ t, s.alloc h w ht = .ok t ∧ s.GainsSurface t h w.toNat ht.toNat ∧ t.status = s.status ∧
        ∀ x y, x < w.toNat → y < ht.toNat → t.px h x y = 0x00000000) ∧
    (∀ c body, s.alloc h w ht = .error c → s.allocThen h w ht body = .next { s with status := s.status.complete c })

/-- R103: every outcome of SURF_ALLOC while FATAL = 0. -/
def Obligations.SurfAllocOutcome : Prop :=
  ∀ s : State, s.status.fatal = false →
    let h : Handle := (s.larg 0).extractLsb' 0 8
    let w := (s.larg 1).toNat
    let ht := (s.larg 2).toNat
    ((s.desc h).valid = true → exec .surfAlloc s = .next (s.complete .inUse)) ∧
    ((s.desc h).valid = false → (4095 < w ∨ 4095 < ht) → exec .surfAlloc s = .next (s.complete .dim)) ∧
    ((s.desc h).valid = false → w ≤ 4095 → ht ≤ 4095 → s.params.pixWords.val < s.allocPtr.toNat + w * ht →
      exec .surfAlloc s = .next (s.complete .noMem)) ∧
    ((s.desc h).valid = false → w ≤ 4095 → ht ≤ 4095 → s.allocPtr.toNat + w * ht ≤ s.params.pixWords.val →
      ∃ t, exec .surfAlloc s = .next t ∧ s.GainsSurface t h w ht ∧ t.status = s.status.complete .ok ∧
        ∀ x y, x < w → y < ht → t.px h x y = 0x00000000)

/-- R106: every outcome of SURF_SEAL while FATAL = 0; sealing twice changes no descriptor. -/
def Obligations.SurfSealOutcome : Prop :=
  ∀ s : State, s.status.fatal = false →
    let h : Handle := (s.larg 0).extractLsb' 0 8
    ((s.desc h).valid = false → exec .surfSeal s = .next s.completeSentinel) ∧
    ((s.desc h).valid = true →
      ∃ t, exec .surfSeal s = .next t ∧ t.desc h = { s.desc h with ro := true } ∧
        (∀ k, k ≠ h → t.desc k = s.desc k) ∧
        ((s.desc h).ro = true → ∀ k, t.desc k = s.desc k) ∧
        t = { s with status := s.status.complete .ok, descTable := t.descTable })

/-! ### 41_palette.md, 42_color_table.md -/

/-- R121 and R142: the digit values of every byte. -/
def Obligations.HexAndBase32Digits : Prop :=
  (∀ k : Nat, k < 10 → hexVal (BitVec.ofNat 8 (0x30 + k)) = some (BitVec.ofNat 4 k)) ∧
  (∀ k : Nat, k < 6 → hexVal (BitVec.ofNat 8 (0x41 + k)) = some (BitVec.ofNat 4 (10 + k)) ∧
    hexVal (BitVec.ofNat 8 (0x61 + k)) = some (BitVec.ofNat 4 (10 + k))) ∧
  (∀ c : Byte, hexVal c = none ↔ ¬ ((0x30 ≤ c.toNat ∧ c.toNat ≤ 0x39) ∨ (0x41 ≤ c.toNat ∧ c.toNat ≤ 0x46) ∨
    (0x61 ≤ c.toNat ∧ c.toNat ≤ 0x66))) ∧
  (∀ l, ∀ k : Nat, k < 10 → digitVal l (BitVec.ofNat 8 (0x30 + k)) = BitVec.ofNat 5 k) ∧
  (∀ l, ∀ k : Nat, k < 22 → digitVal l (BitVec.ofNat 8 (0x41 + k)) = BitVec.ofNat 5 (10 + k) ∧
    digitVal l (BitVec.ofNat 8 (0x61 + k)) = if l then BitVec.ofNat 5 (10 + k) else 0) ∧
  (∀ l, ∀ c : Byte, ¬ ((0x30 ≤ c.toNat ∧ c.toNat ≤ 0x39) ∨ (0x41 ≤ c.toNat ∧ c.toNat ≤ 0x56) ∨
    (0x61 ≤ c.toNat ∧ c.toNat ≤ 0x76)) → digitVal l c = 0)

/-- R120, with R122 to R124: every outcome of PAL_UNPACK while FATAL = 0 and PAL_COUNT is 0..32. The stored
word is told field by field: d[k] in bits 31-4k : 28-4k. -/
def Obligations.PalUnpackOutcome : Prop :=
  ∀ s : State, s.status.fatal = false →
    let len := ((s.larg 0).extractLsb' 0 8).toNat
    let wellFormed := (len = 6 ∨ len = 8) ∧ ∀ k, k < len → hexVal (s.ltext k) ≠ none
    (¬ wellFormed → exec .palUnpack s = .next { s with status :=
      { s.status with fatal := true, err := .palFormat, sent := false, done := true, busy := false } }) ∧
    (wellFormed → s.palCount.toNat = 32 → exec .palUnpack s = .next (s.complete .palFull)) ∧
    (wellFormed → s.palCount.toNat < 32 →
      ∃ t, exec .palUnpack s = .next t ∧ t.palCount.toNat = s.palCount.toNat + 1 ∧
        (∀ k, k < 8 → (t.effPal s.palCount.toNat).extractLsb' (28 - 4 * k) 4 =
          if k < len then (hexVal (s.ltext k)).getD 0 else 0xF) ∧
        (∀ j : Fin 32, j.val ≠ s.palCount.toNat → t.palRam[j.val] = s.palRam[j.val]) ∧
        t = { s with status := s.status.complete .ok, palRam := t.palRam, palCount := t.palCount })

/-- R126: the stored word depends only on the characters and the length; six digits decode as the same six
digits and "ff", with alpha 255. -/
def Obligations.PaletteEntryLaws : Prop :=
  ∀ s s' t t' : State, exec .palUnpack s = .next t → exec .palUnpack s' = .next t' →
    t.status.err = .ok → t'.status.err = .ok → s.palCount.toNat < 32 → s'.palCount.toNat < 32 →
    ((s.palLen = s'.palLen ∧ (∀ k, k < s.palLen → s.ltext k = s'.ltext k)) →
      t.effPal s.palCount.toNat = t'.effPal s'.palCount.toNat) ∧
    ((s.palLen = 6 ∧ s'.palLen = 8 ∧ (∀ k, k < 6 → s.ltext k = s'.ltext k) ∧ s'.ltext 6 = 0x66 ∧ s'.ltext 7 = 0x66) →
      t.effPal s.palCount.toNat = t'.effPal s'.palCount.toNat ∧
        (t.effPal s.palCount.toNat).extractLsb' 0 8 = 0xFF)

/-- R140, with R143 to R145: CT_LOAD never fails, and the slot word field by field. -/
def Obligations.CtLoadOutcome : Prop :=
  ∀ s : State, s.status.fatal = false →
    let slot : BitVec 8 := (s.larg 0).extractLsb' 0 8
    let len : BitVec 8 := (s.larg 0).extractLsb' 8 8
    ∃ t, exec .ctLoad s = .next t ∧
      ((s.larg 0).getLsbD 16 = true → t.slot slot = 0x00000000) ∧
      ((s.larg 0).getLsbD 16 = false →
        (t.slot slot).getLsbD 31 = true ∧ (t.slot slot).extractLsb' 28 3 = 0 ∧ (t.slot slot).extractLsb' 20 8 = len ∧
        ∀ b, b < 4 → (t.slot slot).extractLsb' (5 * b) 5 =
          if b < len.toNat then digitVal s.params.ctAcceptLowercase (s.ltext b) else 0) ∧
      (∀ k, k ≠ slot → t.slot k = s.slot k) ∧
      t = { s with status := s.status.complete .ok, ctRam := t.ctRam }

/-! ### 43_tile_remap.md -/

/-- R162: the bucket of every pixel, by its red byte alone. -/
def Obligations.BucketTable : Prop :=
  ∀ p : Word, bucket p = min ((p.extractLsb' 24 8).toNat / 85) 3 ∧
    bucket p = if (p.extractLsb' 24 8).toNat < 85 then 0 else if (p.extractLsb' 24 8).toNat < 170 then 1
      else if (p.extractLsb' 24 8).toNat < 255 then 2 else 3

/-- R160, with R161 to R166: every outcome of REMAP while FATAL = 0, in states whose descriptors and memory meet
R34. -/
def Obligations.RemapOutcome : Prop :=
  ∀ s : State, s.MemInv → s.status.fatal = false →
    let dst : Handle := (s.larg 0).extractLsb' 0 8
    let src : Handle := (s.larg 0).extractLsb' 8 8
    let base := ((s.larg 1).extractLsb' 0 8).toNat
    let count := ((s.larg 1).extractLsb' 8 9).toNat
    let w := s.width src
    let ht := s.height src
    (256 < base + count → exec .remap s = .next (s.complete .ctRange)) ∧
    (base + count ≤ 256 → (s.desc src).valid = false → exec .remap s = .next s.completeSentinel) ∧
    (base + count ≤ 256 → (s.desc src).valid = true → (s.desc dst).valid = true →
      exec .remap s = .next (s.complete .inUse)) ∧
    (base + count ≤ 256 → (s.desc src).valid = true → (s.desc dst).valid = false →
      s.params.pixWords.val < s.allocPtr.toNat + w * ht → exec .remap s = .next (s.complete .noMem)) ∧
    (base + count ≤ 256 → (s.desc src).valid = true → (s.desc dst).valid = false →
      s.allocPtr.toNat + w * ht ≤ s.params.pixWords.val →
      ∃ t, exec .remap s = .next t ∧ s.GainsSurface t dst w ht ∧ t.status = s.status.complete .ok ∧
        ∀ x y, x < w → y < ht →
          let j := (y / 8) * (w / 8) + x / 8
          let v := s.slot (BitVec.ofNat 8 (base + j))
          let b := min (((s.px src x y).extractLsb' 24 8).toNat / 85) 3
          (x / 8 < w / 8 → y / 8 < ht / 8 → j < count →
            t.px dst x y = s.effPal (if v.getLsbD 31 then (v.extractLsb' (5 * b) 5).toNat else 0)) ∧
          (¬ (x / 8 < w / 8 ∧ y / 8 < ht / 8 ∧ j < count) → t.px dst x y = s.px src x y))

/-- R170: under the identity table, the output equals the source iff every covered pixel p is
EffPal(Bucket(p)). -/
def Obligations.RemapUnderTheIdentityTable : Prop :=
  ∀ s t : State, s.MemInv → exec .remap s = .next t → t.status.err = .ok → t.status.sent = false →
    (∀ k b : Nat, k < s.ctCount → b < 4 → slotIndex (s.slot (BitVec.ofNat 8 (s.ctBase + k))) b = b) →
    let covered x y := x < s.width s.src ∧ y < s.height s.src ∧
      tileCovered (s.width s.src) (s.height s.src) s.ctCount x y = true
    (∀ x y, covered x y → t.px s.dst x y = s.effPal (bucket (s.px s.src x y))) ∧
    ((∀ x y, x < s.width s.src → y < s.height s.src → t.px s.dst x y = s.px s.src x y) ↔
      ∀ x y, covered x y → s.effPal (bucket (s.px s.src x y)) = s.px s.src x y)

/-! ### 44_raster.md -/

/-- R181, R182. -/
def Obligations.FillRectOutcome : Prop :=
  ∀ s : State, s.DrawOutcome .fillRect ((s.larg 0).extractLsb' 0 8)
    (fun px py => intPart (s.larg 1) ≤ px ∧ px < intPart (s.larg 1) + intPart (s.larg 3) ∧
      intPart (s.larg 2) ≤ py ∧ py < intPart (s.larg 2) + intPart (s.larg 4)) (s.larg 5)

/-- R183, R184. -/
def Obligations.FillCircleOutcome : Prop :=
  ∀ s : State, s.DrawOutcome .fillCircle ((s.larg 0).extractLsb' 0 8)
    (fun px py => (px - intPart (s.larg 1)) * (px - intPart (s.larg 1)) +
      (py - intPart (s.larg 2)) * (py - intPart (s.larg 2)) ≤ intPart (s.larg 3) * intPart (s.larg 3)) (s.larg 5)

/-- R185, R186. -/
def Obligations.FillEllipseOutcome : Prop :=
  ∀ s : State,
    let rx := intPart (s.larg 3)
    let ry := intPart (s.larg 4)
    s.DrawOutcome .fillEllipse ((s.larg 0).extractLsb' 0 8)
      (fun px py => rx ≠ 0 ∧ ry ≠ 0 ∧
        (px - intPart (s.larg 1)) * (px - intPart (s.larg 1)) * (ry * ry) +
          (py - intPart (s.larg 2)) * (py - intPart (s.larg 2)) * (rx * rx) ≤ rx * rx * (ry * ry)) (s.larg 5)

/-- R187. -/
def Obligations.FillRingOutcome : Prop :=
  ∀ s : State,
    let d2 (px py : Int) := (px - intPart (s.larg 1)) * (px - intPart (s.larg 1)) +
      (py - intPart (s.larg 2)) * (py - intPart (s.larg 2))
    s.DrawOutcome .fillRing ((s.larg 0).extractLsb' 0 8)
      (fun px py => intPart (s.larg 3) * intPart (s.larg 3) ≤ d2 px py ∧
        d2 px py ≤ intPart (s.larg 4) * intPart (s.larg 4)) (s.larg 5)

/-- R189: the points are those of the steps i = 0..n, `/` rounding toward minus infinity for n > 0. -/
def Obligations.DrawLineOutcome : Prop :=
  ∀ s : State,
    let x0 := intPart (s.larg 1)
    let y0 := intPart (s.larg 2)
    let ddx := intPart (s.larg 3) - x0
    let ddy := intPart (s.larg 4) - y0
    let n : Int := max |ddx| |ddy|
    s.DrawOutcome .drawLine ((s.larg 0).extractLsb' 0 8)
      (fun px py => (n = 0 ∧ px = x0 ∧ py = y0) ∨
        (n ≠ 0 ∧ ∃ i : Int, 0 ≤ i ∧ i ≤ n ∧ px = x0 + (i * ddx) / n ∧ py = y0 + (i * ddy) / n)) (s.larg 5)

/-- R188: FILL_RING with inner radius 0 leaves the memory that FILL_CIRCLE with the outer radius leaves. -/
def Obligations.RingFromZeroIsCircle : Prop :=
  ∀ s t : State, intPart (s.larg 3) = 0 → exec .fillRing s = .next t →
    ∃ u, exec .fillCircle { s with latch := { s.latch with arg := s.latch.arg.set 3 (s.larg 4) } } = .next u ∧
      u.mem = t.mem ∧ u.status = t.status

/-- R191, fourth law: for r ≠ 0 the ellipse with equal radii is the disc. -/
def Obligations.EllipseWithEqualRadiiIsCircle : Prop :=
  ∀ s : State, intPart (s.larg 3) = intPart (s.larg 4) → intPart (s.larg 3) ≠ 0 →
    exec .fillEllipse s = exec .fillCircle s

/-- R191, second law: repeating a fill with the same operands changes nothing further. -/
def Obligations.FillTwiceIsFillOnce : Prop :=
  ∀ (i : Instr) (s t : State), i ∈ [Instr.fillRect, .fillCircle, .fillEllipse, .fillRing, .drawLine] →
    exec i s = .next t → ∃ u, exec i t = .next u ∧ u.status = t.status ∧ ∀ b, u.readByte b = t.readByte b

/-- R190: the line from B to A covers the set that the line from A to B covers. -/
def Obligations.LineReversalCoversTheSameSet : Prop :=
  ∀ (x0 y0 x1 y1 : Int) (p : Int × Int), p ∈ linePoints x0 y0 x1 y1 ↔ p ∈ linePoints x1 y1 x0 y0

/-- R190: a line has n + 1 points for n = max(|Δx|, |Δy|), both ends included; each step advances the major axis
by exactly 1 and no axis by more. -/
def Obligations.LineStepsAreWholePixels : Prop :=
  ∀ x0 y0 x1 y1 : Int,
    let l := linePoints x0 y0 x1 y1
    let n := max (x1 - x0).natAbs (y1 - y0).natAbs
    l.length = n + 1 ∧ l[0]? = some (x0, y0) ∧ l[n]? = some (x1, y1) ∧
      ∀ (k : Nat) (p q : Int × Int), l[k]? = some p → l[k + 1]? = some q →
        max (q.1 - p.1).natAbs (q.2 - p.2).natAbs = 1 ∧
        ((x1 - x0).natAbs = n → (q.1 - p.1).natAbs = 1) ∧ ((y1 - y0).natAbs = n → (q.2 - p.2).natAbs = 1)

/-! ### 45_compositor.md -/

/-- R211: the mapping is one-to-one, and it lands in the destination box: `sw` by `sh`, or `sh` by `sw` turned. -/
def Obligations.BlitMappingIsOneToOne : Prop :=
  ∀ (mh mv : Bool) (rot : BitVec 2) (dx dy sw sh i j i2 j2 : Int),
    (blitTarget mh mv rot dx dy sw sh i j = blitTarget mh mv rot dx dy sw sh i2 j2 → i = i2 ∧ j = j2) ∧
    (0 ≤ i → i < sw → 0 ≤ j → j < sh →
      let t := blitTarget mh mv rot dx dy sw sh i j
      dx ≤ t.1 ∧ dy ≤ t.2 ∧ (rot = 0 → t.1 < dx + sw ∧ t.2 < dy + sh) ∧ (rot = 1 → t.1 < dx + sh ∧ t.2 < dy + sw))

/-- R210, with R211 to R213 and R216: every outcome of BLIT while FATAL = 0. Each offset of the region whose
source pixel and target are in bounds copies the source pixel as it was before the command; every byte that no
such offset writes is unchanged. -/
def Obligations.BlitOutcome : Prop :=
  ∀ (s : State) (mh mv : Bool) (rot : BitVec 2), s.status.fatal = false →
    let dst : Handle := (s.larg 0).extractLsb' 0 8
    let src : Handle := (s.larg 0).extractLsb' 8 8
    let sw := intPart (s.larg 5)
    let sh := intPart (s.larg 6)
    let i' i := if mh then sw - 1 - i else i
    let j' j := if mv then sh - 1 - j else j
    let tx i j := if rot = 0 then intPart (s.larg 1) + i' i else intPart (s.larg 1) + j' j
    let ty i j := if rot = 0 then intPart (s.larg 2) + j' j else intPart (s.larg 2) + (sw - 1 - i' i)
    let copies (i j : Int) := 0 ≤ i ∧ i < sw ∧ 0 ≤ j ∧ j < sh ∧
      s.inB src (intPart (s.larg 3) + i) (intPart (s.larg 4) + j) = true ∧ s.inB dst (tx i j) (ty i j) = true
    (rot ≠ 0 → rot ≠ 1 → exec (.blit mh mv rot) s = .next (s.complete .illegal)) ∧
    ((rot = 0 ∨ rot = 1) → ((s.desc dst).valid = false ∨ (s.desc src).valid = false) →
      exec (.blit mh mv rot) s = .next s.completeSentinel) ∧
    ((rot = 0 ∨ rot = 1) → (s.desc dst).valid = true → (s.desc src).valid = true → (s.desc dst).ro = true →
      exec (.blit mh mv rot) s = .next (s.complete .readOnly)) ∧
    ((rot = 0 ∨ rot = 1) → (s.desc dst).valid = true → (s.desc src).valid = true → (s.desc dst).ro = false →
      s.surfaceExists dst = true → s.surfaceExists src = true →
      ∃ t, exec (.blit mh mv rot) s = .next t ∧ t.status = s.status.complete .ok ∧ s.sameButStatusMem t ∧
        (∀ i j, copies i j → t.px dst (tx i j).toNat (ty i j).toNat =
          s.px src (intPart (s.larg 3) + i).toNat (intPart (s.larg 4) + j).toNat) ∧
        (∀ b, (∀ i j, copies i j → b / 4 ≠ s.pxAddr dst (tx i j).toNat (ty i j).toNat) →
          t.readByte b = s.readByte b))

/-- R214, R215: every outcome of CROP while FATAL = 0, in states whose descriptors and memory meet R34. -/
def Obligations.CropOutcome : Prop :=
  ∀ s : State, s.MemInv → s.status.fatal = false →
    let dst : Handle := (s.larg 0).extractLsb' 0 8
    let src : Handle := (s.larg 0).extractLsb' 8 8
    let sx := intPart (s.larg 3)
    let sy := intPart (s.larg 4)
    let sw := intPart (s.larg 5)
    let sh := intPart (s.larg 6)
    let inRange := 0 ≤ sw ∧ sw ≤ 4095 ∧ 0 ≤ sh ∧ sh ≤ 4095
    let size := sw.toNat * sh.toNat
    ((s.desc src).valid = false → exec .crop s = .next s.completeSentinel) ∧
    ((s.desc src).valid = true → (s.desc dst).valid = true → exec .crop s = .next (s.complete .inUse)) ∧
    ((s.desc src).valid = true → (s.desc dst).valid = false → ¬ inRange → exec .crop s = .next (s.complete .dim)) ∧
    ((s.desc src).valid = true → (s.desc dst).valid = false → inRange →
      s.params.pixWords.val < s.allocPtr.toNat + size → exec .crop s = .next (s.complete .noMem)) ∧
    ((s.desc src).valid = true → (s.desc dst).valid = false → inRange →
      s.allocPtr.toNat + size ≤ s.params.pixWords.val →
      ∃ t, exec .crop s = .next t ∧ s.GainsSurface t dst sw.toNat sh.toNat ∧ t.status = s.status.complete .ok ∧
        ∀ i j : Nat, (i : Int) < sw → (j : Int) < sh →
          (s.inB src (sx + i) (sy + j) = true → t.px dst i j = s.px src (sx + i).toNat (sy + j).toNat) ∧
          (s.inB src (sx + i) (sy + j) = false → t.px dst i j = 0x00000000))

/-- R215: a successful CROP leaves the descriptors, ALLOC_PTR and pixel memory that SURF_ALLOC DST, sw, sh and then
BLIT DST, SRC, 0, 0, sx, sy, sw, sh leave. -/
def Obligations.CropIsAllocThenBlit : Prop :=
  ∀ s t : State, s.MemInv → exec .crop s = .next t → t.status.err = .ok → t.status.sent = false →
    let allocArgs := (s.latch.arg.set 1 (BitVec.ofInt 32 (intPart (s.larg 5)))).set 2 (BitVec.ofInt 32 (intPart (s.larg 6)))
    let blitArgs := (s.latch.arg.set 1 0).set 2 0
    ∃ u v, exec .surfAlloc { s with latch := { s.latch with arg := allocArgs } } = .next u ∧
      exec (.blit false false 0) { u with latch := { s.latch with arg := blitArgs } } = .next v ∧
      v.status = t.status ∧ v.allocPtr = t.allocPtr ∧ (∀ k, v.desc k = t.desc k) ∧ ∀ b, v.readByte b = t.readByte b

/-! ### 60_exceptions.md, and the promises made for all commands -/

/-- R231: what every completion writes in STATUS; CMD_OVR is no command's to change, and FATAL is never cleared. -/
def Obligations.CompletionWritesStatus : Prop :=
  ∀ (i : Instr) (s t : State), exec i s = .next t →
    t.status.done = true ∧ t.status.busy = false ∧ t.status.cmdOvr = s.status.cmdOvr ∧
      (t.status.sent = true → t.status.err = .ok) ∧ (s.status.fatal = true → t.status.fatal = true)

/-- R232: a nonzero code or a sentinel completion changes no state other than STATUS. -/
def Obligations.ErrorsChangeOnlyStatus : Prop :=
  ∀ (i : Instr) (s t : State), exec i s = .next t → (t.status.err ≠ .ok ∨ t.status.sent = true) → s.sameButStatus t

/-- R233: FATAL is set by E_PAL_FORMAT and by nothing else, only PAL_UNPACK raises that, and FATAL stays 1 over
every step but a reset. -/
def Obligations.FatalOnlyFromPaletteFormat : Prop :=
  (∀ (i : Instr) (s t : State), s.status.fatal = false → exec i s = .next t →
    (t.status.fatal = true ↔ t.status.err = .palFormat) ∧ (t.status.err = .palFormat → i = .palUnpack)) ∧
  (∀ s t : State, step s = .next t → s.status.fatal = true → s.resetsNext = false → t.status.fatal = true)

/-- R230: the commands that can raise each code. -/
def Obligations.CodesComeFromTheirCommands : Prop :=
  ∀ (i : Instr) (s t : State), i.wellFormed = true → exec i s = .next t →
    (t.status.err = .palFormat → i = .palUnpack) ∧ (t.status.err = .palFull → i = .palUnpack) ∧
    (t.status.err ≠ .illegal) ∧
    (t.status.err = .inUse → i ∈ [Instr.surfAlloc, .remap, .crop]) ∧
    (t.status.err = .noMem → i ∈ [Instr.surfAlloc, .remap, .crop]) ∧
    (t.status.err = .dim → i ∈ [Instr.surfAlloc, .crop]) ∧
    (t.status.err = .readOnly → i ∈ [Instr.fillRect, .fillCircle, .fillEllipse, .fillRing, .drawLine] ∨
      ∃ mh mv rot, i = .blit mh mv rot) ∧
    (t.status.err = .ctRange → i = .remap) ∧
    (t.status.err = .fatalLock ↔ s.status.fatal = true)

/-- R26, R27, R37: no command writes a register of the host, the latch, CTRL, or anything outside the block. -/
def Obligations.CommandsLeaveHostRegistersAlone : Prop :=
  ∀ (i : Instr) (s t : State), exec i s = .next t →
    t.args = s.args ∧ t.text = s.text ∧ t.cmd = s.cmd ∧ t.latch = s.latch ∧ t.ie = s.ie ∧ t.params = s.params ∧
      t.resets = s.resets ∧ t.inputs = s.inputs ∧ t.reply = s.reply

/-- Log 10: a drawing command whose destination does not lie in pixel memory stops by name; so do BLIT, REMAP and
CROP for their source. -/
def Obligations.EngineStopsOnNonexistentWords : Prop :=
  ∀ s : State, s.status.fatal = false →
    (∀ i ∈ [Instr.fillRect, .fillCircle, .fillEllipse, .fillRing, .drawLine], (s.desc s.dst).valid = true →
      (s.desc s.dst).ro = false → s.surfaceExists s.dst = false → exec i s = .fault .noSuchPixelWord) ∧
    ((s.desc s.src).valid = true → s.surfaceExists s.src = false →
      exec .crop s = .fault .noSuchPixelWord ∧
      (s.ctBase + s.ctCount ≤ 256 → exec .remap s = .fault .noSuchPixelWord) ∧
      ((s.desc s.dst).valid = true → (s.desc s.dst).ro = false → ∀ mh mv rot, (rot = 0 ∨ rot = 1) →
        exec (.blit mh mv rot) s = .fault .noSuchPixelWord)) ∧
    ((s.desc s.src).valid = true → s.surfaceExists s.src = true → (s.desc s.dst).valid = true →
      (s.desc s.dst).ro = false → s.surfaceExists s.dst = false → ∀ mh mv rot, (rot = 0 ∨ rot = 1) →
        exec (.blit mh mv rot) s = .fault .noSuchPixelWord)

/-- R240: `irq` is the level of IE and DONE. It is high after every completion while IE = 1 and when IE is set
while DONE = 1; it is low after a write of 1 to STATUS.DONE and after a write that clears IE. -/
def Obligations.IrqIsALevel : Prop :=
  (∀ s : State, s.irq = true ↔ s.ie = true ∧ s.status.toWord.getLsbD 1 = true) ∧
  (∀ (i : Instr) (s t : State), exec i s = .next t → s.ie = true → t.irq = true) ∧
  (∀ (s t : State) (v : Word) (rest : List Input), s.inputs = .hostWrite 0x008 0xF v :: rest → step s = .next t →
    v.getLsbD 1 = false → (v.getLsbD 0 = true → s.status.done = true → t.irq = true) ∧ (v.getLsbD 0 = false → t.irq = false)) ∧
  (∀ (s t : State) (v : Word) (rest : List Input), s.inputs = .hostWrite 0x004 0xF v :: rest → step s = .next t →
    v.getLsbD 1 = true → t.irq = false)

/-! ### 10_state.md, 20_memory.md: the host port -/

/-- R22: the fields of STATUS at their bits, reserved bits 0; R230: the ten codes of ERR. A host write: W1C on DONE
and CMD_OVR, nothing else. -/
def Obligations.StatusRegister : Prop :=
  (∀ st : Status, st.toWord.getLsbD 0 = st.busy ∧ st.toWord.getLsbD 1 = st.done ∧ st.toWord.getLsbD 2 = st.fatal ∧
    st.toWord.getLsbD 3 = st.cmdOvr ∧ st.toWord.getLsbD 4 = st.sent ∧ st.toWord.extractLsb' 5 3 = 0 ∧
    st.toWord.extractLsb' 8 8 = st.err.toByte ∧ st.toWord.extractLsb' 16 16 = 0) ∧
  (ErrCode.ok.toByte = 0x00 ∧ ErrCode.palFormat.toByte = 0x01 ∧ ErrCode.palFull.toByte = 0x02 ∧
    ErrCode.illegal.toByte = 0x03 ∧ ErrCode.inUse.toByte = 0x04 ∧ ErrCode.noMem.toByte = 0x05 ∧
    ErrCode.dim.toByte = 0x06 ∧ ErrCode.readOnly.toByte = 0x07 ∧ ErrCode.ctRange.toByte = 0x08 ∧
    ErrCode.fatalLock.toByte = 0x09) ∧
  (∀ (s : State) (v : Word) (rest : List Input), s.inputs = .hostWrite 0x004 0xF v :: rest →
    s.WriteCompletes { s with
      inputs := rest
      status := { s.status with
        done := if v.getLsbD 1 then false else s.status.done
        cmdOvr := if v.getLsbD 3 then false else s.status.cmdOvr } })

/-- R24, R37: a write to CMD while BUSY = 0 is accepted, latching CMD, ARG and TEXT and setting BUSY; while BUSY = 1
it only sets CMD_OVR. A read of CMD returns the last accepted word. -/
def Obligations.CommandAcceptance : Prop :=
  State.reset.cmd = 0 ∧
  ∀ (s : State) (w : Word) (rest : List Input),
    (s.inputs = .hostWrite 0x00C 0xF w :: rest →
      (s.status.busy = true →
        s.WriteCompletes { s with inputs := rest, status := { s.status with cmdOvr := true } }) ∧
      (s.status.busy = false → ∃ l : Latch,
        l.cmd = w ∧ (∀ k : Fin 8, l.arg[k.val] = s.args[k.val]) ∧
        (∀ k : Fin 16, l.text[k.val] =
          ((s.text[k.val / 4]'(by omega)).extractLsb' (8 * (k.val - 4 * (k.val / 4))) 8)) ∧
        s.WriteCompletes { s with
          inputs := rest
          cmd := w
          latch := l
          status := { s.status with busy := true } })) ∧
    (s.inputs = .hostRead 0x00C 0xF :: rest →
      step s = .next { s with inputs := rest, reply := some { busError := false, data := s.cmd } })

/-- R26, R27, R271: ARG and TEXT are written whole at any time, BUSY or not, and nothing else changes, the latch
of a running command least of all. R23: a write to CTRL with bit 1 clear sets IE to bit 0, ignores the other bits and
changes nothing else, BUSY or not. That the response of a host write, whatever its window, carries data 0 is the
model's choice (log 5). -/
def Obligations.HostRegisterWrites : Prop :=
  (∀ (s : State) (k : Fin 8) (v : Word) (rest : List Input),
    s.inputs = .hostWrite (BitVec.ofNat 23 (0x020 + 4 * k.val)) 0xF v :: rest →
    s.WriteCompletes { s with inputs := rest, args := s.args.set k.val v k.isLt }) ∧
  (∀ (s : State) (n : Fin 4) (v : Word) (rest : List Input),
    s.inputs = .hostWrite (BitVec.ofNat 23 (0x040 + 4 * n.val)) 0xF v :: rest →
    s.WriteCompletes { s with inputs := rest, text := s.text.set n.val v n.isLt }) ∧
  (∀ (s : State) (v : Word) (rest : List Input), s.inputs = .hostWrite 0x008 0xF v :: rest → v.getLsbD 1 = false →
    s.WriteCompletes { s with inputs := rest, ie := v.getLsbD 0 }) ∧
  (∀ (s t : State) (addr : HostAddr) (be : BitVec 4) (v : Word) (rest : List Input),
    s.inputs = .hostWrite addr be v :: rest → step s = .next t → t.inputs = rest →
    ∃ e, t.reply = some { busError := e, data := 0 })

/-- R61: an access with other byte enables, or at an address that is no multiple of 4, completes with a bus
error, changes no state and reads 0. That it does so at once while BUSY = 1 too is the model's reading of R66
(DEDUCED, log 8), and that a write's response carries data 0 is the model's choice (log 5). -/
def Obligations.IllegalAccessIsABusError : Prop :=
  ∀ (s : State) (addr : HostAddr) (be : BitVec 4) (v : Word) (rest : List Input),
    (be ≠ 0xF ∨ ¬ 4 ∣ addr.toNat) → (s.inputs = .hostRead addr be :: rest ∨ s.inputs = .hostWrite addr be v :: rest) →
    step s = .next { s with inputs := rest, reply := some { busError := true, data := 0 } }

/-- R62: what a read of each window returns, of ID, STATUS, CTRL, CMD, ARG and TEXT in every state (R66) and of the
held windows while no command runs; a read changes nothing else (R74). -/
def Obligations.AddressMapReads : Prop :=
  ∀ s : State,
    let reads (off : Nat) (v : Word) := ∀ rest, s.inputs = .hostRead (BitVec.ofNat 23 off) 0xF :: rest →
      step s = .next { s with inputs := rest, reply := some { busError := false, data := v } }
    (reads 0x000 0x50545531 ∧ reads 0x004 s.status.toWord ∧ reads 0x008 (if s.ie then 1 else 0) ∧ reads 0x00C s.cmd ∧
      (∀ k : Fin 8, reads (0x020 + 4 * k.val) s.args[k.val]) ∧
      (∀ n : Fin 4, reads (0x040 + 4 * n.val) s.text[n.val])) ∧
    (s.status.busy = false →
      reads 0x010 (s.palCount.setWidth 32) ∧ reads 0x014 (s.allocPtr.setWidth 32) ∧
      (∀ i : Fin 32, reads (0x100 + 4 * i.val) (if i.val < s.palCount.toNat then s.palRam[i.val] else 0xFFFFFFFF)) ∧
      (∀ k : BitVec 8, reads (0x400 + 4 * k.toNat) (s.slot k)) ∧
      (∀ h : Handle, reads (0x800 + 8 * h.toNat) ((s.desc h).base.setWidth 32)) ∧
      (∀ h : Handle, ∃ v : Word, reads (0x804 + 8 * h.toNat) v ∧ v.getLsbD 31 = (s.desc h).valid ∧
        v.getLsbD 30 = (s.desc h).ro ∧ v.extractLsb' 28 2 = 0 ∧ v.extractLsb' 16 12 = (s.desc h).h ∧
        v.extractLsb' 12 4 = 0 ∧ v.extractLsb' 0 12 = (s.desc h).w) ∧
      (∀ a, a < s.params.pixWords.val → reads (0x100000 + 4 * a) (s.memRead a)))

/-- R64, R65: a write to a read-only window or to an unmapped offset completes normally and changes nothing; a
read of an unmapped offset returns 0. The read-only windows that R66 holds wait while a command runs (HeldWindows);
ID never does. That an unmapped offset does not wait either is the model's reading of R66 (DEDUCED, log 8). -/
def Obligations.ReadOnlyAndUnmappedOffsets : Prop :=
  ∀ (s : State) (off : Nat) (rest : List Input), 4 ∣ off → off < 2 ^ 23 →
    let unmapped := (0x018 ≤ off ∧ off < 0x020) ∨ (0x050 ≤ off ∧ off < 0x100) ∨ (0x180 ≤ off ∧ off < 0x400) ∨
      (0x1000 ≤ off ∧ off < 0x100000) ∨ 0x100000 + 4 * s.params.pixWords.val ≤ off
    let readOnly := off = 0x000 ∨ (s.status.busy = false ∧
      (off = 0x010 ∨ off = 0x014 ∨ (0x100 ≤ off ∧ off < 0x180) ∨ (0x400 ≤ off ∧ off < 0x1000)))
    (∀ v, s.inputs = .hostWrite (BitVec.ofNat 23 off) 0xF v :: rest → (unmapped ∨ readOnly) →
      s.WriteCompletes { s with inputs := rest }) ∧
    (s.inputs = .hostRead (BitVec.ofNat 23 off) 0xF :: rest → unmapped →
      step s = .next { s with inputs := rest, reply := some { busError := false, data := 0 } })

/-- R63: a host read of PIXWIN[a] returns word `a` and a write stores it, whatever the descriptors say. That a word
at or beyond ALLOC_PTR keeps what the host wrote there is the model's reading (DEDUCED, log 15): R63 calls the content
of such a word unspecified, R68 gives a read the last write. -/
def Obligations.PixelWindow : Prop :=
  ∀ (s : State) (a : Nat) (v : Word) (rest : List Input), s.status.busy = false → a < s.params.pixWords.val →
    (s.inputs = .hostRead (BitVec.ofNat 23 (0x100000 + 4 * a)) 0xF :: rest →
      step s = .next { s with inputs := rest, reply := some { busError := false, data := s.memRead a } }) ∧
    (s.inputs = .hostWrite (BitVec.ofNat 23 (0x100000 + 4 * a)) 0xF v :: rest →
      ∃ m : Memory, s.WriteCompletes { s with inputs := rest, mem := m } ∧
        State.memRead { s with mem := m } a = v ∧
        ∀ b, b / 4 ≠ a → State.readByte { s with mem := m } b = s.readByte b)

/-- R66: while BUSY = 1 an access to a held window waits for completion and is then performed on the state after it;
an access to any other window is performed at once and leaves the command running, unless it resets the block. That
the wait is one step, the running command's completion with the access still first and nothing overtaking it, is the
model's choice (log 12); that an unmapped offset does not wait is its reading of R66 (DEDUCED, log 8). -/
def Obligations.HeldWindows : Prop :=
  ∀ (s t : State) (off : Nat) (acc : Input) (perform : State → State) (rest : List Input),
    s.status.busy = true → 4 ∣ off → off < 2 ^ 23 →
    ((acc = .hostRead (BitVec.ofNat 23 off) 0xF ∧ perform = fun u => u.popInput.doRead (BitVec.ofNat 23 off) 0xF) ∨
      ∃ v, acc = .hostWrite (BitVec.ofNat 23 off) 0xF v ∧
        perform = fun u => u.popInput.doWrite (BitVec.ofNat 23 off) 0xF v) →
    s.inputs = acc :: rest → step s = .next t →
    let held := off = 0x010 ∨ off = 0x014 ∨ (0x100 ≤ off ∧ off < 0x180) ∨ (0x400 ≤ off ∧ off < 0x1000) ∨
      (0x100000 ≤ off ∧ off < 0x100000 + 4 * s.params.pixWords.val)
    (held → s.runLatched = .next t ∧ t.inputs = acc :: rest ∧ t.reply = s.reply ∧ t.status.busy = false ∧
      step t = .next (perform t) ∧ (perform t).inputs = rest ∧ (perform t).reply.isSome = true) ∧
    (¬ held → t = perform s ∧ t.inputs = rest ∧ t.reply.isSome = true ∧
      (s.resetsNext = false → t.status.busy = true))

/-! ### 70_reset_and_hazards.md -/

/-- R260: the reset input sets every piece of state to its reset value, in every state; pixel memory is left with
no value of its own. -/
def Obligations.HardResetValues : Prop :=
  ∀ (s : State) (rest : List Input), s.inputs = .hardReset :: rest →
    ∃ t, step s = .next t ∧ t.status.toWord = 0 ∧ t.ie = false ∧ t.cmd = 0 ∧ (∀ k : Fin 8, t.args[k.val] = 0) ∧
      (∀ n : Fin 4, t.text[n.val] = 0) ∧ t.palCount = 0 ∧ t.allocPtr = 0 ∧ (∀ k, t.slot k = 0) ∧
      (∀ h, t.desc h = { valid := false, ro := false, w := 0, h := 0, base := 0 }) ∧
      t.latch.cmd = 0 ∧ (∀ k, t.larg k = 0) ∧ (∀ k : Fin 16, t.latch.text[k.val] = 0) ∧ t.irq = false ∧
      (∀ i, t.effPal i = 0xFFFFFFFF) ∧ (∀ b, t.readByte b = Config.resetByte (s.resets + 1) b) ∧
      t.params = s.params ∧ t.inputs = rest

/-- R261: a write with bit 1 set to CTRL, even while BUSY = 1, has exactly the effect of the reset input; the two
steps' states differ only in the write's own response, which reports no bus error. -/
def Obligations.SoftResetIsAReset : Prop :=
  ∀ (s : State) (v : Word) (rest : List Input), v.getLsbD 1 = true →
    ∃ t u d, step { s with inputs := .hostWrite 0x008 0xF v :: rest } = .next t ∧
      step { s with inputs := .hardReset :: rest } = .next u ∧ t = { u with reply := t.reply } ∧
      t.reply = some { busError := false, data := d }

/-- R275: an accepted command completes at the engine's turn, whatever it is, in every state a run can be in. -/
def Obligations.AcceptedCommandCompletes : Prop :=
  ∀ s : State, s.Inv → s.status.busy = true → (s.inputs = [] ∨ ∃ rest, s.inputs = .engineTurn :: rest) →
    ∃ t, step s = .next t ∧ t.status.busy = false ∧ t.status.done = true

/-! ### The whole machine -/

/-- The state after reset meets the invariant. -/
def Obligations.ResetMeetsInv : Prop := State.reset.Inv

/-- R34, with R28, R29, R32, R35: every step keeps the invariant, from every state that meets it. -/
def Obligations.StepKeepsInv : Prop := ∀ s t : State, s.Inv → step s = .next t → t.Inv

/-- R237: the block never stops: in every state that meets the invariant the step answers a next state. -/
def Obligations.StepNeverStops : Prop := ∀ s : State, s.Inv → ∃ t, step s = .next t

/-- R102, R29: over every step but a reset, a valid handle stays valid with the same W, H and BASE, a seal stays,
and ALLOC_PTR does not decrease; a handle becomes valid only by a running SURF_ALLOC, CROP or REMAP. -/
def Obligations.HandlesStayValid : Prop :=
  ∀ s t : State, step s = .next t → s.resetsNext = false →
    s.allocPtr.toNat ≤ t.allocPtr.toNat ∧
    (∀ h, (s.desc h).valid = true →
      (t.desc h).valid = true ∧ (t.desc h).w = (s.desc h).w ∧ (t.desc h).h = (s.desc h).h ∧
        (t.desc h).base = (s.desc h).base ∧ ((s.desc h).ro = true → (t.desc h).ro = true)) ∧
    (∀ h, (s.desc h).valid = false → (t.desc h).valid = true →
      s.status.busy = true ∧ ∃ i, decode s.latch.cmd = .ok i ∧ i ∈ [Instr.surfAlloc, .crop, .remap])

/-- R36, R107, R272, 93 U7: over every step but a reset, the words of a sealed surface keep their value, provided
the host does not write them through PIXWIN. -/
def Obligations.SealedSurfacesKeepTheirPixels : Prop :=
  ∀ (s t : State) (h : Handle), s.Inv → step s = .next t → s.resetsNext = false → (∀ i ∈ s.inputs.head?, i.spares s h) →
    (s.desc h).valid = true → (s.desc h).ro = true →
    t.desc h = s.desc h ∧ ∀ a, s.covers h a → t.memRead a = s.memRead a

/-- R125, R28: over every step but a reset, PAL_COUNT goes up by at most one and no entry below it changes. -/
def Obligations.PaletteIsAppendOnly : Prop :=
  ∀ s t : State, s.Inv → step s = .next t → s.resetsNext = false →
    s.palCount.toNat ≤ t.palCount.toNat ∧ t.palCount.toNat ≤ s.palCount.toNat + 1 ∧
      ∀ i, i < s.palCount.toNat → t.effPal i = s.effPal i

/-- 93 U2: no command reads a word whose content reset left unspecified: the outcome is the same whatever that
content is. It holds for every value of the free content. -/
def Obligations.CommandsDoNotReadFreeContent : Prop :=
  ∀ (i : Instr) (s : State) (n : Nat), s.Inv →
    exec i { s with resets := n } =
      match exec i s with
      | .next t => .next { t with resets := n }
      | .fault r => .fault r
      | .refused r => .refused r

/-- Log 6: no step changes the instance's parameters. -/
def Obligations.ParametersNeverChange : Prop := ∀ s t : State, step s = .next t → t.params = s.params
end

