-- ==== Sys2Proof/Laws/State.lean ====
section
/-! SUPPORT. One lemma per field and update of State, true by unfolding, so that no later proof unfolds a
record update; and the reads that an update does not touch. -/

namespace Sys2Proof.Machine

/-! ### `State.complete` -/

@[simp] theorem State.complete_status (s : State) (c : ErrCode) : (s.complete c).status = s.status.complete c := rfl
@[simp] theorem State.complete_ie (s : State) (c : ErrCode) : (s.complete c).ie = s.ie := rfl
@[simp] theorem State.complete_cmd (s : State) (c : ErrCode) : (s.complete c).cmd = s.cmd := rfl
@[simp] theorem State.complete_args (s : State) (c : ErrCode) : (s.complete c).args = s.args := rfl
@[simp] theorem State.complete_text (s : State) (c : ErrCode) : (s.complete c).text = s.text := rfl
@[simp] theorem State.complete_palCount (s : State) (c : ErrCode) : (s.complete c).palCount = s.palCount := rfl
@[simp] theorem State.complete_allocPtr (s : State) (c : ErrCode) : (s.complete c).allocPtr = s.allocPtr := rfl
@[simp] theorem State.complete_palRam (s : State) (c : ErrCode) : (s.complete c).palRam = s.palRam := rfl
@[simp] theorem State.complete_ctRam (s : State) (c : ErrCode) : (s.complete c).ctRam = s.ctRam := rfl
@[simp] theorem State.complete_descTable (s : State) (c : ErrCode) : (s.complete c).descTable = s.descTable := rfl
@[simp] theorem State.complete_mem (s : State) (c : ErrCode) : (s.complete c).mem = s.mem := rfl
@[simp] theorem State.complete_latch (s : State) (c : ErrCode) : (s.complete c).latch = s.latch := rfl
@[simp] theorem State.complete_params (s : State) (c : ErrCode) : (s.complete c).params = s.params := rfl
@[simp] theorem State.complete_resets (s : State) (c : ErrCode) : (s.complete c).resets = s.resets := rfl
@[simp] theorem State.complete_inputs (s : State) (c : ErrCode) : (s.complete c).inputs = s.inputs := rfl
@[simp] theorem State.complete_reply (s : State) (c : ErrCode) : (s.complete c).reply = s.reply := rfl

/-! ### `State.completeSentinel` -/

@[simp] theorem State.completeSentinel_status (s : State) : (s.completeSentinel).status = s.status.completeSentinel := rfl
@[simp] theorem State.completeSentinel_ie (s : State) : (s.completeSentinel).ie = s.ie := rfl
@[simp] theorem State.completeSentinel_cmd (s : State) : (s.completeSentinel).cmd = s.cmd := rfl
@[simp] theorem State.completeSentinel_args (s : State) : (s.completeSentinel).args = s.args := rfl
@[simp] theorem State.completeSentinel_text (s : State) : (s.completeSentinel).text = s.text := rfl
@[simp] theorem State.completeSentinel_palCount (s : State) : (s.completeSentinel).palCount = s.palCount := rfl
@[simp] theorem State.completeSentinel_allocPtr (s : State) : (s.completeSentinel).allocPtr = s.allocPtr := rfl
@[simp] theorem State.completeSentinel_palRam (s : State) : (s.completeSentinel).palRam = s.palRam := rfl
@[simp] theorem State.completeSentinel_ctRam (s : State) : (s.completeSentinel).ctRam = s.ctRam := rfl
@[simp] theorem State.completeSentinel_descTable (s : State) : (s.completeSentinel).descTable = s.descTable := rfl
@[simp] theorem State.completeSentinel_mem (s : State) : (s.completeSentinel).mem = s.mem := rfl
@[simp] theorem State.completeSentinel_latch (s : State) : (s.completeSentinel).latch = s.latch := rfl
@[simp] theorem State.completeSentinel_params (s : State) : (s.completeSentinel).params = s.params := rfl
@[simp] theorem State.completeSentinel_resets (s : State) : (s.completeSentinel).resets = s.resets := rfl
@[simp] theorem State.completeSentinel_inputs (s : State) : (s.completeSentinel).inputs = s.inputs := rfl
@[simp] theorem State.completeSentinel_reply (s : State) : (s.completeSentinel).reply = s.reply := rfl

/-! ### `State.raiseFatal` -/

@[simp] theorem State.raiseFatal_status (s : State) (c : ErrCode) : (s.raiseFatal c).status = s.status.raiseFatal c := rfl
@[simp] theorem State.raiseFatal_ie (s : State) (c : ErrCode) : (s.raiseFatal c).ie = s.ie := rfl
@[simp] theorem State.raiseFatal_cmd (s : State) (c : ErrCode) : (s.raiseFatal c).cmd = s.cmd := rfl
@[simp] theorem State.raiseFatal_args (s : State) (c : ErrCode) : (s.raiseFatal c).args = s.args := rfl
@[simp] theorem State.raiseFatal_text (s : State) (c : ErrCode) : (s.raiseFatal c).text = s.text := rfl
@[simp] theorem State.raiseFatal_palCount (s : State) (c : ErrCode) : (s.raiseFatal c).palCount = s.palCount := rfl
@[simp] theorem State.raiseFatal_allocPtr (s : State) (c : ErrCode) : (s.raiseFatal c).allocPtr = s.allocPtr := rfl
@[simp] theorem State.raiseFatal_palRam (s : State) (c : ErrCode) : (s.raiseFatal c).palRam = s.palRam := rfl
@[simp] theorem State.raiseFatal_ctRam (s : State) (c : ErrCode) : (s.raiseFatal c).ctRam = s.ctRam := rfl
@[simp] theorem State.raiseFatal_descTable (s : State) (c : ErrCode) : (s.raiseFatal c).descTable = s.descTable := rfl
@[simp] theorem State.raiseFatal_mem (s : State) (c : ErrCode) : (s.raiseFatal c).mem = s.mem := rfl
@[simp] theorem State.raiseFatal_latch (s : State) (c : ErrCode) : (s.raiseFatal c).latch = s.latch := rfl
@[simp] theorem State.raiseFatal_params (s : State) (c : ErrCode) : (s.raiseFatal c).params = s.params := rfl
@[simp] theorem State.raiseFatal_resets (s : State) (c : ErrCode) : (s.raiseFatal c).resets = s.resets := rfl
@[simp] theorem State.raiseFatal_inputs (s : State) (c : ErrCode) : (s.raiseFatal c).inputs = s.inputs := rfl
@[simp] theorem State.raiseFatal_reply (s : State) (c : ErrCode) : (s.raiseFatal c).reply = s.reply := rfl

/-! ### `State.memWrite` -/

@[simp] theorem State.memWrite_status (s : State) (a : Nat) (v : Word) : (s.memWrite a v).status = s.status := rfl
@[simp] theorem State.memWrite_ie (s : State) (a : Nat) (v : Word) : (s.memWrite a v).ie = s.ie := rfl
@[simp] theorem State.memWrite_cmd (s : State) (a : Nat) (v : Word) : (s.memWrite a v).cmd = s.cmd := rfl
@[simp] theorem State.memWrite_args (s : State) (a : Nat) (v : Word) : (s.memWrite a v).args = s.args := rfl
@[simp] theorem State.memWrite_text (s : State) (a : Nat) (v : Word) : (s.memWrite a v).text = s.text := rfl
@[simp] theorem State.memWrite_palCount (s : State) (a : Nat) (v : Word) : (s.memWrite a v).palCount = s.palCount := rfl
@[simp] theorem State.memWrite_allocPtr (s : State) (a : Nat) (v : Word) : (s.memWrite a v).allocPtr = s.allocPtr := rfl
@[simp] theorem State.memWrite_palRam (s : State) (a : Nat) (v : Word) : (s.memWrite a v).palRam = s.palRam := rfl
@[simp] theorem State.memWrite_ctRam (s : State) (a : Nat) (v : Word) : (s.memWrite a v).ctRam = s.ctRam := rfl
@[simp] theorem State.memWrite_descTable (s : State) (a : Nat) (v : Word) : (s.memWrite a v).descTable = s.descTable := rfl
@[simp] theorem State.memWrite_mem (s : State) (a : Nat) (v : Word) : (s.memWrite a v).mem = s.mem.writeWord a v := rfl
@[simp] theorem State.memWrite_latch (s : State) (a : Nat) (v : Word) : (s.memWrite a v).latch = s.latch := rfl
@[simp] theorem State.memWrite_params (s : State) (a : Nat) (v : Word) : (s.memWrite a v).params = s.params := rfl
@[simp] theorem State.memWrite_resets (s : State) (a : Nat) (v : Word) : (s.memWrite a v).resets = s.resets := rfl
@[simp] theorem State.memWrite_inputs (s : State) (a : Nat) (v : Word) : (s.memWrite a v).inputs = s.inputs := rfl
@[simp] theorem State.memWrite_reply (s : State) (a : Nat) (v : Word) : (s.memWrite a v).reply = s.reply := rfl

/-! ### `State.setDesc` -/

@[simp] theorem State.setDesc_status (s : State) (h : Handle) (d : Desc) : (s.setDesc h d).status = s.status := rfl
@[simp] theorem State.setDesc_ie (s : State) (h : Handle) (d : Desc) : (s.setDesc h d).ie = s.ie := rfl
@[simp] theorem State.setDesc_cmd (s : State) (h : Handle) (d : Desc) : (s.setDesc h d).cmd = s.cmd := rfl
@[simp] theorem State.setDesc_args (s : State) (h : Handle) (d : Desc) : (s.setDesc h d).args = s.args := rfl
@[simp] theorem State.setDesc_text (s : State) (h : Handle) (d : Desc) : (s.setDesc h d).text = s.text := rfl
@[simp] theorem State.setDesc_palCount (s : State) (h : Handle) (d : Desc) : (s.setDesc h d).palCount = s.palCount := rfl
@[simp] theorem State.setDesc_allocPtr (s : State) (h : Handle) (d : Desc) : (s.setDesc h d).allocPtr = s.allocPtr := rfl
@[simp] theorem State.setDesc_palRam (s : State) (h : Handle) (d : Desc) : (s.setDesc h d).palRam = s.palRam := rfl
@[simp] theorem State.setDesc_ctRam (s : State) (h : Handle) (d : Desc) : (s.setDesc h d).ctRam = s.ctRam := rfl
@[simp] theorem State.setDesc_descTable (s : State) (h : Handle) (d : Desc) : (s.setDesc h d).descTable = s.descTable.set h.toNat d h.isLt := rfl
@[simp] theorem State.setDesc_mem (s : State) (h : Handle) (d : Desc) : (s.setDesc h d).mem = s.mem := rfl
@[simp] theorem State.setDesc_latch (s : State) (h : Handle) (d : Desc) : (s.setDesc h d).latch = s.latch := rfl
@[simp] theorem State.setDesc_params (s : State) (h : Handle) (d : Desc) : (s.setDesc h d).params = s.params := rfl
@[simp] theorem State.setDesc_resets (s : State) (h : Handle) (d : Desc) : (s.setDesc h d).resets = s.resets := rfl
@[simp] theorem State.setDesc_inputs (s : State) (h : Handle) (d : Desc) : (s.setDesc h d).inputs = s.inputs := rfl
@[simp] theorem State.setDesc_reply (s : State) (h : Handle) (d : Desc) : (s.setDesc h d).reply = s.reply := rfl

/-! ### `State.setSlot` -/

@[simp] theorem State.setSlot_status (s : State) (k : BitVec 8) (v : Word) : (s.setSlot k v).status = s.status := rfl
@[simp] theorem State.setSlot_ie (s : State) (k : BitVec 8) (v : Word) : (s.setSlot k v).ie = s.ie := rfl
@[simp] theorem State.setSlot_cmd (s : State) (k : BitVec 8) (v : Word) : (s.setSlot k v).cmd = s.cmd := rfl
@[simp] theorem State.setSlot_args (s : State) (k : BitVec 8) (v : Word) : (s.setSlot k v).args = s.args := rfl
@[simp] theorem State.setSlot_text (s : State) (k : BitVec 8) (v : Word) : (s.setSlot k v).text = s.text := rfl
@[simp] theorem State.setSlot_palCount (s : State) (k : BitVec 8) (v : Word) : (s.setSlot k v).palCount = s.palCount := rfl
@[simp] theorem State.setSlot_allocPtr (s : State) (k : BitVec 8) (v : Word) : (s.setSlot k v).allocPtr = s.allocPtr := rfl
@[simp] theorem State.setSlot_palRam (s : State) (k : BitVec 8) (v : Word) : (s.setSlot k v).palRam = s.palRam := rfl
@[simp] theorem State.setSlot_ctRam (s : State) (k : BitVec 8) (v : Word) : (s.setSlot k v).ctRam = s.ctRam.set k.toNat v k.isLt := rfl
@[simp] theorem State.setSlot_descTable (s : State) (k : BitVec 8) (v : Word) : (s.setSlot k v).descTable = s.descTable := rfl
@[simp] theorem State.setSlot_mem (s : State) (k : BitVec 8) (v : Word) : (s.setSlot k v).mem = s.mem := rfl
@[simp] theorem State.setSlot_latch (s : State) (k : BitVec 8) (v : Word) : (s.setSlot k v).latch = s.latch := rfl
@[simp] theorem State.setSlot_params (s : State) (k : BitVec 8) (v : Word) : (s.setSlot k v).params = s.params := rfl
@[simp] theorem State.setSlot_resets (s : State) (k : BitVec 8) (v : Word) : (s.setSlot k v).resets = s.resets := rfl
@[simp] theorem State.setSlot_inputs (s : State) (k : BitVec 8) (v : Word) : (s.setSlot k v).inputs = s.inputs := rfl
@[simp] theorem State.setSlot_reply (s : State) (k : BitVec 8) (v : Word) : (s.setSlot k v).reply = s.reply := rfl

/-! ### `State.appendPal` -/

@[simp] theorem State.appendPal_status (s : State) (e : Word) : (s.appendPal e).status = s.status := rfl
@[simp] theorem State.appendPal_ie (s : State) (e : Word) : (s.appendPal e).ie = s.ie := rfl
@[simp] theorem State.appendPal_cmd (s : State) (e : Word) : (s.appendPal e).cmd = s.cmd := rfl
@[simp] theorem State.appendPal_args (s : State) (e : Word) : (s.appendPal e).args = s.args := rfl
@[simp] theorem State.appendPal_text (s : State) (e : Word) : (s.appendPal e).text = s.text := rfl
@[simp] theorem State.appendPal_palCount (s : State) (e : Word) : (s.appendPal e).palCount = s.palCount + 1 := rfl
@[simp] theorem State.appendPal_allocPtr (s : State) (e : Word) : (s.appendPal e).allocPtr = s.allocPtr := rfl
@[simp] theorem State.appendPal_palRam (s : State) (e : Word) : (s.appendPal e).palRam = s.palRam.setIfInBounds s.palCount.toNat e := rfl
@[simp] theorem State.appendPal_ctRam (s : State) (e : Word) : (s.appendPal e).ctRam = s.ctRam := rfl
@[simp] theorem State.appendPal_descTable (s : State) (e : Word) : (s.appendPal e).descTable = s.descTable := rfl
@[simp] theorem State.appendPal_mem (s : State) (e : Word) : (s.appendPal e).mem = s.mem := rfl
@[simp] theorem State.appendPal_latch (s : State) (e : Word) : (s.appendPal e).latch = s.latch := rfl
@[simp] theorem State.appendPal_params (s : State) (e : Word) : (s.appendPal e).params = s.params := rfl
@[simp] theorem State.appendPal_resets (s : State) (e : Word) : (s.appendPal e).resets = s.resets := rfl
@[simp] theorem State.appendPal_inputs (s : State) (e : Word) : (s.appendPal e).inputs = s.inputs := rfl
@[simp] theorem State.appendPal_reply (s : State) (e : Word) : (s.appendPal e).reply = s.reply := rfl

/-! ### `State.setPixels` -/

@[simp] theorem State.setPixels_status (s : State) (h : Handle) (ws : List (Int × Int × Word)) : (s.setPixels h ws).status = s.status := rfl
@[simp] theorem State.setPixels_ie (s : State) (h : Handle) (ws : List (Int × Int × Word)) : (s.setPixels h ws).ie = s.ie := rfl
@[simp] theorem State.setPixels_cmd (s : State) (h : Handle) (ws : List (Int × Int × Word)) : (s.setPixels h ws).cmd = s.cmd := rfl
@[simp] theorem State.setPixels_args (s : State) (h : Handle) (ws : List (Int × Int × Word)) : (s.setPixels h ws).args = s.args := rfl
@[simp] theorem State.setPixels_text (s : State) (h : Handle) (ws : List (Int × Int × Word)) : (s.setPixels h ws).text = s.text := rfl
@[simp] theorem State.setPixels_palCount (s : State) (h : Handle) (ws : List (Int × Int × Word)) : (s.setPixels h ws).palCount = s.palCount := rfl
@[simp] theorem State.setPixels_allocPtr (s : State) (h : Handle) (ws : List (Int × Int × Word)) : (s.setPixels h ws).allocPtr = s.allocPtr := rfl
@[simp] theorem State.setPixels_palRam (s : State) (h : Handle) (ws : List (Int × Int × Word)) : (s.setPixels h ws).palRam = s.palRam := rfl
@[simp] theorem State.setPixels_ctRam (s : State) (h : Handle) (ws : List (Int × Int × Word)) : (s.setPixels h ws).ctRam = s.ctRam := rfl
@[simp] theorem State.setPixels_descTable (s : State) (h : Handle) (ws : List (Int × Int × Word)) : (s.setPixels h ws).descTable = s.descTable := rfl
@[simp] theorem State.setPixels_mem (s : State) (h : Handle) (ws : List (Int × Int × Word)) : (s.setPixels h ws).mem = ws.foldl (s.writePixel h) s.mem := rfl
@[simp] theorem State.setPixels_latch (s : State) (h : Handle) (ws : List (Int × Int × Word)) : (s.setPixels h ws).latch = s.latch := rfl
@[simp] theorem State.setPixels_params (s : State) (h : Handle) (ws : List (Int × Int × Word)) : (s.setPixels h ws).params = s.params := rfl
@[simp] theorem State.setPixels_resets (s : State) (h : Handle) (ws : List (Int × Int × Word)) : (s.setPixels h ws).resets = s.resets := rfl
@[simp] theorem State.setPixels_inputs (s : State) (h : Handle) (ws : List (Int × Int × Word)) : (s.setPixels h ws).inputs = s.inputs := rfl
@[simp] theorem State.setPixels_reply (s : State) (h : Handle) (ws : List (Int × Int × Word)) : (s.setPixels h ws).reply = s.reply := rfl

/-! ### `State.claim` -/

@[simp] theorem State.claim_status (s : State) (h : Handle) (w ht : Nat) : (s.claim h w ht).status = s.status := rfl
@[simp] theorem State.claim_ie (s : State) (h : Handle) (w ht : Nat) : (s.claim h w ht).ie = s.ie := rfl
@[simp] theorem State.claim_cmd (s : State) (h : Handle) (w ht : Nat) : (s.claim h w ht).cmd = s.cmd := rfl
@[simp] theorem State.claim_args (s : State) (h : Handle) (w ht : Nat) : (s.claim h w ht).args = s.args := rfl
@[simp] theorem State.claim_text (s : State) (h : Handle) (w ht : Nat) : (s.claim h w ht).text = s.text := rfl
@[simp] theorem State.claim_palCount (s : State) (h : Handle) (w ht : Nat) : (s.claim h w ht).palCount = s.palCount := rfl
@[simp] theorem State.claim_allocPtr (s : State) (h : Handle) (w ht : Nat) : (s.claim h w ht).allocPtr = BitVec.ofNat 21 (s.allocPtr.toNat + w * ht) := rfl
@[simp] theorem State.claim_palRam (s : State) (h : Handle) (w ht : Nat) : (s.claim h w ht).palRam = s.palRam := rfl
@[simp] theorem State.claim_ctRam (s : State) (h : Handle) (w ht : Nat) : (s.claim h w ht).ctRam = s.ctRam := rfl
@[simp] theorem State.claim_mem (s : State) (h : Handle) (w ht : Nat) : (s.claim h w ht).mem = s.mem := rfl
@[simp] theorem State.claim_latch (s : State) (h : Handle) (w ht : Nat) : (s.claim h w ht).latch = s.latch := rfl
@[simp] theorem State.claim_params (s : State) (h : Handle) (w ht : Nat) : (s.claim h w ht).params = s.params := rfl
@[simp] theorem State.claim_resets (s : State) (h : Handle) (w ht : Nat) : (s.claim h w ht).resets = s.resets := rfl
@[simp] theorem State.claim_inputs (s : State) (h : Handle) (w ht : Nat) : (s.claim h w ht).inputs = s.inputs := rfl
@[simp] theorem State.claim_reply (s : State) (h : Handle) (w ht : Nat) : (s.claim h w ht).reply = s.reply := rfl

/-! ### `State.popInput` -/

@[simp] theorem State.popInput_status (s : State) : (s.popInput).status = s.status := rfl
@[simp] theorem State.popInput_ie (s : State) : (s.popInput).ie = s.ie := rfl
@[simp] theorem State.popInput_cmd (s : State) : (s.popInput).cmd = s.cmd := rfl
@[simp] theorem State.popInput_args (s : State) : (s.popInput).args = s.args := rfl
@[simp] theorem State.popInput_text (s : State) : (s.popInput).text = s.text := rfl
@[simp] theorem State.popInput_palCount (s : State) : (s.popInput).palCount = s.palCount := rfl
@[simp] theorem State.popInput_allocPtr (s : State) : (s.popInput).allocPtr = s.allocPtr := rfl
@[simp] theorem State.popInput_palRam (s : State) : (s.popInput).palRam = s.palRam := rfl
@[simp] theorem State.popInput_ctRam (s : State) : (s.popInput).ctRam = s.ctRam := rfl
@[simp] theorem State.popInput_descTable (s : State) : (s.popInput).descTable = s.descTable := rfl
@[simp] theorem State.popInput_mem (s : State) : (s.popInput).mem = s.mem := rfl
@[simp] theorem State.popInput_latch (s : State) : (s.popInput).latch = s.latch := rfl
@[simp] theorem State.popInput_params (s : State) : (s.popInput).params = s.params := rfl
@[simp] theorem State.popInput_resets (s : State) : (s.popInput).resets = s.resets := rfl
@[simp] theorem State.popInput_inputs (s : State) : (s.popInput).inputs = s.inputs.tail := rfl
@[simp] theorem State.popInput_reply (s : State) : (s.popInput).reply = s.reply := rfl

/-! ### `State.respond` -/

@[simp] theorem State.respond_status (s : State) (r : Reply) : (s.respond r).status = s.status := rfl
@[simp] theorem State.respond_ie (s : State) (r : Reply) : (s.respond r).ie = s.ie := rfl
@[simp] theorem State.respond_cmd (s : State) (r : Reply) : (s.respond r).cmd = s.cmd := rfl
@[simp] theorem State.respond_args (s : State) (r : Reply) : (s.respond r).args = s.args := rfl
@[simp] theorem State.respond_text (s : State) (r : Reply) : (s.respond r).text = s.text := rfl
@[simp] theorem State.respond_palCount (s : State) (r : Reply) : (s.respond r).palCount = s.palCount := rfl
@[simp] theorem State.respond_allocPtr (s : State) (r : Reply) : (s.respond r).allocPtr = s.allocPtr := rfl
@[simp] theorem State.respond_palRam (s : State) (r : Reply) : (s.respond r).palRam = s.palRam := rfl
@[simp] theorem State.respond_ctRam (s : State) (r : Reply) : (s.respond r).ctRam = s.ctRam := rfl
@[simp] theorem State.respond_descTable (s : State) (r : Reply) : (s.respond r).descTable = s.descTable := rfl
@[simp] theorem State.respond_mem (s : State) (r : Reply) : (s.respond r).mem = s.mem := rfl
@[simp] theorem State.respond_latch (s : State) (r : Reply) : (s.respond r).latch = s.latch := rfl
@[simp] theorem State.respond_params (s : State) (r : Reply) : (s.respond r).params = s.params := rfl
@[simp] theorem State.respond_resets (s : State) (r : Reply) : (s.respond r).resets = s.resets := rfl
@[simp] theorem State.respond_inputs (s : State) (r : Reply) : (s.respond r).inputs = s.inputs := rfl
@[simp] theorem State.respond_reply (s : State) (r : Reply) : (s.respond r).reply = some r := rfl

/-! ### `State.accept` -/

@[simp] theorem State.accept_status (s : State) (w : Word) : (s.accept w).status = s.status.accept := rfl
@[simp] theorem State.accept_ie (s : State) (w : Word) : (s.accept w).ie = s.ie := rfl
@[simp] theorem State.accept_cmd (s : State) (w : Word) : (s.accept w).cmd = w := rfl
@[simp] theorem State.accept_args (s : State) (w : Word) : (s.accept w).args = s.args := rfl
@[simp] theorem State.accept_text (s : State) (w : Word) : (s.accept w).text = s.text := rfl
@[simp] theorem State.accept_palCount (s : State) (w : Word) : (s.accept w).palCount = s.palCount := rfl
@[simp] theorem State.accept_allocPtr (s : State) (w : Word) : (s.accept w).allocPtr = s.allocPtr := rfl
@[simp] theorem State.accept_palRam (s : State) (w : Word) : (s.accept w).palRam = s.palRam := rfl
@[simp] theorem State.accept_ctRam (s : State) (w : Word) : (s.accept w).ctRam = s.ctRam := rfl
@[simp] theorem State.accept_descTable (s : State) (w : Word) : (s.accept w).descTable = s.descTable := rfl
@[simp] theorem State.accept_mem (s : State) (w : Word) : (s.accept w).mem = s.mem := rfl
@[simp] theorem State.accept_params (s : State) (w : Word) : (s.accept w).params = s.params := rfl
@[simp] theorem State.accept_resets (s : State) (w : Word) : (s.accept w).resets = s.resets := rfl
@[simp] theorem State.accept_inputs (s : State) (w : Word) : (s.accept w).inputs = s.inputs := rfl
@[simp] theorem State.accept_reply (s : State) (w : Word) : (s.accept w).reply = s.reply := rfl

/-! ### Reads that an update does not touch -/

@[simp] theorem State.complete_desc (s : State) (c : ErrCode) (g : Handle) : (s.complete c).desc g = s.desc g := rfl
@[simp] theorem State.complete_slot (s : State) (c : ErrCode) (j : BitVec 8) : (s.complete c).slot j = s.slot j := rfl
@[simp] theorem State.complete_effPal (s : State) (c : ErrCode) (j : Nat) : (s.complete c).effPal j = s.effPal j := rfl
@[simp] theorem State.complete_readByte (s : State) (c : ErrCode) (b : Nat) : (s.complete c).readByte b = s.readByte b := rfl
@[simp] theorem State.complete_memRead (s : State) (c : ErrCode) (b : Nat) : (s.complete c).memRead b = s.memRead b := rfl
@[simp] theorem State.complete_larg (s : State) (c : ErrCode) (j : Fin 8) : (s.complete c).larg j = s.larg j := rfl
@[simp] theorem State.complete_ltext (s : State) (c : ErrCode) (j : Nat) : (s.complete c).ltext j = s.ltext j := rfl

@[simp] theorem State.completeSentinel_desc (s : State) (g : Handle) : (s.completeSentinel).desc g = s.desc g := rfl
@[simp] theorem State.completeSentinel_slot (s : State) (j : BitVec 8) : (s.completeSentinel).slot j = s.slot j := rfl
@[simp] theorem State.completeSentinel_effPal (s : State) (j : Nat) : (s.completeSentinel).effPal j = s.effPal j := rfl
@[simp] theorem State.completeSentinel_readByte (s : State) (b : Nat) : (s.completeSentinel).readByte b = s.readByte b := rfl
@[simp] theorem State.completeSentinel_memRead (s : State) (b : Nat) : (s.completeSentinel).memRead b = s.memRead b := rfl
@[simp] theorem State.completeSentinel_larg (s : State) (j : Fin 8) : (s.completeSentinel).larg j = s.larg j := rfl
@[simp] theorem State.completeSentinel_ltext (s : State) (j : Nat) : (s.completeSentinel).ltext j = s.ltext j := rfl

@[simp] theorem State.raiseFatal_desc (s : State) (c : ErrCode) (g : Handle) : (s.raiseFatal c).desc g = s.desc g := rfl
@[simp] theorem State.raiseFatal_slot (s : State) (c : ErrCode) (j : BitVec 8) : (s.raiseFatal c).slot j = s.slot j := rfl
@[simp] theorem State.raiseFatal_effPal (s : State) (c : ErrCode) (j : Nat) : (s.raiseFatal c).effPal j = s.effPal j := rfl
@[simp] theorem State.raiseFatal_readByte (s : State) (c : ErrCode) (b : Nat) : (s.raiseFatal c).readByte b = s.readByte b := rfl
@[simp] theorem State.raiseFatal_memRead (s : State) (c : ErrCode) (b : Nat) : (s.raiseFatal c).memRead b = s.memRead b := rfl
@[simp] theorem State.raiseFatal_larg (s : State) (c : ErrCode) (j : Fin 8) : (s.raiseFatal c).larg j = s.larg j := rfl
@[simp] theorem State.raiseFatal_ltext (s : State) (c : ErrCode) (j : Nat) : (s.raiseFatal c).ltext j = s.ltext j := rfl

@[simp] theorem State.memWrite_desc (s : State) (a : Nat) (v : Word) (g : Handle) : (s.memWrite a v).desc g = s.desc g := rfl
@[simp] theorem State.memWrite_slot (s : State) (a : Nat) (v : Word) (j : BitVec 8) : (s.memWrite a v).slot j = s.slot j := rfl
@[simp] theorem State.memWrite_effPal (s : State) (a : Nat) (v : Word) (j : Nat) : (s.memWrite a v).effPal j = s.effPal j := rfl
@[simp] theorem State.memWrite_larg (s : State) (a : Nat) (v : Word) (j : Fin 8) : (s.memWrite a v).larg j = s.larg j := rfl
@[simp] theorem State.memWrite_ltext (s : State) (a : Nat) (v : Word) (j : Nat) : (s.memWrite a v).ltext j = s.ltext j := rfl

@[simp] theorem State.setDesc_slot (s : State) (h : Handle) (d : Desc) (j : BitVec 8) : (s.setDesc h d).slot j = s.slot j := rfl
@[simp] theorem State.setDesc_effPal (s : State) (h : Handle) (d : Desc) (j : Nat) : (s.setDesc h d).effPal j = s.effPal j := rfl
@[simp] theorem State.setDesc_readByte (s : State) (h : Handle) (d : Desc) (b : Nat) : (s.setDesc h d).readByte b = s.readByte b := rfl
@[simp] theorem State.setDesc_memRead (s : State) (h : Handle) (d : Desc) (b : Nat) : (s.setDesc h d).memRead b = s.memRead b := rfl
@[simp] theorem State.setDesc_larg (s : State) (h : Handle) (d : Desc) (j : Fin 8) : (s.setDesc h d).larg j = s.larg j := rfl
@[simp] theorem State.setDesc_ltext (s : State) (h : Handle) (d : Desc) (j : Nat) : (s.setDesc h d).ltext j = s.ltext j := rfl

@[simp] theorem State.setSlot_desc (s : State) (k : BitVec 8) (v : Word) (g : Handle) : (s.setSlot k v).desc g = s.desc g := rfl
@[simp] theorem State.setSlot_effPal (s : State) (k : BitVec 8) (v : Word) (j : Nat) : (s.setSlot k v).effPal j = s.effPal j := rfl
@[simp] theorem State.setSlot_readByte (s : State) (k : BitVec 8) (v : Word) (b : Nat) : (s.setSlot k v).readByte b = s.readByte b := rfl
@[simp] theorem State.setSlot_memRead (s : State) (k : BitVec 8) (v : Word) (b : Nat) : (s.setSlot k v).memRead b = s.memRead b := rfl
@[simp] theorem State.setSlot_larg (s : State) (k : BitVec 8) (v : Word) (j : Fin 8) : (s.setSlot k v).larg j = s.larg j := rfl
@[simp] theorem State.setSlot_ltext (s : State) (k : BitVec 8) (v : Word) (j : Nat) : (s.setSlot k v).ltext j = s.ltext j := rfl

@[simp] theorem State.appendPal_desc (s : State) (e : Word) (g : Handle) : (s.appendPal e).desc g = s.desc g := rfl
@[simp] theorem State.appendPal_slot (s : State) (e : Word) (j : BitVec 8) : (s.appendPal e).slot j = s.slot j := rfl
@[simp] theorem State.appendPal_readByte (s : State) (e : Word) (b : Nat) : (s.appendPal e).readByte b = s.readByte b := rfl
@[simp] theorem State.appendPal_memRead (s : State) (e : Word) (b : Nat) : (s.appendPal e).memRead b = s.memRead b := rfl
@[simp] theorem State.appendPal_larg (s : State) (e : Word) (j : Fin 8) : (s.appendPal e).larg j = s.larg j := rfl
@[simp] theorem State.appendPal_ltext (s : State) (e : Word) (j : Nat) : (s.appendPal e).ltext j = s.ltext j := rfl

@[simp] theorem State.setPixels_desc (s : State) (h : Handle) (ws : List (Int × Int × Word)) (g : Handle) : (s.setPixels h ws).desc g = s.desc g := rfl
@[simp] theorem State.setPixels_slot (s : State) (h : Handle) (ws : List (Int × Int × Word)) (j : BitVec 8) : (s.setPixels h ws).slot j = s.slot j := rfl
@[simp] theorem State.setPixels_effPal (s : State) (h : Handle) (ws : List (Int × Int × Word)) (j : Nat) : (s.setPixels h ws).effPal j = s.effPal j := rfl
@[simp] theorem State.setPixels_larg (s : State) (h : Handle) (ws : List (Int × Int × Word)) (j : Fin 8) : (s.setPixels h ws).larg j = s.larg j := rfl
@[simp] theorem State.setPixels_ltext (s : State) (h : Handle) (ws : List (Int × Int × Word)) (j : Nat) : (s.setPixels h ws).ltext j = s.ltext j := rfl

@[simp] theorem State.claim_slot (s : State) (h : Handle) (w ht : Nat) (j : BitVec 8) : (s.claim h w ht).slot j = s.slot j := rfl
@[simp] theorem State.claim_effPal (s : State) (h : Handle) (w ht : Nat) (j : Nat) : (s.claim h w ht).effPal j = s.effPal j := rfl
@[simp] theorem State.claim_readByte (s : State) (h : Handle) (w ht : Nat) (b : Nat) : (s.claim h w ht).readByte b = s.readByte b := rfl
@[simp] theorem State.claim_memRead (s : State) (h : Handle) (w ht : Nat) (b : Nat) : (s.claim h w ht).memRead b = s.memRead b := rfl
@[simp] theorem State.claim_larg (s : State) (h : Handle) (w ht : Nat) (j : Fin 8) : (s.claim h w ht).larg j = s.larg j := rfl
@[simp] theorem State.claim_ltext (s : State) (h : Handle) (w ht : Nat) (j : Nat) : (s.claim h w ht).ltext j = s.ltext j := rfl

@[simp] theorem State.popInput_desc (s : State) (g : Handle) : (s.popInput).desc g = s.desc g := rfl
@[simp] theorem State.popInput_slot (s : State) (j : BitVec 8) : (s.popInput).slot j = s.slot j := rfl
@[simp] theorem State.popInput_effPal (s : State) (j : Nat) : (s.popInput).effPal j = s.effPal j := rfl
@[simp] theorem State.popInput_readByte (s : State) (b : Nat) : (s.popInput).readByte b = s.readByte b := rfl
@[simp] theorem State.popInput_memRead (s : State) (b : Nat) : (s.popInput).memRead b = s.memRead b := rfl
@[simp] theorem State.popInput_larg (s : State) (j : Fin 8) : (s.popInput).larg j = s.larg j := rfl
@[simp] theorem State.popInput_ltext (s : State) (j : Nat) : (s.popInput).ltext j = s.ltext j := rfl

@[simp] theorem State.respond_desc (s : State) (r : Reply) (g : Handle) : (s.respond r).desc g = s.desc g := rfl
@[simp] theorem State.respond_slot (s : State) (r : Reply) (j : BitVec 8) : (s.respond r).slot j = s.slot j := rfl
@[simp] theorem State.respond_effPal (s : State) (r : Reply) (j : Nat) : (s.respond r).effPal j = s.effPal j := rfl
@[simp] theorem State.respond_readByte (s : State) (r : Reply) (b : Nat) : (s.respond r).readByte b = s.readByte b := rfl
@[simp] theorem State.respond_memRead (s : State) (r : Reply) (b : Nat) : (s.respond r).memRead b = s.memRead b := rfl
@[simp] theorem State.respond_larg (s : State) (r : Reply) (j : Fin 8) : (s.respond r).larg j = s.larg j := rfl
@[simp] theorem State.respond_ltext (s : State) (r : Reply) (j : Nat) : (s.respond r).ltext j = s.ltext j := rfl

@[simp] theorem State.accept_desc (s : State) (w : Word) (g : Handle) : (s.accept w).desc g = s.desc g := rfl
@[simp] theorem State.accept_slot (s : State) (w : Word) (j : BitVec 8) : (s.accept w).slot j = s.slot j := rfl
@[simp] theorem State.accept_effPal (s : State) (w : Word) (j : Nat) : (s.accept w).effPal j = s.effPal j := rfl
@[simp] theorem State.accept_readByte (s : State) (w : Word) (b : Nat) : (s.accept w).readByte b = s.readByte b := rfl
@[simp] theorem State.accept_memRead (s : State) (w : Word) (b : Nat) : (s.accept w).memRead b = s.memRead b := rfl

end Sys2Proof.Machine
end

