-- ==== Sys2Proof/Laws/Memory.lean ====
section
/-! SUPPORT. Pixel memory: what a read gives after a write, byte by byte and word by word, and that every
write keeps the canonical form. -/

namespace Sys2Proof.Machine

theorem Memory.read?_write (m : Memory) (a b : Nat) (v : Byte) :
    (m.write a v).read? b = if b = a then some v else m.read? b := by
  induction m with
  | nil => simp [Memory.write, Memory.read?, eq_comm]
  | cons c m ih =>
    obtain ⟨k, w⟩ := c
    simp only [Memory.write]
    split
    · simp [Memory.read?, eq_comm]
    · split
      · subst_vars; by_cases h : b = k <;> simp [Memory.read?, h, eq_comm (a := k)]
      · simp only [Memory.read?, ih]; split <;> split <;> simp_all

theorem Memory.mem_write {m : Memory} {a : Nat} {v : Byte} {c : Host.Cell} (h : c ∈ m.write a v) :
    c = (a, v) ∨ c ∈ m := by
  induction m with
  | nil => simpa [Memory.write] using h
  | cons d m ih =>
    simp only [Memory.write] at h
    split at h
    · simpa using h
    · split at h
      · rcases List.mem_cons.1 h with h | h
        · exact .inl h
        · exact .inr (List.mem_cons_of_mem _ h)
      · rcases List.mem_cons.1 h with h | h
        · exact .inr (h ▸ List.mem_cons_self)
        · exact (ih h).imp_right (List.mem_cons_of_mem _)

theorem Memory.wf_write {m : Memory} (h : m.wf) (a : Nat) (v : Byte) : (m.write a v).wf := by
  induction m with
  | nil => simp [Memory.write, Memory.wf]
  | cons d m ih =>
    obtain ⟨k, w⟩ := d
    obtain ⟨hd, hm⟩ := List.pairwise_cons.1 h
    simp only [Memory.write]
    split
    · rename_i hlt
      refine List.pairwise_cons.2 ⟨fun c hc => ?_, h⟩
      rcases List.mem_cons.1 hc with rfl | hc
      · exact hlt
      · exact lt_trans hlt (hd c hc)
    · split
      · subst_vars; exact List.pairwise_cons.2 ⟨hd, hm⟩
      · rename_i h1 h2
        refine List.pairwise_cons.2 ⟨fun c hc => ?_, ih hm⟩
        rcases Memory.mem_write hc with rfl | hc
        · exact lt_of_le_of_ne (not_lt.1 h1) (Ne.symm h2)
        · exact hd c hc

/-- The four bytes of a written word (R60), and every other byte as before. -/
theorem Memory.read?_writeWord (m : Memory) (a b : Nat) (v : Word) :
    (m.writeWord a v).read? b =
      if b = 4 * a then some (v.extractLsb' 24 8)
      else if b = 4 * a + 1 then some (v.extractLsb' 16 8)
      else if b = 4 * a + 2 then some (v.extractLsb' 8 8)
      else if b = 4 * a + 3 then some (v.extractLsb' 0 8)
      else m.read? b := by
  simp only [Memory.writeWord, Memory.read?_write]
  split_ifs <;> first | rfl | omega

theorem Memory.read?_writeWord_of_ne {m : Memory} {a b : Nat} {v : Word} (h : b / 4 ≠ a) :
    (m.writeWord a v).read? b = m.read? b := by
  rw [Memory.read?_writeWord]
  split_ifs <;> first | rfl | omega

theorem Memory.wf_writeWord {m : Memory} (h : m.wf) (a : Nat) (v : Word) : (m.writeWord a v).wf :=
  Memory.wf_write (Memory.wf_write (Memory.wf_write (Memory.wf_write h _ _) _ _) _ _) _ _

theorem Memory.mem_writeWord {m : Memory} {a : Nat} {v : Word} {c : Host.Cell} (h : c ∈ m.writeWord a v) :
    c.1 / 4 = a ∨ c ∈ m := by
  refine or_iff_not_imp_left.2 fun ha => ?_
  have older (k : Nat) (hk : k / 4 = a) {m' : Memory} {b : Byte} (hc : c ∈ m'.write k b) : c ∈ m' :=
    (Memory.mem_write hc).resolve_left fun e => ha (by rw [e]; exact hk)
  exact older _ (by omega) (older _ (by omega) (older _ (by omega) (older _ (by omega) h)))

/-- A written byte stays written. -/
theorem Memory.isSome_writeWord {m : Memory} {a b : Nat} {v : Word}
    (h : b / 4 = a ∨ (m.read? b).isSome = true) : ((m.writeWord a v).read? b).isSome = true := by
  rw [Memory.read?_writeWord]
  split_ifs <;> first | rfl | (rcases h with h | h <;> first | exact h | omega)

theorem word_of_bytes (v : Word) :
    v.extractLsb' 24 8 ++ v.extractLsb' 16 8 ++ v.extractLsb' 8 8 ++ v.extractLsb' 0 8 = v := by
  rw [BitVec.extractLsb'_append_extractLsb'_eq_extractLsb' (by decide),
    BitVec.extractLsb'_append_extractLsb'_eq_extractLsb' (by decide),
    BitVec.extractLsb'_append_extractLsb'_eq_extractLsb' (by decide)]
  exact BitVec.extractLsb'_eq_self

/-- The word at index `a` of a memory, its unwritten bytes taken from the `n`-th reset's free content. -/
def Memory.word (m : Memory) (n a : Nat) : Word :=
  (m.read? (4 * a)).getD (Config.resetByte n (4 * a)) ++ (m.read? (4 * a + 1)).getD (Config.resetByte n (4 * a + 1))
    ++ (m.read? (4 * a + 2)).getD (Config.resetByte n (4 * a + 2))
    ++ (m.read? (4 * a + 3)).getD (Config.resetByte n (4 * a + 3))

theorem State.memRead_eq (s : State) (a : Nat) : s.memRead a = s.mem.word s.resets a := rfl

theorem Memory.word_writeWord (m : Memory) (n a b : Nat) (v : Word) :
    (m.writeWord a v).word n b = if b = a then v else m.word n b := by
  unfold Memory.word
  simp only [Memory.read?_writeWord]
  by_cases h : b = a
  · subst h
    simp only [if_true]
    have e1 : ¬ (4 * b + 1 = 4 * b) := by omega
    have e2 : ¬ (4 * b + 2 = 4 * b) := by omega
    have e3 : ¬ (4 * b + 3 = 4 * b) := by omega
    have e4 : ¬ (4 * b + 2 = 4 * b + 1) := by omega
    have e5 : ¬ (4 * b + 3 = 4 * b + 1) := by omega
    have e6 : ¬ (4 * b + 3 = 4 * b + 2) := by omega
    simp only [e1, e2, e3, e4, e5, e6, if_false, Option.getD_some]
    exact word_of_bytes v
  · simp only [h, if_false]
    have e (i j : Nat) (hi : i < 4) (hj : j < 4) : ¬ (4 * b + i = 4 * a + j) := by omega
    have e0 (j : Nat) (hj : j < 4) : ¬ (4 * b = 4 * a + j) := by omega
    have e1 (i : Nat) (hi : i < 4) : ¬ (4 * b + i = 4 * a) := by omega
    have e2 : ¬ (4 * b = 4 * a) := by omega
    simp [e, e0, e1, h]

/-- `MemRead` after `MemWrite` (R68). -/
theorem State.memRead_memWrite (s : State) (a b : Nat) (v : Word) :
    (s.memWrite a v).memRead b = if b = a then v else s.memRead b := by
  simp only [State.memRead_eq, State.memWrite_mem, State.memWrite_resets, Memory.word_writeWord]

end Sys2Proof.Machine
end

