-- ==== Sys2Proof/Laws/Pixels.lean ====
section
/-! SUPPORT. The pixels of a surface: where they lie, and what a command's pixel writes do to them and to
every other byte of memory. -/

namespace Sys2Proof.Machine

/-! ### Geometry -/

theorem State.inB_iff (s : State) (h : Handle) (x y : Int) :
    s.inB h x y = true ↔ 0 ≤ x ∧ x < s.width h ∧ 0 ≤ y ∧ y < s.height h := by
  simp [State.inB]

theorem State.inB_nat (s : State) (h : Handle) (x y : Nat) :
    s.inB h x y = true ↔ x < s.width h ∧ y < s.height h := by
  simp [State.inB]

theorem State.pxAddr_inj {s : State} {h : Handle} {x y x' y' : Nat} (hx : x < s.width h) (hx' : x' < s.width h)
    (e : s.pxAddr h x y = s.pxAddr h x' y') : x = x' ∧ y = y' := by
  simp only [State.pxAddr] at e
  have e' : y * s.width h + x = y' * s.width h + x' := by omega
  have hy : y = y' := by
    have h1 : (y * s.width h + x) / s.width h = y := by
      rw [mul_comm, Nat.mul_add_div (by omega), Nat.div_eq_of_lt hx, add_zero]
    have h2 : (y' * s.width h + x') / s.width h = y' := by
      rw [mul_comm, Nat.mul_add_div (by omega), Nat.div_eq_of_lt hx', add_zero]
    rw [← h1, ← h2, e']
  subst hy
  exact ⟨by omega, rfl⟩

theorem State.pxAddr_bounds {s : State} {h : Handle} {x y : Nat} (hx : x < s.width h) (hy : y < s.height h) :
    (s.desc h).base.toNat ≤ s.pxAddr h x y ∧
      s.pxAddr h x y < (s.desc h).base.toNat + s.width h * s.height h := by
  simp only [State.pxAddr]
  have : y * s.width h + s.width h ≤ s.width h * s.height h := by
    rw [← Nat.succ_mul, mul_comm]; exact Nat.mul_le_mul_left _ hy
  omega

/-- Every word of a surface is one of its pixels. -/
theorem State.exists_pxAddr {s : State} {h : Handle} {a : Nat} (h1 : (s.desc h).base.toNat ≤ a)
    (h2 : a < (s.desc h).base.toNat + s.width h * s.height h) :
    ∃ x y, x < s.width h ∧ y < s.height h ∧ s.pxAddr h x y = a := by
  have hw : 0 < s.width h := by
    rcases Nat.eq_zero_or_pos (s.width h) with e | e
    · rw [e] at h2; omega
    · exact e
  refine ⟨(a - (s.desc h).base.toNat) % s.width h, (a - (s.desc h).base.toNat) / s.width h,
    Nat.mod_lt _ hw, Nat.div_lt_of_lt_mul (by omega), ?_⟩
  simp only [State.pxAddr]
  have := Nat.div_add_mod' (a - (s.desc h).base.toNat) (s.width h)
  omega

theorem mem_points {w h x y : Nat} : (x, y) ∈ points w h ↔ x < w ∧ y < h := by
  simp [points, and_comm]

/-! ### The writes of a command, in order -/

theorem State.read?_foldl_writePixel {s : State} {h : Handle} {b : Nat} (ws : List (Int × Int × Word)) (m : Memory)
    (hb : ∀ p ∈ ws, s.inB h p.1 p.2.1 = true → b / 4 ≠ s.pxAddr h p.1.toNat p.2.1.toNat) :
    (ws.foldl (s.writePixel h) m).read? b = m.read? b := by
  induction ws generalizing m with
  | nil => rfl
  | cons p ws ih =>
    rw [List.foldl_cons, ih _ fun q hq => hb q (List.mem_cons_of_mem _ hq)]
    unfold State.writePixel
    split
    · exact Memory.read?_writeWord_of_ne (hb p List.mem_cons_self ‹_›)
    · rfl

theorem State.wf_foldl_writePixel {s : State} {h : Handle} (ws : List (Int × Int × Word)) {m : Memory}
    (hm : m.wf) : (ws.foldl (s.writePixel h) m).wf := by
  induction ws generalizing m with
  | nil => exact hm
  | cons p ws ih =>
    refine ih ?_
    unfold State.writePixel
    split
    · exact Memory.wf_writeWord hm _ _
    · exact hm

theorem State.mem_foldl_writePixel {s : State} {h : Handle} (ws : List (Int × Int × Word)) {m : Memory}
    {c : Host.Cell} (hc : c ∈ ws.foldl (s.writePixel h) m) :
    (∃ p ∈ ws, s.inB h p.1 p.2.1 = true ∧ c.1 / 4 = s.pxAddr h p.1.toNat p.2.1.toNat) ∨ c ∈ m := by
  induction ws generalizing m with
  | nil => exact .inr hc
  | cons p ws ih =>
    rcases ih hc with ⟨q, hq, h1, h2⟩ | hc
    · exact .inl ⟨q, List.mem_cons_of_mem _ hq, h1, h2⟩
    · unfold State.writePixel at hc
      split at hc
      · rcases Memory.mem_writeWord hc with h1 | h1
        · exact .inl ⟨p, List.mem_cons_self, ‹_›, h1⟩
        · exact .inr h1
      · exact .inr hc

theorem State.isSome_foldl_writePixel {s : State} {h : Handle} {b : Nat} (ws : List (Int × Int × Word)) {m : Memory}
    (hb : (m.read? b).isSome = true ∨
      ∃ p ∈ ws, s.inB h p.1 p.2.1 = true ∧ b / 4 = s.pxAddr h p.1.toNat p.2.1.toNat) :
    ((ws.foldl (s.writePixel h) m).read? b).isSome = true := by
  induction ws generalizing m with
  | nil => simpa using hb
  | cons p ws ih =>
    refine ih ?_
    unfold State.writePixel
    rcases hb with hb | ⟨q, hq, h1, h2⟩
    · left
      split
      · exact Memory.isSome_writeWord (.inr hb)
      · exact hb
    · rcases List.mem_cons.1 hq with rfl | hq
      · left
        rw [if_pos h1]
        exact Memory.isSome_writeWord (.inl h2)
      · exact .inr ⟨q, hq, h1, h2⟩

/-- A pixel that some write names, with one value only, holds that value; see `px_setPixels_of_notMem` for the
others. -/
theorem State.word_foldl_writePixel {s : State} {h : Handle} {x y : Nat} {v : Word} (hx : x < s.width h)
    (hy : y < s.height h) (ws : List (Int × Int × Word)) (m : Memory) (n : Nat)
    (hv : ∀ p ∈ ws, p.1 = x → p.2.1 = y → p.2.2 = v)
    (he : m.word n (s.pxAddr h x y) = v ∨ ((x : Int), (y : Int), v) ∈ ws) :
    (ws.foldl (s.writePixel h) m).word n (s.pxAddr h x y) = v := by
  induction ws generalizing m with
  | nil => simpa using he
  | cons p ws ih =>
    refine ih _ (fun q hq => hv q (List.mem_cons_of_mem _ hq)) ?_
    by_cases hp : p.1 = x ∧ p.2.1 = y
    · left
      have : s.inB h p.1 p.2.1 = true := by rw [hp.1, hp.2]; exact (s.inB_nat h x y).2 ⟨hx, hy⟩
      unfold State.writePixel
      rw [if_pos this, Memory.word_writeWord, hp.1, hp.2, if_pos (by simp)]
      exact hv p List.mem_cons_self hp.1 hp.2
    · rcases he with he | he
      · left
        unfold State.writePixel
        split
        · rename_i hin
          rw [Memory.word_writeWord, if_neg, he]
          intro e
          obtain ⟨h1, h2, h3, h4⟩ := (s.inB_iff h p.1 p.2.1).1 hin
          obtain ⟨e1, e2⟩ := State.pxAddr_inj hx (by omega) e
          exact hp ⟨by omega, by omega⟩
        · exact he
      · right
        rcases List.mem_cons.1 he with rfl | he
        · exact absurd ⟨rfl, rfl⟩ hp
        · exact he

/-! ### `State.setPixels` -/

/-- A pixel written with one value holds it. -/
theorem State.px_setPixels_of_mem {s : State} {h : Handle} {x y : Nat} {v : Word} {ws : List (Int × Int × Word)}
    (hx : x < s.width h) (hy : y < s.height h) (hm : ((x : Int), (y : Int), v) ∈ ws)
    (hv : ∀ p ∈ ws, p.1 = x → p.2.1 = y → p.2.2 = v) : (s.setPixels h ws).px h x y = v :=
  State.word_foldl_writePixel hx hy ws s.mem s.resets hv (.inr hm)

/-- A byte of no written pixel is unchanged. -/
theorem State.readByte_setPixels {s : State} {h : Handle} {b : Nat} {ws : List (Int × Int × Word)}
    (hb : ∀ p ∈ ws, s.inB h p.1 p.2.1 = true → b / 4 ≠ s.pxAddr h p.1.toNat p.2.1.toNat) :
    (s.setPixels h ws).readByte b = s.readByte b := by
  unfold State.readByte
  rw [State.setPixels_mem, State.read?_foldl_writePixel ws s.mem hb, State.setPixels_resets]

/-- A word of no written pixel is unchanged. -/
theorem State.memRead_setPixels {s : State} {h : Handle} {a : Nat} {ws : List (Int × Int × Word)}
    (ha : ∀ p ∈ ws, s.inB h p.1 p.2.1 = true → a ≠ s.pxAddr h p.1.toNat p.2.1.toNat) :
    (s.setPixels h ws).memRead a = s.memRead a := by
  have e (i : Nat) (hi : i < 4) : (s.setPixels h ws).readByte (4 * a + i) = s.readByte (4 * a + i) :=
    State.readByte_setPixels fun p hp hin => by
      have : (4 * a + i) / 4 = a := by omega
      rw [this]; exact ha p hp hin
  have e0 : (s.setPixels h ws).readByte (4 * a) = s.readByte (4 * a) := e 0 (by decide)
  simp only [State.memRead, e0, e 1 (by decide), e 2 (by decide), e 3 (by decide)]

/-- A pixel that no write names is unchanged. -/
theorem State.px_setPixels_of_notMem {s : State} {h : Handle} {x y : Nat} {ws : List (Int × Int × Word)}
    (hx : x < s.width h) (hv : ∀ p ∈ ws, ¬ (p.1 = x ∧ p.2.1 = y)) :
    (s.setPixels h ws).px h x y = s.px h x y := by
  refine State.memRead_setPixels fun p hp hin e => hv p hp ?_
  obtain ⟨h1, h2, h3, h4⟩ := (s.inB_iff h p.1 p.2.1).1 hin
  obtain ⟨e1, e2⟩ := State.pxAddr_inj hx (by omega) e
  exact ⟨by omega, by omega⟩

/-- Bytes outside the surface are unchanged. -/
theorem State.readByte_setPixels_outside {s : State} {h : Handle} {b : Nat} (ws : List (Int × Int × Word))
    (hb : b / 4 < (s.desc h).base.toNat ∨ (s.desc h).base.toNat + s.width h * s.height h ≤ b / 4) :
    (s.setPixels h ws).readByte b = s.readByte b := by
  refine State.readByte_setPixels fun p _ hin e => ?_
  obtain ⟨h1, h2, h3, h4⟩ := (s.inB_iff h p.1 p.2.1).1 hin
  have := State.pxAddr_bounds (s := s) (h := h) (x := p.1.toNat) (y := p.2.1.toNat) (by omega) (by omega)
  omega

/-- Words outside the surface are unchanged. -/
theorem State.memRead_setPixels_outside {s : State} {h : Handle} {a : Nat} (ws : List (Int × Int × Word))
    (ha : a < (s.desc h).base.toNat ∨ (s.desc h).base.toNat + s.width h * s.height h ≤ a) :
    (s.setPixels h ws).memRead a = s.memRead a := by
  refine State.memRead_setPixels fun p _ hin e => ?_
  obtain ⟨h1, h2, h3, h4⟩ := (s.inB_iff h p.1 p.2.1).1 hin
  have := State.pxAddr_bounds (s := s) (h := h) (x := p.1.toNat) (y := p.2.1.toNat) (by omega) (by omega)
  omega

/-! ### `State.paint` -/

/-- The writes of `paint`. -/
theorem mem_paintWrites {w ht : Nat} {f : Nat → Nat → Option Word} {p : Int × Int × Word} :
    (p ∈ (points w ht).filterMap fun q => (f q.1 q.2).map fun v => ((q.1 : Int), (q.2 : Int), v)) ↔
      ∃ x y v, x < w ∧ y < ht ∧ f x y = some v ∧ p = ((x : Int), (y : Int), v) := by
  simp only [List.mem_filterMap, Option.map_eq_some_iff, Prod.exists]
  constructor
  · rintro ⟨x, y, hq, v, hf, rfl⟩
    obtain ⟨hx, hy⟩ := mem_points.1 hq
    exact ⟨x, y, v, hx, hy, hf, rfl⟩
  · rintro ⟨x, y, v, hx, hy, hf, rfl⟩
    exact ⟨x, y, mem_points.2 ⟨hx, hy⟩, v, hf, rfl⟩

/-- Each pixel takes the value `f` gives it, and keeps its own where `f` gives none. -/
theorem State.px_paint {s : State} {h : Handle} {x y : Nat} (f : Nat → Nat → Option Word) (hx : x < s.width h)
    (hy : y < s.height h) : (s.paint h f).px h x y = (f x y).getD (s.px h x y) := by
  unfold State.paint
  cases hf : f x y with
  | none =>
    refine State.px_setPixels_of_notMem hx fun p hp => ?_
    obtain ⟨x', y', v, -, -, hf', rfl⟩ := mem_paintWrites.1 hp
    rintro ⟨e1, e2⟩
    obtain rfl : x' = x := by simpa using e1
    obtain rfl : y' = y := by simpa using e2
    rw [hf] at hf'; exact absurd hf' (by simp)
  | some v =>
    refine State.px_setPixels_of_mem hx hy (mem_paintWrites.2 ⟨x, y, v, hx, hy, hf, rfl⟩) fun p hp e1 e2 => ?_
    obtain ⟨x', y', v', -, -, hf', rfl⟩ := mem_paintWrites.1 hp
    obtain rfl : x' = x := by simpa using e1
    obtain rfl : y' = y := by simpa using e2
    rw [hf] at hf'; exact (Option.some.inj hf').symm

/-- A byte of no painted pixel is unchanged. -/
theorem State.readByte_paint {s : State} {h : Handle} {b : Nat} {f : Nat → Nat → Option Word}
    (hb : ∀ x y, x < s.width h → y < s.height h → (f x y).isSome = true → b / 4 ≠ s.pxAddr h x y) :
    (s.paint h f).readByte b = s.readByte b := by
  refine State.readByte_setPixels fun p hp _ => ?_
  obtain ⟨x, y, v, hx, hy, hf, rfl⟩ := mem_paintWrites.1 hp
  simpa using hb x y hx hy (by rw [hf]; rfl)

/-- Bytes outside the surface are unchanged. -/
theorem State.readByte_paint_outside {s : State} {h : Handle} {b : Nat} (f : Nat → Nat → Option Word)
    (hb : b / 4 < (s.desc h).base.toNat ∨ (s.desc h).base.toNat + s.width h * s.height h ≤ b / 4) :
    (s.paint h f).readByte b = s.readByte b :=
  State.readByte_setPixels_outside _ hb

/-- Words outside the surface are unchanged. -/
theorem State.memRead_paint_outside {s : State} {h : Handle} {a : Nat} (f : Nat → Nat → Option Word)
    (ha : a < (s.desc h).base.toNat ∨ (s.desc h).base.toNat + s.width h * s.height h ≤ a) :
    (s.paint h f).memRead a = s.memRead a :=
  State.memRead_setPixels_outside _ ha

/-- `paint` changes pixel memory and nothing else. -/
theorem State.paint_eq (s : State) (h : Handle) (f : Nat → Nat → Option Word) :
    s.paint h f = { s with mem := (s.paint h f).mem } := rfl

end Sys2Proof.Machine
end

