-- ==== Sys2Proof/Laws/Alloc.lean ====
section
/-! SUPPORT. Descriptors, slots, the palette and `Alloc`: what each update leaves where. -/

namespace Sys2Proof.Machine

theorem State.desc_setDesc (s : State) (h k : Handle) (d : Desc) :
    (s.setDesc h d).desc k = if k = h then d else s.desc k := by
  simp only [State.desc, State.setDesc, Vector.getElem_set]
  by_cases e : k = h
  · simp [e]
  · have : ¬ h.toNat = k.toNat := fun e' => e (BitVec.eq_of_toNat_eq e'.symm)
    simp [e, this]

@[simp] theorem State.desc_setDesc_self (s : State) (h : Handle) (d : Desc) : (s.setDesc h d).desc h = d := by
  simp [State.desc_setDesc]

theorem State.desc_setDesc_of_ne {s : State} {h k : Handle} {d : Desc} (e : k ≠ h) :
    (s.setDesc h d).desc k = s.desc k := by simp [State.desc_setDesc, e]

theorem State.slot_setSlot (s : State) (k j : BitVec 8) (v : Word) :
    (s.setSlot k v).slot j = if j = k then v else s.slot j := by
  simp only [State.slot, State.setSlot, Vector.getElem_set]
  by_cases e : j = k
  · simp [e]
  · have : ¬ k.toNat = j.toNat := fun e' => e (BitVec.eq_of_toNat_eq e'.symm)
    simp [e, this]

/-- A state whose descriptors agree has the same geometry. -/
theorem State.width_congr {s t : State} {h : Handle} (e : t.desc h = s.desc h) : t.width h = s.width h := by
  simp [State.width, e]

theorem State.height_congr {s t : State} {h : Handle} (e : t.desc h = s.desc h) : t.height h = s.height h := by
  simp [State.height, e]

theorem State.pxAddr_congr {s t : State} {h : Handle} (e : t.desc h = s.desc h) (x y : Nat) :
    t.pxAddr h x y = s.pxAddr h x y := by
  simp [State.pxAddr, State.width, e]

theorem State.inB_congr {s t : State} {h : Handle} (e : t.desc h = s.desc h) (x y : Int) :
    t.inB h x y = s.inB h x y := by
  rw [Bool.eq_iff_iff, State.inB_iff, State.inB_iff, State.width_congr e, State.height_congr e]

theorem State.surfaceExists_iff (s : State) (h : Handle) :
    s.surfaceExists h = true ↔ (s.desc h).base.toNat + s.width h * s.height h ≤ s.params.pixWords.val := by
  simp [State.surfaceExists]

theorem State.surfaceExists_congr {s t : State} {h : Handle} (e : t.desc h = s.desc h) (p : t.params = s.params) :
    t.surfaceExists h = s.surfaceExists h := by
  rw [Bool.eq_iff_iff, State.surfaceExists_iff, State.surfaceExists_iff, State.width_congr e, State.height_congr e,
    e, p]

/-! ### What a state that differs only in its allocation shares -/

theorem State.sameButAllocation_ie {s t : State} (h : s.sameButAllocation t) : t.ie = s.ie := by rw [h]

theorem State.sameButAllocation_cmd {s t : State} (h : s.sameButAllocation t) : t.cmd = s.cmd := by rw [h]

theorem State.sameButAllocation_args {s t : State} (h : s.sameButAllocation t) : t.args = s.args := by rw [h]

theorem State.sameButAllocation_text {s t : State} (h : s.sameButAllocation t) : t.text = s.text := by rw [h]

theorem State.sameButAllocation_palCount {s t : State} (h : s.sameButAllocation t) : t.palCount = s.palCount := by rw [h]

theorem State.sameButAllocation_palRam {s t : State} (h : s.sameButAllocation t) : t.palRam = s.palRam := by rw [h]

theorem State.sameButAllocation_ctRam {s t : State} (h : s.sameButAllocation t) : t.ctRam = s.ctRam := by rw [h]

theorem State.sameButAllocation_latch {s t : State} (h : s.sameButAllocation t) : t.latch = s.latch := by rw [h]

theorem State.sameButAllocation_params {s t : State} (h : s.sameButAllocation t) : t.params = s.params := by rw [h]

theorem State.sameButAllocation_resets {s t : State} (h : s.sameButAllocation t) : t.resets = s.resets := by rw [h]

theorem State.sameButAllocation_inputs {s t : State} (h : s.sameButAllocation t) : t.inputs = s.inputs := by rw [h]

theorem State.sameButAllocation_reply {s t : State} (h : s.sameButAllocation t) : t.reply = s.reply := by rw [h]

theorem State.sameButAllocation_slot {s t : State} (h : s.sameButAllocation t) (k : BitVec 8) : t.slot k = s.slot k := by rw [h]; rfl

theorem State.sameButAllocation_effPal {s t : State} (h : s.sameButAllocation t) (i : Nat) : t.effPal i = s.effPal i := by rw [h]; rfl

theorem State.sameButAllocation_larg {s t : State} (h : s.sameButAllocation t) (k : Fin 8) : t.larg k = s.larg k := by rw [h]; rfl

theorem State.sameButAllocation_ltext {s t : State} (h : s.sameButAllocation t) (k : Nat) : t.ltext k = s.ltext k := by rw [h]; rfl

theorem State.sameButAllocation_dst {s t : State} (h : s.sameButAllocation t) : t.dst = s.dst := by rw [h]; rfl

theorem State.sameButAllocation_src {s t : State} (h : s.sameButAllocation t) : t.src = s.src := by rw [h]; rfl

theorem State.sameButAllocation_ctBase {s t : State} (h : s.sameButAllocation t) : t.ctBase = s.ctBase := by rw [h]; rfl

theorem State.sameButAllocation_ctCount {s t : State} (h : s.sameButAllocation t) : t.ctCount = s.ctCount := by rw [h]; rfl

theorem State.sameButAllocation_color {s t : State} (h : s.sameButAllocation t) : t.color = s.color := by rw [h]; rfl

theorem State.sameButAllocation_q {s t : State} (h : s.sameButAllocation t) (k : Fin 8) : t.q k = s.q k := by rw [h]; rfl

theorem State.sameButAllocation_setPixels {s t : State} (e : s.sameButAllocation t) (h : Handle)
    (ws : List (Int × Int × Word)) : s.sameButAllocation (t.setPixels h ws) := by
  rcases t with ⟨⟩; injection e; subst_vars; rfl

theorem State.sameButAllocation_complete {s t : State} (e : s.sameButAllocation t) (c : ErrCode) :
    s.sameButAllocation (t.complete c) := by
  rcases t with ⟨⟩; injection e; subst_vars; rfl

/-! ### `Alloc` -/

/-- The descriptor that a claim writes. -/
def Desc.fresh (w ht : Nat) (base : BitVec 21) : Desc :=
  { valid := true, ro := false, w := BitVec.ofNat 12 w, h := BitVec.ofNat 12 ht, base := base }

theorem State.desc_claim (s : State) (h k : Handle) (w ht : Nat) :
    (s.claim h w ht).desc k = if k = h then Desc.fresh w ht s.allocPtr else s.desc k :=
  s.desc_setDesc h k _

/-- Everything a successful `Alloc` does (R104): its checks held; the descriptor of `h` is the new one and the
others stand; ALLOC_PTR advances by the surface's size; the surface's pixels are 0; every byte outside the
surface is unchanged; only memory, the descriptors and ALLOC_PTR change. -/
structure State.Allocated (s t : State) (h : Handle) (w ht : Int) : Prop where
  wasFree : (s.desc h).valid = false
  wNonneg : 0 ≤ w
  wMax : w ≤ 4095
  hNonneg : 0 ≤ ht
  hMax : ht ≤ 4095
  fits : s.allocPtr.toNat + w.toNat * ht.toNat ≤ s.params.pixWords.val
  descNew : t.desc h = Desc.fresh w.toNat ht.toNat s.allocPtr
  descOther : ∀ k, k ≠ h → t.desc k = s.desc k
  width : t.width h = w.toNat
  height : t.height h = ht.toNat
  allocPtr : t.allocPtr.toNat = s.allocPtr.toNat + w.toNat * ht.toNat
  cleared : ∀ x y, x < w.toNat → y < ht.toNat → t.px h x y = 0
  outside : ∀ b, b / 4 < s.allocPtr.toNat ∨ s.allocPtr.toNat + w.toNat * ht.toNat ≤ b / 4 →
    t.readByte b = s.readByte b
  memory : t.mem = ((s.claim h w.toNat ht.toNat).paint h fun _ _ => some 0).mem
  status : t.status = s.status
  others : s.sameButAllocation t

theorem State.alloc_ok {s t : State} {h : Handle} {w ht : Int} (e : s.alloc h w ht = .ok t) :
    s.Allocated t h w ht := by
  unfold State.alloc at e
  split at e
  · simp at e
  rename_i hv
  split at e
  · simp at e
  rename_i hd
  split at e
  · simp at e
  rename_i hf
  simp only [Config.maxDim] at hd
  have hw : 0 ≤ w ∧ w ≤ 4095 ∧ 0 ≤ ht ∧ ht ≤ 4095 := by push Not at hd; omega
  obtain ⟨w0, w1, h0, h1⟩ := hw
  have hp := s.params.pixWords.isLt
  obtain rfl := (Except.ok.inj e).symm
  have ew : (s.claim h w.toNat ht.toNat).width h = w.toNat := by
    simp [State.width, State.desc_claim, Desc.fresh]; omega
  have eh : (s.claim h w.toNat ht.toNat).height h = ht.toNat := by
    simp [State.height, State.desc_claim, Desc.fresh]; omega
  have eb : ((s.claim h w.toNat ht.toNat).desc h).base.toNat = s.allocPtr.toNat := by
    simp [State.desc_claim, Desc.fresh]
  exact
    { wasFree := by simpa using hv
      wNonneg := w0, wMax := w1, hNonneg := h0, hMax := h1
      fits := by omega
      descNew := (s.desc_claim h h _ _).trans (if_pos rfl)
      descOther := fun k hk => (s.desc_claim h k _ _).trans (if_neg hk)
      width := ew
      height := eh
      allocPtr := by
        show (BitVec.ofNat 21 (s.allocPtr.toNat + w.toNat * ht.toNat)).toNat = _
        rw [BitVec.toNat_ofNat, Nat.mod_eq_of_lt]
        omega
      cleared := fun x y hx hy => (State.px_paint _ (hx.trans_eq ew.symm) (hy.trans_eq eh.symm)).trans rfl
      outside := fun b hb =>
        (State.readByte_paint_outside _ (by rw [eb, ew, eh]; exact hb)).trans rfl
      memory := rfl
      status := rfl
      others := rfl }

/-- When `Alloc` succeeds (R104). -/
theorem State.alloc_of_fits {s : State} {h : Handle} {w ht : Int} (hv : (s.desc h).valid = false)
    (hw : 0 ≤ w ∧ w ≤ 4095) (hh : 0 ≤ ht ∧ ht ≤ 4095)
    (hf : s.allocPtr.toNat + w.toNat * ht.toNat ≤ s.params.pixWords.val) :
    ∃ t, s.alloc h w ht = .ok t := by
  refine ⟨(s.claim h w.toNat ht.toNat).paint h fun _ _ => some 0, ?_⟩
  unfold State.alloc
  rw [if_neg (by simp [hv]), if_neg (by simp only [Config.maxDim]; omega), if_neg (by omega)]

/-- The codes of `Alloc`'s failing checks, first check first (R104). -/
theorem State.alloc_error_iff {s : State} {h : Handle} {w ht : Int} {c : ErrCode} :
    s.alloc h w ht = .error c ↔
      ((s.desc h).valid = true ∧ c = .inUse) ∨
      ((s.desc h).valid = false ∧ (w < 0 ∨ w > 4095 ∨ ht < 0 ∨ ht > 4095) ∧ c = .dim) ∨
      ((s.desc h).valid = false ∧ ¬ (w < 0 ∨ w > 4095 ∨ ht < 0 ∨ ht > 4095) ∧
        s.allocPtr.toNat + w.toNat * ht.toNat > s.params.pixWords.val ∧ c = .noMem) := by
  unfold State.alloc
  simp only [Config.maxDim, Nat.cast_ofNat]
  cases hv : (s.desc h).valid
  · by_cases hd : w < 0 ∨ w > 4095 ∨ ht < 0 ∨ ht > 4095
    · simp [hd, eq_comm]
    · by_cases hf : s.allocPtr.toNat + w.toNat * ht.toNat > s.params.pixWords.val
      · simp [hd, hf, eq_comm]
      · simp [hd, hf]
  · simp [eq_comm]

end Sys2Proof.Machine
end

