-- ==== Sys2Proof/Laws/Effects.lean ====
section
/-! SUPPORT. What a command can do, said once: `exec_cases` lists every way a command ends, and every later
lemma about all commands is a case analysis on it. -/

namespace Sys2Proof.Machine

/-- What a command does to the state before it completes OK. -/
inductive State.Effect (s : State) : State → Prop where
  /-- NOP. -/
  | nothing : s.Effect s
  /-- SURF_SEAL of a surface. -/
  | sealed (h : Handle) (hv : (s.desc h).valid = true) : s.Effect (s.seal h)
  /-- PAL_UNPACK. -/
  | palette (e : Word) (hn : s.palCount.toNat ≠ Config.palDepth) : s.Effect (s.appendPal e)
  /-- CT_LOAD. -/
  | table (k : BitVec 8) (v : Word) (hv : slotWellFormed v) : s.Effect (s.setSlot k v)
  /-- A fill, a line or BLIT: clipped writes to an unsealed surface. -/
  | drawn (h : Handle) (ws : List (Int × Int × Word)) (hv : (s.desc h).valid = true) (hr : (s.desc h).ro = false)
    (he : s.surfaceExists h = true) : s.Effect (s.setPixels h ws)
  /-- SURF_ALLOC, REMAP or CROP: `Alloc`, then clipped writes to the new surface. -/
  | allocated (h : Handle) (w ht : Int) (t : State) (ws : List (Int × Int × Word)) (ha : s.alloc h w ht = .ok t) :
    s.Effect (t.setPixels h ws)

/-- How a command ends: an error code, the sentinel, the fatal error, or an effect and OK. -/
inductive State.Ends (s : State) : State → Prop where
  | error (c : ErrCode) (hc : c ≠ .ok) (hf : c ≠ .palFormat) : s.Ends (s.complete c)
  | sentinel : s.Ends s.completeSentinel
  | fatal : s.Ends (s.raiseFatal .palFormat)
  | effect (u : State) (hu : s.Effect u) : s.Ends (u.complete .ok)

/-! ### The shared operations -/

theorem State.unlessLocked_cases {s t : State} {body : State → Result} (h : s.unlessLocked body = .next t) :
    (s.status.fatal = true ∧ t = s.complete .fatalLock) ∨ (s.status.fatal = false ∧ body s = .next t) := by
  unfold State.unlessLocked at h
  split at h
  · exact .inl ⟨‹_›, by cases h; rfl⟩
  · exact .inr ⟨Bool.eq_false_iff.2 ‹_›, h⟩

theorem State.onSurface_cases {s t : State} {h : Handle} {body : State → Result} (e : s.onSurface h body = .next t) :
    s.surfaceExists h = true ∧ body s = .next t := by
  unfold State.onSurface at e
  split at e
  · exact ⟨‹_›, e⟩
  · simp at e

theorem State.drawOn_cases {s t : State} {h : Handle} {draw : State → State} (e : s.drawOn h draw = .next t) :
    ((s.desc h).valid = false ∧ t = s.completeSentinel) ∨
    ((s.desc h).valid = true ∧ (s.desc h).ro = true ∧ t = s.complete .readOnly) ∨
    ((s.desc h).valid = true ∧ (s.desc h).ro = false ∧ s.surfaceExists h = true ∧ t = (draw s).complete .ok) := by
  unfold State.drawOn at e
  split at e
  · exact .inl ⟨‹_›, by cases e; rfl⟩
  · rename_i hv
    split at e
    · exact .inr (.inl ⟨Bool.not_eq_false _ ▸ hv, ‹_›, by cases e; rfl⟩)
    · obtain ⟨h1, h2⟩ := State.onSurface_cases e
      exact .inr (.inr ⟨Bool.not_eq_false _ ▸ hv, Bool.eq_false_iff.2 ‹_›, h1, by cases h2; rfl⟩)

theorem State.allocThen_cases {s t : State} {h : Handle} {w ht : Int} {body : State → State}
    (e : s.allocThen h w ht body = .next t) :
    (∃ c, s.alloc h w ht = .error c ∧ t = s.complete c) ∨
    (∃ u, s.alloc h w ht = .ok u ∧ t = (body u).complete .ok) := by
  unfold State.allocThen at e
  split at e
  · exact .inl ⟨_, ‹_›, by cases e; rfl⟩
  · exact .inr ⟨_, ‹_›, by cases e; rfl⟩

theorem State.alloc_error_ne {s : State} {h : Handle} {w ht : Int} {c : ErrCode} (e : s.alloc h w ht = .error c) :
    c ≠ .ok ∧ c ≠ .palFormat := by
  rcases State.alloc_error_iff.1 e with ⟨_, rfl⟩ | ⟨_, _, rfl⟩ | ⟨_, _, _, rfl⟩ <;> simp

theorem State.ends_unlessLocked {s t : State} {body : State → Result} (h : s.unlessLocked body = .next t)
    (hb : body s = .next t → s.Ends t) : s.Ends t := by
  rcases State.unlessLocked_cases h with ⟨_, rfl⟩ | ⟨_, h⟩
  · exact .error _ (by simp) (by simp)
  · exact hb h

theorem State.ends_drawOn {s t : State} {h : Handle} {draw : State → State} (e : s.drawOn h draw = .next t)
    (hd : ∃ ws, draw s = s.setPixels h ws) : s.Ends t := by
  rcases State.drawOn_cases e with ⟨_, rfl⟩ | ⟨_, _, rfl⟩ | ⟨hv, hr, he, rfl⟩
  · exact .sentinel
  · exact .error _ (by simp) (by simp)
  · obtain ⟨ws, hws⟩ := hd
    exact .effect _ (hws ▸ .drawn h ws hv hr he)

theorem State.ends_allocThen {s t : State} {h : Handle} {w ht : Int} {body : State → State}
    (e : s.allocThen h w ht body = .next t)
    (hb : ∀ u, s.alloc h w ht = .ok u → ∃ ws, body u = u.setPixels h ws) : s.Ends t := by
  rcases State.allocThen_cases e with ⟨c, hc, rfl⟩ | ⟨u, hu, rfl⟩
  · exact .error c (State.alloc_error_ne hc).1 (State.alloc_error_ne hc).2
  · obtain ⟨ws, hws⟩ := hb u hu
    exact .effect _ (hws ▸ .allocated h w ht u ws hu)

/-! ### The slot word -/

theorem slotWellFormed_zero : slotWellFormed 0 := by decide

/-- The fields of a stored slot word in order, the CT_WIDTH = 4 digits one by one (R32). -/
theorem slotWord_eq (len : BitVec 8) (d : Nat → BitVec 5) :
    slotWord len d = (1 : BitVec 1) ++ (0 : BitVec 3) ++ len ++ d 3 ++ d 2 ++ d 1 ++ d 0 := by
  have e : slotWord len d =
      (1 : BitVec 1) ++ (0 : BitVec 3) ++ len ++ (d 3 ++ (d 2 ++ (d 1 ++ (d 0 ++ (0 : BitVec 0))))) := rfl
  rw [e]
  apply BitVec.eq_of_getLsbD_eq
  intro i hi
  simp only [BitVec.getLsbD_append]
  interval_cases i <;> simp

/-- Digit `b` of a stored slot word, for each of the CT_WIDTH buckets. -/
theorem slotDigit_slotWord (len : BitVec 8) (d : Nat → BitVec 5) {b : Nat} (hb : b < Config.ctWidth) :
    slotDigit (slotWord len d) b = d b := by
  have h4 : b < 4 := hb
  rw [slotWord_eq]
  apply BitVec.eq_of_getLsbD_eq
  intro i (hi : i < 5)
  simp only [slotDigit, Config.digitBits, BitVec.getLsbD_extractLsb', BitVec.getLsbD_append]
  interval_cases b <;> interval_cases i <;> simp

/-- LEN of a stored slot word. -/
theorem slotLen_slotWord (len : BitVec 8) (d : Nat → BitVec 5) : slotLen (slotWord len d) = len := by
  rw [slotWord_eq]
  apply BitVec.eq_of_getLsbD_eq
  intro i hi
  simp only [slotLen, BitVec.getLsbD_extractLsb', BitVec.getLsbD_append]
  interval_cases i <;> simp

theorem slotWellFormed_slotWord (len : BitVec 8) (d : Nat → BitVec 5) : slotWellFormed (slotWord len d) := by
  have hp : slotPresent (slotWord len d) = true := by
    simp only [slotPresent, slotWord_eq, BitVec.getLsbD_append]
    simp
  refine ⟨?_, fun h => by rw [hp] at h; simp at h⟩
  apply BitVec.eq_of_getLsbD_eq
  intro i hi
  simp only [slotWord_eq, BitVec.getLsbD_extractLsb', BitVec.getLsbD_append]
  have : i = 0 ∨ i = 1 ∨ i = 2 := by omega
  rcases this with rfl | rfl | rfl <;> simp

theorem State.slotWellFormed_ctEntry (s : State) : slotWellFormed s.ctEntry := by
  unfold State.ctEntry
  split
  · exact slotWellFormed_zero
  · exact slotWellFormed_slotWord _ _

/-! ### Every command -/

/-- Every way a command can end in a next state. -/
theorem exec_cases {i : Instr} {s t : State} (h : exec i s = .next t) : s.Ends t := by
  cases i with
  | nop =>
    have h0 : execNop s = .next t := h
    unfold execNop at h0
    exact State.ends_unlessLocked h0 fun h => by cases h; exact .effect _ .nothing
  | surfAlloc =>
    have h0 : execSurfAlloc s = .next t := h
    unfold execSurfAlloc at h0
    exact State.ends_unlessLocked h0 fun h => State.ends_allocThen h fun u _ => ⟨[], rfl⟩
  | surfSeal =>
    have h0 : execSurfSeal s = .next t := h
    unfold execSurfSeal at h0
    refine State.ends_unlessLocked h0 fun h => ?_
    split at h
    · cases h; exact .sentinel
    · cases h; exact .effect _ (.sealed _ (Bool.not_eq_false _ ▸ ‹_›))
  | palUnpack =>
    have h0 : execPalUnpack s = .next t := h
    unfold execPalUnpack at h0
    refine State.ends_unlessLocked h0 fun h => ?_
    split at h
    · cases h; exact .fatal
    · split at h
      · cases h; exact .error _ (by simp) (by simp)
      · cases h; exact .effect _ (.palette _ ‹_›)
  | ctLoad =>
    have h0 : execCtLoad s = .next t := h
    unfold execCtLoad at h0
    refine State.ends_unlessLocked h0 fun h => ?_
    cases h; exact .effect _ (.table _ _ s.slotWellFormed_ctEntry)
  | remap =>
    have h0 : execRemap s = .next t := h
    unfold execRemap at h0
    refine State.ends_unlessLocked h0 fun h => ?_
    split at h
    · cases h; exact .error _ (by simp) (by simp)
    · split at h
      · cases h; exact .sentinel
      · refine State.ends_allocThen (State.onSurface_cases h).2 fun u hu => ?_
        rw [State.sameButAllocation_dst (State.alloc_ok hu).others]
        exact ⟨_, rfl⟩
  | fillRect =>
    have h0 : execFillRect s = .next t := h
    unfold execFillRect at h0
    exact State.ends_unlessLocked h0 fun h => State.ends_drawOn h ⟨_, rfl⟩
  | fillCircle =>
    have h0 : execFillCircle s = .next t := h
    unfold execFillCircle at h0
    exact State.ends_unlessLocked h0 fun h => State.ends_drawOn h ⟨_, rfl⟩
  | fillEllipse =>
    have h0 : execFillEllipse s = .next t := h
    unfold execFillEllipse at h0
    exact State.ends_unlessLocked h0 fun h => State.ends_drawOn h ⟨_, rfl⟩
  | fillRing =>
    have h0 : execFillRing s = .next t := h
    unfold execFillRing at h0
    exact State.ends_unlessLocked h0 fun h => State.ends_drawOn h ⟨_, rfl⟩
  | drawLine =>
    have h0 : execDrawLine s = .next t := h
    unfold execDrawLine at h0
    exact State.ends_unlessLocked h0 fun h => State.ends_drawOn h ⟨_, rfl⟩
  | blit mh mv rot =>
    have h0 : execBlit mh mv rot s = .next t := h
    unfold execBlit at h0
    refine State.ends_unlessLocked h0 fun h => ?_
    split at h
    · cases h; exact .error _ (by simp) (by simp)
    · split at h
      · cases h; exact .sentinel
      · rename_i hv
        split at h
        · cases h; exact .error _ (by simp) (by simp)
        · obtain ⟨_, h⟩ := State.onSurface_cases h
          obtain ⟨he, h⟩ := State.onSurface_cases h
          cases h
          push Not at hv
          exact .effect _ (.drawn _ _ (by simpa using hv.1) (Bool.eq_false_iff.2 ‹_›) he)
  | crop =>
    have h0 : execCrop s = .next t := h
    unfold execCrop at h0
    refine State.ends_unlessLocked h0 fun h => ?_
    split at h
    · cases h; exact .sentinel
    · refine State.ends_allocThen (State.onSurface_cases h).2 fun u hu => ?_
      rw [State.sameButAllocation_dst (State.alloc_ok hu).others]
      exact ⟨_, rfl⟩

/-- An illegal word ends in the fatal lock or in E_ILLEGAL (R234). -/
theorem State.illegalWord_cases {s t : State} (h : s.illegalWord = .next t) : s.Ends t :=
  State.ends_unlessLocked h fun h => by cases h; exact .error _ (by simp) (by simp)

/-- The latched command's end (R234). -/
theorem State.runLatched_cases {s t : State} (h : s.runLatched = .next t) : s.Ends t := by
  unfold State.runLatched at h
  split at h
  · exact exec_cases h
  · exact State.illegalWord_cases h

/-! ### One step -/

/-- The ways a step can go: the engine completes a command or stays idle, a reset, or a host access. -/
inductive State.StepCase (s : State) : State → Prop where
  /-- The engine's turn with a command running, its input taken off the list or an access still held. -/
  | runs (u t : State) (hu : u = s ∨ u = s.popInput) (hb : s.status.busy = true) (ht : u.Ends t) : s.StepCase t
  /-- The engine's turn while it is idle. -/
  | idle (u : State) (hu : u = s ∨ u = s.popInput) (hb : s.status.busy = false) : s.StepCase u
  | hardReset (rest : List Input) (hi : s.inputs = .hardReset :: rest) : s.StepCase s.popInput.doReset
  | read (addr : HostAddr) (be : BitVec 4) (rest : List Input) (hi : s.inputs = .hostRead addr be :: rest)
    (hh : s.holds addr be = false) : s.StepCase (s.popInput.doRead addr be)
  | write (addr : HostAddr) (be : BitVec 4) (v : Word) (rest : List Input)
    (hi : s.inputs = .hostWrite addr be v :: rest) (hh : s.holds addr be = false) :
    s.StepCase (s.popInput.doWrite addr be v)

theorem State.engineTurn_cases {s u t : State} (hu : u = s ∨ u = s.popInput) (h : u.engineTurn = .next t) :
    s.StepCase t := by
  have hs : u.status = s.status := by rcases hu with rfl | rfl <;> rfl
  unfold State.engineTurn at h
  split at h
  · exact .runs u t hu (hs ▸ ‹_›) (State.runLatched_cases h)
  · cases h; exact .idle u hu (by rw [← hs]; exact Bool.eq_false_iff.2 ‹_›)

theorem step_cases {s t : State} (h : step s = .next t) : s.StepCase t := by
  unfold step State.turn at h
  split at h
  · exact State.engineTurn_cases (.inl rfl) h
  · exact State.engineTurn_cases (.inr rfl) h
  · cases h; exact .hardReset _ ‹_›
  · split at h
    · exact State.engineTurn_cases (.inl rfl) h
    · cases h; exact .read _ _ _ ‹_› (Bool.eq_false_iff.2 ‹_›)
  · split at h
    · exact State.engineTurn_cases (.inl rfl) h
    · cases h; exact .write _ _ _ _ ‹_› (Bool.eq_false_iff.2 ‹_›)

end Sys2Proof.Machine
end

