-- ==== Sys2Proof/Laws/Invariants.lean ====
section
/-! SUPPORT. Each shared operation keeps the invariants of `State.MemInv` and `State.RegInv` (10_state.md R34). -/

namespace Sys2Proof.Machine

/-! ### Memory, descriptors, ALLOC_PTR -/

/-- The memory invariant reads only memory, descriptors, ALLOC_PTR and the parameters. -/
theorem State.memInv_congr {s t : State} (hs : s.MemInv) (hm : t.mem = s.mem) (hd : t.descTable = s.descTable)
    (ha : t.allocPtr = s.allocPtr) (hp : t.params = s.params) : t.MemInv := by
  have ed (h : Handle) : t.desc h = s.desc h := by simp [State.desc, hd]
  have ew (h : Handle) : t.width h = s.width h := State.width_congr (ed h)
  have eh (h : Handle) : t.height h = s.height h := State.height_congr (ed h)
  exact
    { canonical := hm ▸ hs.canonical
      inRange := by rw [hm, hp]; exact hs.inRange
      allocBound := by rw [ha, hp]; exact hs.allocBound
      surfaceEnd := fun h hv => by rw [ed, ew, eh, ha]; exact hs.surfaceEnd h (ed h ▸ hv)
      disjoint := fun h k a h1 h2 => hs.disjoint h k a
        (by simpa only [State.covers, ed, ew, eh] using h1) (by simpa only [State.covers, ed, ew, eh] using h2)
      sentinelZero := fun h hv => by rw [ed]; exact hs.sentinelZero h (ed h ▸ hv)
      allocWritten := fun a hlt => by rw [hm]; exact hs.allocWritten a (ha ▸ hlt) }

/-- A surface's pixels lie below ALLOC_PTR. -/
theorem State.MemInv.pxAddr_lt {s : State} (hs : s.MemInv) {h : Handle} (hv : (s.desc h).valid = true) {x y : Nat}
    (hx : x < s.width h) (hy : y < s.height h) : s.pxAddr h x y < s.allocPtr.toNat :=
  (State.pxAddr_bounds hx hy).2.trans_le (hs.surfaceEnd h hv)

/-- Every surface lies in pixel memory, so the engine never stops on one (R34, item 1). -/
theorem State.MemInv.surfaceExists {s : State} (hs : s.MemInv) {h : Handle} (hv : (s.desc h).valid = true) :
    s.surfaceExists h = true :=
  (s.surfaceExists_iff h).2 ((hs.surfaceEnd h hv).trans hs.allocBound)

/-- The clipped writes of a command to a surface. -/
theorem State.MemInv.setPixels {s : State} (hs : s.MemInv) {h : Handle} (hv : (s.desc h).valid = true)
    (ws : List (Int × Int × Word)) : (s.setPixels h ws).MemInv :=
  { canonical := State.wf_foldl_writePixel ws hs.canonical
    inRange := fun c hc => by
      rcases State.mem_foldl_writePixel ws hc with ⟨p, -, hin, e⟩ | hc
      · obtain ⟨h1, h2, h3, h4⟩ := (s.inB_iff h p.1 p.2.1).1 hin
        have := hs.pxAddr_lt hv (x := p.1.toNat) (y := p.2.1.toNat) (by omega) (by omega)
        have := hs.allocBound
        show c.1 < 4 * s.params.pixWords.val
        omega
      · exact hs.inRange c hc
    allocBound := hs.allocBound
    surfaceEnd := hs.surfaceEnd
    disjoint := hs.disjoint
    sentinelZero := hs.sentinelZero
    allocWritten := fun a ha => State.isSome_foldl_writePixel ws (.inl (hs.allocWritten a ha)) }

/-- A host write of a word that exists (R63). -/
theorem State.MemInv.memWrite {s : State} (hs : s.MemInv) {a : Nat} (ha : a < s.params.pixWords.val) (v : Word) :
    (s.memWrite a v).MemInv :=
  { canonical := Memory.wf_writeWord hs.canonical a v
    inRange := fun c hc => by
      rcases Memory.mem_writeWord hc with e | hc
      · show c.1 < 4 * s.params.pixWords.val; omega
      · exact hs.inRange c hc
    allocBound := hs.allocBound
    surfaceEnd := hs.surfaceEnd
    disjoint := hs.disjoint
    sentinelZero := hs.sentinelZero
    allocWritten := fun b hb => Memory.isSome_writeWord (.inr (hs.allocWritten b hb)) }

/-- Sealing a surface. -/
theorem State.MemInv.seal {s : State} (hs : s.MemInv) {h : Handle} (hv : (s.desc h).valid = true) :
    (s.seal h).MemInv := by
  have ed (k : Handle) : (s.seal h).desc k = if k = h then { s.desc h with ro := true } else s.desc k :=
    s.desc_setDesc h k _
  have ev (k : Handle) : ((s.seal h).desc k).valid = (s.desc k).valid := by rw [ed]; split <;> simp_all
  have eb (k : Handle) : ((s.seal h).desc k).base = (s.desc k).base := by rw [ed]; split <;> simp_all
  have ew (k : Handle) : (s.seal h).width k = s.width k := by
    unfold State.width; rw [ed]; split <;> simp_all
  have eh (k : Handle) : (s.seal h).height k = s.height k := by
    unfold State.height; rw [ed]; split <;> simp_all
  exact
    { canonical := hs.canonical
      inRange := hs.inRange
      allocBound := hs.allocBound
      surfaceEnd := fun k hk => by rw [eb, ew, eh]; exact hs.surfaceEnd k (ev k ▸ hk)
      disjoint := fun k j a h1 h2 => hs.disjoint k j a
        (by simpa only [State.covers, ev, eb, ew, eh] using h1) (by simpa only [State.covers, ev, eb, ew, eh] using h2)
      sentinelZero := fun k hk => by
        have hk' : (s.desc k).valid = false := ev k ▸ hk
        rw [ed, if_neg (by rintro rfl; rw [hv] at hk'; simp at hk')]
        exact hs.sentinelZero k hk'
      allocWritten := hs.allocWritten }

/-- A successful `Alloc` (R104). -/
theorem State.MemInv.alloc {s t : State} (hs : s.MemInv) {h : Handle} {w ht : Int} (ha : s.alloc h w ht = .ok t) :
    t.MemInv := by
  have A := State.alloc_ok ha
  obtain ⟨n, hn⟩ : ∃ n, n = w.toNat * ht.toNat := ⟨_, rfl⟩
  have hp : t.params = s.params := State.sameButAllocation_params A.others
  have hf : s.allocPtr.toNat + n ≤ s.params.pixWords.val := hn ▸ A.fits
  have hap : t.allocPtr.toNat = s.allocPtr.toNat + n := hn ▸ A.allocPtr
  have base : (t.desc h).base.toNat = s.allocPtr.toNat := by rw [A.descNew]; rfl
  have cb : ((s.claim h w.toNat ht.toNat).desc h).base.toNat = s.allocPtr.toNat := by
    rw [State.desc_claim, if_pos rfl]; rfl
  have ec : t.desc h = (s.claim h w.toNat ht.toNat).desc h := by rw [A.descNew, State.desc_claim, if_pos rfl]
  have cw : (s.claim h w.toNat ht.toNat).width h = w.toNat := (State.width_congr ec).symm.trans A.width
  have ch : (s.claim h w.toNat ht.toNat).height h = ht.toNat := (State.height_congr ec).symm.trans A.height
  have covers_new (a : Nat) (hc : t.covers h a) : s.allocPtr.toNat ≤ a := base ▸ hc.2.1
  have covers_old (k : Handle) (hk : k ≠ h) (a : Nat) (hc : t.covers k a) : s.covers k a := by
    have e := A.descOther k hk
    simpa only [State.covers, e, State.width_congr e, State.height_congr e] using hc
  have old_below (k : Handle) (a : Nat) (hc : s.covers k a) : a < s.allocPtr.toNat :=
    hc.2.2.trans_le (hs.surfaceEnd k hc.1)
  exact
    { canonical := A.memory ▸ State.wf_foldl_writePixel _ hs.canonical
      inRange := fun c hc => by
        rw [A.memory] at hc
        rw [hp]
        rcases State.mem_foldl_writePixel _ hc with ⟨p, -, hin, e⟩ | hc
        · obtain ⟨h1, h2, h3, h4⟩ := (State.inB_iff _ h p.1 p.2.1).1 hin
          have := State.pxAddr_bounds (s := s.claim h w.toNat ht.toNat) (h := h) (x := p.1.toNat) (y := p.2.1.toNat)
            (by omega) (by omega)
          rw [cb, cw, ch, ← hn] at this
          omega
        · exact hs.inRange c hc
      allocBound := by rw [hap, hp]; exact hf
      surfaceEnd := fun k hk => by
        rcases eq_or_ne k h with rfl | hne
        · rw [base, A.width, A.height, ← hn, hap]
        · have e := A.descOther k hne
          rw [e, State.width_congr e, State.height_congr e, hap]
          exact (hs.surfaceEnd k (e ▸ hk)).trans (by omega)
      disjoint := fun k j a h1 h2 => by
        by_cases hk : k = h <;> by_cases hj : j = h
        · rw [hk, hj]
        · exact absurd (old_below j a (covers_old j hj a h2)) (not_lt.2 (covers_new a (hk ▸ h1)))
        · exact absurd (old_below k a (covers_old k hk a h1)) (not_lt.2 (covers_new a (hj ▸ h2)))
        · exact hs.disjoint k j a (covers_old k hk a h1) (covers_old j hj a h2)
      sentinelZero := fun k hk => by
        rcases eq_or_ne k h with rfl | hne
        · rw [A.descNew] at hk; simp [Desc.fresh] at hk
        · rw [A.descOther k hne] at hk ⊢; exact hs.sentinelZero k hk
      allocWritten := fun a hlt => by
        rw [A.memory]
        refine State.isSome_foldl_writePixel _ ?_
        by_cases hold : a < 4 * s.allocPtr.toNat
        · exact .inl (hs.allocWritten a hold)
        · right
          obtain ⟨x, y, hx, hy, e⟩ := State.exists_pxAddr (s := s.claim h w.toNat ht.toNat) (h := h) (a := a / 4)
            (by rw [cb]; omega) (by rw [cb, cw, ch, ← hn]; omega)
          exact ⟨((x : Int), (y : Int), 0), (mem_paintWrites (f := fun _ _ => some 0)).2 ⟨x, y, 0, hx, hy, rfl, rfl⟩,
            (State.inB_nat _ h x y).2 ⟨hx, hy⟩, by simpa using e.symm⟩ }

/-- A state with no surface, no listed byte and ALLOC_PTR = 0 meets the memory invariant. -/
theorem State.memInv_of_empty {s : State} (hd : ∀ h, s.desc h = Desc.sentinel) (hm : s.mem = []) (ha : s.allocPtr = 0) :
    s.MemInv :=
  { canonical := by rw [hm]; exact List.Pairwise.nil
    inRange := by rw [hm]; simp
    allocBound := by rw [ha]; exact Nat.zero_le _
    surfaceEnd := fun h hv => by rw [hd] at hv; simp [Desc.sentinel] at hv
    disjoint := fun h k a hc => by have := hc.1; rw [hd] at this; simp [Desc.sentinel] at this
    sentinelZero := fun h _ => hd h
    allocWritten := fun a hlt => by rw [ha] at hlt; simp at hlt }

/-- The memory of the state after reset is in canonical form. -/
theorem reset_mem_wf : State.reset.mem.wf := List.Pairwise.nil

/-- Every effect of a command (R34). -/
theorem State.MemInv.effect {s u : State} (hs : s.MemInv) (hu : s.Effect u) : u.MemInv := by
  cases hu with
  | nothing => exact hs
  | sealed h hv => exact hs.seal hv
  | palette e _ => exact State.memInv_congr hs rfl rfl rfl rfl
  | table k v _ => exact State.memInv_congr hs rfl rfl rfl rfl
  | drawn h ws hv _ _ => exact hs.setPixels hv ws
  | allocated h w ht t ws ha =>
    refine (hs.alloc ha).setPixels ?_ ws
    rw [(State.alloc_ok ha).descNew]; rfl

/-! ### Registers and tables -/

/-- The palette and slot part of `RegInv` under every effect. -/
theorem State.Effect.slots {s u : State} (hu : s.Effect u) (hs : ∀ k, slotWellFormed (s.slot k)) (k : BitVec 8) :
    slotWellFormed (u.slot k) := by
  cases hu with
  | nothing => exact hs k
  | sealed h _ => exact hs k
  | palette e _ => exact hs k
  | table j v hv => rw [State.slot_setSlot]; split; exacts [hv, hs k]
  | drawn h ws _ _ _ => exact hs k
  | allocated h w ht t ws ha =>
    rw [State.setPixels_slot, State.sameButAllocation_slot (State.alloc_ok ha).others]; exact hs k

theorem State.Effect.palCount {s u : State} (hu : s.Effect u) :
    u.palCount = s.palCount ∨ (s.palCount.toNat ≠ Config.palDepth ∧ u.palCount = s.palCount + 1) := by
  cases hu with
  | palette e hn => exact .inr ⟨hn, rfl⟩
  | allocated h w ht t ws ha => exact .inl (State.sameButAllocation_palCount (t := t) (State.alloc_ok ha).others)
  | nothing => exact .inl rfl
  | sealed h _ => exact .inl rfl
  | table j v _ => exact .inl rfl
  | drawn h ws _ _ _ => exact .inl rfl

/-- No effect of a command touches these: the registers the host writes, the latch, the interrupt enable, the
parameters and the model's own fields (R26, R27). -/
theorem State.Effect.untouched {s u : State} (hu : s.Effect u) :
    u.status = s.status ∧ u.ie = s.ie ∧ u.cmd = s.cmd ∧ u.args = s.args ∧ u.text = s.text ∧ u.latch = s.latch ∧
      u.params = s.params ∧ u.resets = s.resets ∧ u.inputs = s.inputs ∧ u.reply = s.reply := by
  cases hu with
  | allocated h w ht t ws ha =>
    have A := State.alloc_ok ha
    have o : s.sameButAllocation (t.setPixels h ws) := State.sameButAllocation_setPixels A.others h ws
    exact ⟨A.status, State.sameButAllocation_ie o, State.sameButAllocation_cmd o, State.sameButAllocation_args o,
      State.sameButAllocation_text o, State.sameButAllocation_latch o, State.sameButAllocation_params o,
      State.sameButAllocation_resets o, State.sameButAllocation_inputs o, State.sameButAllocation_reply o⟩
  | nothing => exact ⟨rfl, rfl, rfl, rfl, rfl, rfl, rfl, rfl, rfl, rfl⟩
  | sealed h _ => exact ⟨rfl, rfl, rfl, rfl, rfl, rfl, rfl, rfl, rfl, rfl⟩
  | palette e _ => exact ⟨rfl, rfl, rfl, rfl, rfl, rfl, rfl, rfl, rfl, rfl⟩
  | table j v _ => exact ⟨rfl, rfl, rfl, rfl, rfl, rfl, rfl, rfl, rfl, rfl⟩
  | drawn h ws _ _ _ => exact ⟨rfl, rfl, rfl, rfl, rfl, rfl, rfl, rfl, rfl, rfl⟩

end Sys2Proof.Machine
end

