-- ==== Sys2Proof/Laws/Exec.lean ====
section
/-! SUPPORT. Each command's meaning past the fatal lock (60_exceptions.md R234), as one equation; the fatal lock
itself; and the operands as fields of the latched registers. -/

namespace Sys2Proof.Machine

/-! ### Operands -/

theorem State.dst_eq (s : State) : (s.larg 0).extractLsb' 0 8 = s.dst := rfl

theorem State.src_eq (s : State) : (s.larg 0).extractLsb' 8 8 = s.src := rfl

theorem State.q_eq (s : State) (k : Fin 8) : intPart (s.larg k) = s.q k := rfl

theorem State.palLen_eq (s : State) : ((s.larg 0).extractLsb' 0 8).toNat = s.palLen := rfl

theorem State.ctBase_eq (s : State) : ((s.larg 1).extractLsb' 0 8).toNat = s.ctBase := rfl

theorem State.ctCount_eq (s : State) : ((s.larg 1).extractLsb' 8 9).toNat = s.ctCount := rfl

theorem State.width_le (s : State) (h : Handle) : s.width h ≤ 4095 := Nat.le_of_lt_succ (s.desc h).w.isLt

theorem State.height_le (s : State) (h : Handle) : s.height h ≤ 4095 := Nat.le_of_lt_succ (s.desc h).h.isLt

/-! ### The fatal lock -/

theorem State.unlessLocked_of_live {s : State} (hf : s.status.fatal = false) (body : State → Result) :
    s.unlessLocked body = body s := by
  unfold State.unlessLocked; rw [hf]; exact if_neg Bool.false_ne_true

theorem State.unlessLocked_of_locked {s : State} (hf : s.status.fatal = true) (body : State → Result) :
    s.unlessLocked body = .next (s.complete .fatalLock) := by
  unfold State.unlessLocked; rw [hf]; exact if_pos rfl

/-- While FATAL = 1 every command, well formed or not, completes with E_FATAL_LOCK. -/
theorem exec_of_locked {s : State} (hf : s.status.fatal = true) (i : Instr) :
    exec i s = .next (s.complete .fatalLock) := by
  cases i with
  | nop => change execNop s = _; unfold execNop; exact State.unlessLocked_of_locked hf _
  | surfAlloc => change execSurfAlloc s = _; unfold execSurfAlloc; exact State.unlessLocked_of_locked hf _
  | surfSeal => change execSurfSeal s = _; unfold execSurfSeal; exact State.unlessLocked_of_locked hf _
  | palUnpack => change execPalUnpack s = _; unfold execPalUnpack; exact State.unlessLocked_of_locked hf _
  | ctLoad => change execCtLoad s = _; unfold execCtLoad; exact State.unlessLocked_of_locked hf _
  | remap => change execRemap s = _; unfold execRemap; exact State.unlessLocked_of_locked hf _
  | fillRect => change execFillRect s = _; unfold execFillRect; exact State.unlessLocked_of_locked hf _
  | fillCircle => change execFillCircle s = _; unfold execFillCircle; exact State.unlessLocked_of_locked hf _
  | fillEllipse => change execFillEllipse s = _; unfold execFillEllipse; exact State.unlessLocked_of_locked hf _
  | fillRing => change execFillRing s = _; unfold execFillRing; exact State.unlessLocked_of_locked hf _
  | drawLine => change execDrawLine s = _; unfold execDrawLine; exact State.unlessLocked_of_locked hf _
  | blit mh mv rot => change execBlit mh mv rot s = _; unfold execBlit; exact State.unlessLocked_of_locked hf _
  | crop => change execCrop s = _; unfold execCrop; exact State.unlessLocked_of_locked hf _

theorem State.onSurface_of_exists {s : State} {h : Handle} (he : s.surfaceExists h = true) (body : State → Result) :
    s.onSurface h body = body s := if_pos he

theorem State.allocThen_of_ok {s u : State} {h : Handle} {w ht : Int} (e : s.alloc h w ht = .ok u) (body : State → State) :
    s.allocThen h w ht body = .next ((body u).complete .ok) := by
  unfold State.allocThen; rw [e]

theorem State.allocThen_of_error {s : State} {h : Handle} {w ht : Int} {c : ErrCode} (e : s.alloc h w ht = .error c)
    (body : State → State) : s.allocThen h w ht body = .next (s.complete c) := by
  unfold State.allocThen; rw [e]

/-! ### One equation per command -/

theorem exec_nop {s : State} (hf : s.status.fatal = false) : exec .nop s = .next (s.complete .ok) := by
  change execNop s = _
  unfold execNop
  exact State.unlessLocked_of_live hf _

theorem exec_surfAlloc {s : State} (hf : s.status.fatal = false) :
    exec .surfAlloc s = s.allocThen s.dst s.allocW s.allocH id := by
  change execSurfAlloc s = _
  unfold execSurfAlloc
  exact State.unlessLocked_of_live hf _

theorem exec_surfSeal {s : State} (hf : s.status.fatal = false) :
    exec .surfSeal s =
      if (s.desc s.dst).valid = false then .next s.completeSentinel else .next ((s.seal s.dst).complete .ok) := by
  change execSurfSeal s = _
  unfold execSurfSeal
  exact State.unlessLocked_of_live hf _

theorem exec_palUnpack {s : State} (hf : s.status.fatal = false) :
    exec .palUnpack s =
      if s.palWellFormed = false then .next (s.raiseFatal .palFormat)
      else if s.palCount.toNat = 32 then .next (s.complete .palFull)
      else .next ((s.appendPal s.palEntry).complete .ok) := by
  change execPalUnpack s = _
  unfold execPalUnpack
  exact State.unlessLocked_of_live hf _

theorem exec_ctLoad {s : State} (hf : s.status.fatal = false) :
    exec .ctLoad s = .next ((s.setSlot s.ctSlot s.ctEntry).complete .ok) := by
  change execCtLoad s = _
  unfold execCtLoad
  exact State.unlessLocked_of_live hf _

theorem exec_remap {s : State} (hf : s.status.fatal = false) :
    exec .remap s =
      if s.ctBase + s.ctCount > 256 then .next (s.complete .ctRange)
      else if (s.desc s.src).valid = false then .next s.completeSentinel
      else s.onSurface s.src fun s =>
        s.allocThen s.dst (s.width s.src) (s.height s.src) fun t => t.remapInto t.dst t.src := by
  change execRemap s = _
  unfold execRemap
  exact State.unlessLocked_of_live hf _

theorem exec_fillRect {s : State} (hf : s.status.fatal = false) :
    exec .fillRect s = s.drawOn s.dst fun s => s.fill s.dst (covRect (s.q 1) (s.q 2) (s.q 3) (s.q 4)) s.color := by
  change execFillRect s = _
  unfold execFillRect
  exact State.unlessLocked_of_live hf _

theorem exec_fillCircle {s : State} (hf : s.status.fatal = false) :
    exec .fillCircle s = s.drawOn s.dst fun s => s.fill s.dst (covCircle (s.q 1) (s.q 2) (s.q 3)) s.color := by
  change execFillCircle s = _
  unfold execFillCircle
  exact State.unlessLocked_of_live hf _

theorem exec_fillEllipse {s : State} (hf : s.status.fatal = false) :
    exec .fillEllipse s =
      s.drawOn s.dst fun s => s.fill s.dst (covEllipse (s.q 1) (s.q 2) (s.q 3) (s.q 4)) s.color := by
  change execFillEllipse s = _
  unfold execFillEllipse
  exact State.unlessLocked_of_live hf _

theorem exec_fillRing {s : State} (hf : s.status.fatal = false) :
    exec .fillRing s = s.drawOn s.dst fun s => s.fill s.dst (covRing (s.q 1) (s.q 2) (s.q 3) (s.q 4)) s.color := by
  change execFillRing s = _
  unfold execFillRing
  exact State.unlessLocked_of_live hf _

theorem exec_drawLine {s : State} (hf : s.status.fatal = false) :
    exec .drawLine s =
      s.drawOn s.dst fun s => s.plot s.dst (linePoints (s.q 1) (s.q 2) (s.q 3) (s.q 4)) s.color := by
  change execDrawLine s = _
  unfold execDrawLine
  exact State.unlessLocked_of_live hf _

theorem exec_blit {s : State} (hf : s.status.fatal = false) (mh mv : Bool) (rot : BitVec 2) :
    exec (.blit mh mv rot) s =
      if rot ≠ 0 ∧ rot ≠ 1 then .next (s.complete .illegal)
      else if (s.desc s.dst).valid = false ∨ (s.desc s.src).valid = false then .next s.completeSentinel
      else if (s.desc s.dst).ro then .next (s.complete .readOnly)
      else s.onSurface s.src fun s => s.onSurface s.dst fun s =>
        .next ((s.setPixels s.dst
          (s.blitWrites mh mv rot s.src (s.q 1) (s.q 2) (s.q 3) (s.q 4) (s.q 5) (s.q 6))).complete .ok) := by
  change execBlit mh mv rot s = _
  unfold execBlit
  exact State.unlessLocked_of_live hf _

theorem exec_crop {s : State} (hf : s.status.fatal = false) :
    exec .crop s =
      if (s.desc s.src).valid = false then .next s.completeSentinel
      else s.onSurface s.src fun s =>
        s.allocThen s.dst (s.q 5) (s.q 6) fun t => t.cropInto t.dst t.src (t.q 3) (t.q 4) := by
  change execCrop s = _
  unfold execCrop
  exact State.unlessLocked_of_live hf _

/-- A drawing command on an unsealed surface that exists. -/
theorem State.drawOn_of_open {s : State} {h : Handle} (hv : (s.desc h).valid = true) (hr : (s.desc h).ro = false)
    (he : s.surfaceExists h = true) (draw : State → State) :
    s.drawOn h draw = .next ((draw s).complete .ok) := by
  unfold State.drawOn
  rw [if_neg (by simp [hv]), if_neg (by simp [hr]), State.onSurface_of_exists he]

end Sys2Proof.Machine
end

