-- ==== Sys2Proof/Laws/HostPort.lean ====
section
/-! SUPPORT. The address map of 20_memory.md R62, window by window, and what an access that is not held does. -/

namespace Sys2Proof.Machine

/-! ### The windows -/

theorem windowAt_id (n : Nat) : windowAt n 0x000 = .id := rfl

theorem windowAt_status (n : Nat) : windowAt n 0x004 = .status := rfl

theorem windowAt_ctrl (n : Nat) : windowAt n 0x008 = .ctrl := rfl

theorem windowAt_cmd (n : Nat) : windowAt n 0x00C = .cmd := rfl

theorem windowAt_palCount (n : Nat) : windowAt n 0x010 = .palCount := rfl

theorem windowAt_allocPtr (n : Nat) : windowAt n 0x014 = .allocPtr := rfl

theorem windowAt_arg (n : Nat) (k : Fin 8) : windowAt n (0x020 + 4 * k.val) = .arg k := by
  revert k; simp only [Fin.forall_fin_succ]; exact ⟨rfl, rfl, rfl, rfl, rfl, rfl, rfl, rfl, fun k => k.elim0⟩

theorem windowAt_text (n : Nat) (k : Fin 4) : windowAt n (0x040 + 4 * k.val) = .text k := by
  revert k; simp only [Fin.forall_fin_succ]; exact ⟨rfl, rfl, rfl, rfl, fun k => k.elim0⟩

/-- Past the registers the map is decided by ranges alone. -/
theorem windowAt_high {n off : Nat} (h : 0x050 ≤ off) : windowAt n off = tableAt n off := if_neg (not_lt.2 h)

theorem windowAt_palWin (n : Nat) (i : Fin 32) : windowAt n (0x100 + 4 * i.val) = .palWin i := by
  have e : (0x100 + 4 * i.val - 0x100) / 4 = i.val := by omega
  rw [windowAt_high (by omega), tableAt, e]
  split_ifs <;> first | omega | simp

theorem windowAt_ctWin (n : Nat) (k : BitVec 8) : windowAt n (0x400 + 4 * k.toNat) = .ctWin k := by
  have e : (0x400 + 4 * k.toNat - 0x400) / 4 = k.toNat := by omega
  have := k.isLt
  rw [windowAt_high (by omega), tableAt, e]
  split_ifs <;> first | omega | simp

theorem windowAt_descWin0 (n : Nat) (h : Handle) : windowAt n (0x800 + 8 * h.toNat) = .descWin0 h := by
  have e : (0x800 + 8 * h.toNat - 0x800) / 8 = h.toNat := by omega
  have := h.isLt
  rw [windowAt_high (by omega), tableAt, e]
  split_ifs <;> first | omega | simp

theorem windowAt_descWin1 (n : Nat) (h : Handle) : windowAt n (0x804 + 8 * h.toNat) = .descWin1 h := by
  have e : (0x804 + 8 * h.toNat - 0x800) / 8 = h.toNat := by omega
  have := h.isLt
  rw [windowAt_high (by omega), tableAt, e]
  split_ifs <;> first | omega | simp

theorem windowAt_pixWin {n a : Nat} (h : a < n) : windowAt n (0x100000 + 4 * a) = .pixWin a := by
  have e : (0x100000 + 4 * a - 0x100000) / 4 = a := by omega
  rw [windowAt_high (by omega), tableAt, e]
  split_ifs <;> first | omega | rfl

/-- A pixel window names a word that exists. -/
theorem lt_of_windowAt_pixWin {n off a : Nat} (h : windowAt n off = .pixWin a) : a < n := by
  simp only [windowAt, registerAt, tableAt] at h
  split_ifs at h
  cases h
  omega

/-- The held windows by their offsets (R66). -/
theorem windowAt_held_iff {n off : Nat} (h4 : 4 ∣ off) :
    (windowAt n off).held = true ↔
      off = 0x010 ∨ off = 0x014 ∨ (0x100 ≤ off ∧ off < 0x180) ∨ (0x400 ≤ off ∧ off < 0x1000) ∨
        (0x100000 ≤ off ∧ off < 0x100000 + 4 * n) := by
  unfold windowAt registerAt tableAt
  split_ifs <;> simp [Window.held] <;> omega

/-- The gaps of the map (R62, R65). -/
theorem windowAt_unmapped {n off : Nat} (h4 : 4 ∣ off)
    (h : (0x018 ≤ off ∧ off < 0x020) ∨ (0x050 ≤ off ∧ off < 0x100) ∨ (0x180 ≤ off ∧ off < 0x400) ∨
      (0x1000 ≤ off ∧ off < 0x100000) ∨ 0x100000 + 4 * n ≤ off) : windowAt n off = .unmapped := by
  unfold windowAt registerAt tableAt
  split_ifs <;> first | rfl | omega

/-- A write to a read-only window changes nothing (R64). -/
theorem State.writeWindow_readOnly (s : State) (v : Word) {n off : Nat} (h4 : 4 ∣ off)
    (h : off = 0x000 ∨ off = 0x010 ∨ off = 0x014 ∨ (0x100 ≤ off ∧ off < 0x180) ∨ (0x400 ≤ off ∧ off < 0x1000)) :
    s.writeWindow v (windowAt n off) = s := by
  unfold windowAt registerAt tableAt
  split_ifs <;> first | rfl | omega

/-- No host write touches the list of inputs. -/
@[simp] theorem State.writeWindow_inputs (s : State) (v : Word) (w : Window) : (s.writeWindow v w).inputs = s.inputs := by
  cases w with
  | ctrl => simp only [State.writeWindow, State.writeCtrl]; split <;> rfl
  | cmd => simp only [State.writeWindow, State.writeCmd]; split <;> rfl
  | _ => rfl

/-! ### Accesses -/

theorem legalAccess_iff (addr : HostAddr) (be : BitVec 4) :
    legalAccess addr be = true ↔ be = 0xF ∧ 4 ∣ addr.toNat := by
  simp [legalAccess, Nat.dvd_iff_mod_eq_zero]

/-- A whole-word access at an aligned offset is legal, and its window is that of the offset. -/
theorem legalAccess_ofNat {off : Nat} (h4 : 4 ∣ off) (hlt : off < 2 ^ 23) :
    legalAccess (BitVec.ofNat 23 off) 0xF = true := by
  rw [legalAccess_iff, BitVec.toNat_ofNat, Nat.mod_eq_of_lt hlt]
  exact ⟨rfl, h4⟩

theorem State.window_ofNat (s : State) {off : Nat} (hlt : off < 2 ^ 23) :
    s.window (BitVec.ofNat 23 off) = windowAt s.params.pixWords.val off := by
  unfold State.window
  rw [BitVec.toNat_ofNat, Nat.mod_eq_of_lt hlt]

theorem step_hostRead {s : State} {addr : HostAddr} {be : BitVec 4} {rest : List Input}
    (hi : s.inputs = .hostRead addr be :: rest) (hh : s.holds addr be = false) :
    step s = .next (s.popInput.doRead addr be) := by
  unfold step State.turn
  rw [hi]
  simp only [hh, Bool.false_eq_true, if_false]

theorem step_hostWrite {s : State} {addr : HostAddr} {be : BitVec 4} {v : Word} {rest : List Input}
    (hi : s.inputs = .hostWrite addr be v :: rest) (hh : s.holds addr be = false) :
    step s = .next (s.popInput.doWrite addr be v) := by
  unfold step State.turn
  rw [hi]
  simp only [hh, Bool.false_eq_true, if_false]

theorem step_held_read {s : State} {addr : HostAddr} {be : BitVec 4} {rest : List Input}
    (hi : s.inputs = .hostRead addr be :: rest) (hh : s.holds addr be = true) : step s = s.runLatched := by
  have hb : s.status.busy = true := by unfold State.holds at hh; simp_all
  unfold step State.turn
  rw [hi]
  simp only [hh, if_true, State.engineTurn, hb]

theorem step_held_write {s : State} {addr : HostAddr} {be : BitVec 4} {v : Word} {rest : List Input}
    (hi : s.inputs = .hostWrite addr be v :: rest) (hh : s.holds addr be = true) : step s = s.runLatched := by
  have hb : s.status.busy = true := by unfold State.holds at hh; simp_all
  unfold step State.turn
  rw [hi]
  simp only [hh, if_true, State.engineTurn, hb]

/-- A legal host write that is not held: the write's effect, and a response without a bus error (R61). -/
theorem State.writeCompletes_of_not_held {s : State} {off : Nat} {v : Word} {rest : List Input} (h4 : 4 ∣ off)
    (hlt : off < 2 ^ 23) (hi : s.inputs = .hostWrite (BitVec.ofNat 23 off) 0xF v :: rest)
    (hh : s.status.busy = false ∨ (windowAt s.params.pixWords.val off).held = false) :
    s.WriteCompletes (s.popInput.writeWindow v (windowAt s.params.pixWords.val off)) := by
  refine ⟨0, ?_⟩
  rw [step_hostWrite hi (by unfold State.holds; rw [State.window_ofNat _ hlt]; rcases hh with h | h <;> simp [h])]
  unfold State.doWrite
  rw [if_pos (legalAccess_ofNat h4 hlt), State.window_ofNat _ hlt]
  rfl

/-- A legal host read that is not held: the window's word, and nothing else changed (R61, R74). -/
theorem step_read_of_not_held {s : State} {off : Nat} {rest : List Input} (h4 : 4 ∣ off) (hlt : off < 2 ^ 23)
    (hi : s.inputs = .hostRead (BitVec.ofNat 23 off) 0xF :: rest)
    (hh : s.status.busy = false ∨ (windowAt s.params.pixWords.val off).held = false) :
    step s = .next { s with
      inputs := rest
      reply := some { busError := false, data := s.readWindow (windowAt s.params.pixWords.val off) } } := by
  rw [step_hostRead hi (by unfold State.holds; rw [State.window_ofNat _ hlt]; rcases hh with h | h <;> simp [h])]
  unfold State.doRead
  have e : s.popInput.readWindow (windowAt s.popInput.params.pixWords.val off) =
      s.readWindow (windowAt s.params.pixWords.val off) := by
    cases h : windowAt s.params.pixWords.val off <;> simp [h, State.readWindow]
  rw [if_pos (legalAccess_ofNat h4 hlt), State.window_ofNat _ hlt, e]
  simp [State.respond, State.popInput, hi]

theorem step_hardReset {s : State} {rest : List Input} (hi : s.inputs = .hardReset :: rest) :
    step s = .next s.popInput.doReset := by
  unfold step State.turn
  rw [hi]

theorem step_engineTurn {s : State} {rest : List Input} (hi : s.inputs = .engineTurn :: rest) :
    step s = s.popInput.engineTurn := by
  unfold step State.turn
  rw [hi]

theorem step_noInput {s : State} (hi : s.inputs = []) : step s = s.engineTurn := by
  unfold step State.turn
  rw [hi]

end Sys2Proof.Machine
end

