-- ==== Sys2Proof/Laws/Commands.lean ====
section
/-! SUPPORT. The sets the drawing commands compute, each by its members: the points of a line, the writes of BLIT;
and pixels of a surface whose bytes are unchanged. -/

namespace Sys2Proof.Machine

/-- A pixel whose bytes are unchanged is unchanged. -/
theorem State.px_congr {s t : State} {h : Handle} {x y : Nat} (d : t.desc h = s.desc h)
    (hb : ∀ b, b / 4 = s.pxAddr h x y → t.readByte b = s.readByte b) : t.px h x y = s.px h x y := by
  unfold State.px State.memRead
  rw [State.pxAddr_congr d, hb _ (by omega), hb _ (by omega), hb _ (by omega), hb _ (by omega)]

/-- The points of a stepped line (44_raster.md R189). -/
theorem mem_linePoints {x0 y0 x1 y1 : Int} {p : Int × Int} {n : Nat} (hn : n = max (x1 - x0).natAbs (y1 - y0).natAbs) :
    p ∈ linePoints x0 y0 x1 y1 ↔
      (n = 0 ∧ p = (x0, y0)) ∨
      (n ≠ 0 ∧ ∃ i : Nat, i ≤ n ∧ p = (x0 + fdiv (i * (x1 - x0)) n, y0 + fdiv (i * (y1 - y0)) n)) := by
  subst hn
  unfold linePoints
  by_cases h : max (x1 - x0).natAbs (y1 - y0).natAbs = 0
  · simp only [h, if_true]; simp
  · simp only [h, if_false]
    simp only [List.mem_map, List.mem_range, false_and, false_or, ne_eq]
    constructor
    · rintro ⟨i, hi, rfl⟩; exact ⟨h, i, by omega, rfl⟩
    · rintro ⟨-, i, hi, rfl⟩; exact ⟨i, by omega, rfl⟩

/-- The mapping of 45_compositor.md R211, coordinate by coordinate. -/
theorem blitTarget_eq (mh mv : Bool) (rot : BitVec 2) (dx dy sw sh i j : Int) :
    blitTarget mh mv rot dx dy sw sh i j =
      ((if rot = 0 then dx + if mh = true then sw - 1 - i else i else dx + if mv = true then sh - 1 - j else j),
       (if rot = 0 then dy + if mv = true then sh - 1 - j else j
        else dy + (sw - 1 - if mh = true then sw - 1 - i else i))) := by
  unfold blitTarget
  by_cases hr : rot = 0
  · simp only [if_pos hr]
  · simp only [if_neg hr]

/-- BLIT's writes: one for each region offset whose source pixel is in bounds (45_compositor.md R210, R213). -/
theorem State.mem_blitWrites {s : State} {mh mv : Bool} {rot : BitVec 2} {src : Handle} {dx dy sx sy sw sh : Int}
    {p : Int × Int × Word} :
    p ∈ s.blitWrites mh mv rot src dx dy sx sy sw sh ↔
      ∃ i j : Int, 0 ≤ i ∧ i < sw ∧ 0 ≤ j ∧ j < sh ∧ s.inB src (sx + i) (sy + j) = true ∧
        p = ((blitTarget mh mv rot dx dy sw sh i j).1, (blitTarget mh mv rot dx dy sw sh i j).2,
          s.px src (sx + i).toNat (sy + j).toNat) := by
  unfold State.blitWrites
  simp only [List.mem_filterMap, Prod.exists]
  constructor
  · rintro ⟨u, v, hm, h⟩
    obtain ⟨hu, hv⟩ := mem_points.1 hm
    split at h
    · rename_i hc
      refine ⟨u - sx, v - sy, hc.1, hc.2.1, hc.2.2.1, hc.2.2.2, ?_, ?_⟩
      · rw [s.inB_iff]; omega
      · rw [← Option.some.inj h]; simp
    · simp at h
  · rintro ⟨i, j, h1, h2, h3, h4, hin, rfl⟩
    obtain ⟨a1, a2, a3, a4⟩ := (s.inB_iff _ _ _).1 hin
    refine ⟨(sx + i).toNat, (sy + j).toNat, mem_points.2 ⟨by omega, by omega⟩, ?_⟩
    have e1 : ((sx + i).toNat : Int) - sx = i := by omega
    have e2 : ((sy + j).toNat : Int) - sy = j := by omega
    simp only [e1, e2]
    rw [if_pos ⟨h1, h2, h3, h4⟩]

/-- Over a run of the latched command with FATAL = 1, only the fatal lock (60_exceptions.md R234). -/
theorem State.runLatched_of_locked {s : State} (hf : s.status.fatal = true) :
    s.runLatched = .next (s.complete .fatalLock) := by
  unfold State.runLatched
  split
  · exact exec_of_locked hf _
  · exact State.unlessLocked_of_locked hf _

/-- What a run of the latched command leaves to the host port: the inputs, the last response and the parameters, and
BUSY is 0 afterwards (60_exceptions.md R231). -/
theorem State.runLatched_frame {s t : State} (h : s.runLatched = .next t) :
    t.inputs = s.inputs ∧ t.reply = s.reply ∧ t.params = s.params ∧ t.status.busy = false := by
  cases State.runLatched_cases h with
  | effect u hu =>
    obtain ⟨-, -, -, -, -, -, hp, -, hi, hr⟩ := hu.untouched
    exact ⟨hi, hr, hp, rfl⟩
  | error c _ _ => exact ⟨rfl, rfl, rfl, rfl⟩
  | sentinel => exact ⟨rfl, rfl, rfl, rfl⟩
  | fatal => exact ⟨rfl, rfl, rfl, rfl⟩

end Sys2Proof.Machine
end

