-- ==== Sys2Proof/Laws/PerInstr.lean ====
section
/-! SUPPORT. The fields of a command word (30_encoding.md R81), and per constructor that decoding an encoded command
gives it back. -/

namespace Sys2Proof

/-- A word is its fields in order. -/
theorem word_of_fields (w : Word) :
    fieldRsv w ++ fieldRot w ++ BitVec.ofBool (fieldMv w) ++ BitVec.ofBool (fieldMh w) ++ fieldOpc w = w := by
  apply BitVec.eq_of_getLsbD_eq
  intro i hi
  simp only [fieldRsv, fieldRot, fieldMv, fieldMh, fieldOpc, BitVec.getLsbD_append, BitVec.getLsbD_extractLsb']
  interval_cases i <;> simp

/-- The fields of a word put together from fields. -/
theorem fields_of_word (rsv : BitVec 20) (rot : BitVec 2) (mh mv : Bool) (opc : BitVec 8) :
    let w : Word := rsv ++ rot ++ BitVec.ofBool mv ++ BitVec.ofBool mh ++ opc
    fieldOpc w = opc ∧ fieldMh w = mh ∧ fieldMv w = mv ∧ fieldRot w = rot ∧ fieldRsv w = rsv := by
  refine ⟨?_, ?_, ?_, ?_, ?_⟩
  · apply BitVec.eq_of_getLsbD_eq; intro i hi
    simp only [fieldOpc, BitVec.getLsbD_append, BitVec.getLsbD_extractLsb']
    interval_cases i <;> simp
  · simp only [fieldMh, BitVec.getLsbD_append]; simp
  · simp only [fieldMv, BitVec.getLsbD_append]; simp
  · apply BitVec.eq_of_getLsbD_eq; intro i hi
    simp only [fieldRot, BitVec.getLsbD_append, BitVec.getLsbD_extractLsb']
    interval_cases i <;> simp
  · apply BitVec.eq_of_getLsbD_eq; intro i hi
    simp only [fieldRsv, BitVec.getLsbD_append, BitVec.getLsbD_extractLsb']
    interval_cases i <;> simp

theorem legal_iff (w : Word) : legal w = true ↔ ∃ i, decode w = .ok i := by
  unfold legal; split <;> simp_all

namespace Laws.RoundTrip

/-- A well-formed command's word decodes to it. -/
def Statement (i : Instr) : Prop := i.wellFormed = true → decode (encode i) = .ok i

theorem nop : Statement .nop := fun _ => rfl
theorem surfAlloc : Statement .surfAlloc := fun _ => rfl
theorem surfSeal : Statement .surfSeal := fun _ => rfl
theorem palUnpack : Statement .palUnpack := fun _ => rfl
theorem ctLoad : Statement .ctLoad := fun _ => rfl
theorem remap : Statement .remap := fun _ => rfl
theorem fillRect : Statement .fillRect := fun _ => rfl
theorem fillCircle : Statement .fillCircle := fun _ => rfl
theorem fillEllipse : Statement .fillEllipse := fun _ => rfl
theorem fillRing : Statement .fillRing := fun _ => rfl
theorem drawLine : Statement .drawLine := fun _ => rfl
theorem blit (mh mv : Bool) (rot : BitVec 2) : Statement (.blit mh mv rot) := by
  unfold Statement; revert mh mv rot; decide
theorem crop : Statement .crop := fun _ => rfl

end Laws.RoundTrip

end Sys2Proof
end

