-- ==== Sys2Proof/Tests/Slice0.lean ====
section
/-! SUPPORT. Tests with expected values from 95_test_vectors.md and the examples of the command rules, or worked by
hand from the rules; then, for each statement with hypotheses, a witness that meets them. -/

namespace Sys2Proof.Tests

open Sys2Proof.Machine

/-! ### Well-formedness: the ill-formed terms are refused -/

theorem test_wellFormed_refuses_rot2 : (Instr.blit false false 2).wellFormed = false := by decide
theorem test_wellFormed_refuses_rot3 : (Instr.blit true true 3).wellFormed = false := by decide
theorem test_wellFormed_admits_rot1 : (Instr.blit false false 1).wellFormed = true := by decide

/-! ### Decoding: words written out from the encoding column of R86 -/

theorem test_decode_nop : decode 0b00000000000000000000000000000000#32 = .ok .nop := by decide
theorem test_decode_surfAlloc : decode 0b00000000000000000000000000000001#32 = .ok .surfAlloc := by decide
theorem test_decode_surfSeal : decode 0b00000000000000000000000000000010#32 = .ok .surfSeal := by decide
theorem test_decode_palUnpack : decode 0b00000000000000000000000000001000#32 = .ok .palUnpack := by decide
theorem test_decode_ctLoad : decode 0b00000000000000000000000000001001#32 = .ok .ctLoad := by decide
theorem test_decode_remap : decode 0b00000000000000000000000000010000#32 = .ok .remap := by decide
theorem test_decode_fillRect : decode 0b00000000000000000000000000100000#32 = .ok .fillRect := by decide
theorem test_decode_fillCircle : decode 0b00000000000000000000000000100001#32 = .ok .fillCircle := by decide
theorem test_decode_fillEllipse : decode 0b00000000000000000000000000100010#32 = .ok .fillEllipse := by decide
theorem test_decode_fillRing : decode 0b00000000000000000000000000100011#32 = .ok .fillRing := by decide
theorem test_decode_drawLine : decode 0b00000000000000000000000000100100#32 = .ok .drawLine := by decide
theorem test_decode_blit : decode 0b00000000000000000000000000110000#32 = .ok (.blit false false 0) := by decide
theorem test_decode_blit_h : decode 0b00000000000000000000000100110000#32 = .ok (.blit true false 0) := by decide
theorem test_decode_blit_v_r270 : decode 0b00000000000000000000011000110000#32 = .ok (.blit false true 1) := by decide
theorem test_decode_crop : decode 0b00000000000000000000000000110001#32 = .ok .crop := by decide

/-- The rejections by name (R89; TV-CTL-24, TV-BL-9). -/
theorem test_decode_rejects :
    decode 0x00000003 = .error .unassignedOpcode ∧ decode 0x00000025 = .error .unassignedOpcode ∧
      decode 0x000000FF = .error .unassignedOpcode ∧ decode 0x00001000 = .error .reservedBits ∧
      decode 0x00001030 = .error .reservedBits ∧ decode 0x00000100 = .error .modifierBits ∧
      decode 0x00000120 = .error .modifierBits ∧ decode 0x00000830 = .error .reservedRotation ∧
      decode 0x00000C30 = .error .reservedRotation := by decide

theorem test_decodeTableWord : decodeTableWord 32 0x430 = some (.blit false false 1) := by decide
theorem test_decodeTableWord_rejects : decodeTableWord 32 0x830 = none := by decide

/-! ### Small states -/

/-- The state after a command; the reset state where it stops. -/
def after : Result → State
  | .next t => t
  | .fault _ => State.reset
  | .refused _ => State.reset

/-- Latched operands. -/
def withArgs (s : State) (l : List (Fin 8 × Word)) : State :=
  { s with latch := { s.latch with arg := l.foldl (fun v p => v.set p.1.val p.2 p.1.isLt) s.latch.arg } }

/-- Latched text. -/
def withText (s : State) (c : List Byte) : State :=
  { s with latch := { s.latch with text := Vector.ofFn fun k => c.getD k.val 0 } }

/-- The state after reset, with a pixel memory of `n` words. -/
def blank (n : Fin (2 ^ 20 + 1)) : State := { State.reset with params := { Params.standard with pixWords := n } }

/-- Its handle 0 a cleared `w` by `h` surface. -/
def surface (n : Fin (2 ^ 20 + 1)) (w h : Int) : State :=
  match (blank n).alloc 0 w h with
  | .ok t => t
  | .error _ => blank n

/-- The 3 by 2 picture `A B C` / `D E F` of TV-BL, with A..F = 10..15, in a memory of `n` words. -/
def pic (n : Fin (2 ^ 20 + 1)) : State :=
  (surface n 3 2).setPixels 0 [(0, 0, 10), (1, 0, 11), (2, 0, 12), (0, 1, 13), (1, 1, 14), (2, 1, 15)]

/-- The pixels of a surface, row by row. -/
def grid (s : State) (h : Handle) : List Word := (points (s.width h) (s.height h)).map fun p => s.px h p.1 p.2

/-- STATUS after a command. -/
def statusOf (r : Result) : Word := (after r).status.toWord

/-- A command waits for the engine's turn. -/
def running (s : State) : State := { s with status := { s.status with busy := true } }

/-- The state after a fatal error. -/
def locked : State := { State.reset with status := { State.reset.status with fatal := true, err := .palFormat } }

/-! ### One step of each command -/

/-- R100's example; TV-CTL-2. -/
theorem test_nop : statusOf (step (State.reset.withFetchWord 32 0)) = 0x00000002 := by decide +kernel
/-- TV-CTL-25. -/
theorem test_nop_locked : statusOf (exec .nop locked) = 0x00000906 := by decide +kernel

/-- TV-CTL-18. -/
theorem test_surfAlloc_dim : statusOf (exec .surfAlloc (withArgs State.reset [(0, 3), (1, 4096), (2, 0)])) = 0x00000602 := by
  decide +kernel
/-- P2, line 5, from reset: DESCWIN1[2] and ALLOC_PTR. -/
theorem test_surfAlloc :
    let t := after (exec .surfAlloc (withArgs State.reset [(0, 2), (1, 2), (2, 3)]))
    (t.desc 2).word1 = 0x80030002 ∧ t.allocPtr = 6 ∧ grid t 2 = [0, 0, 0, 0, 0, 0] := by decide +kernel

/-- TV-CTL-16. -/
theorem test_surfSeal_sentinel : statusOf (exec .surfSeal (withArgs State.reset [(0, 7)])) = 0x00000012 := by decide +kernel
/-- TV-CTL-14, on a 3 by 2 surface. -/
theorem test_surfSeal : ((after (exec .surfSeal (surface 12 3 2))).desc 0).word1 = 0xC0020003 := by decide +kernel

/-- TV-PAL-9. -/
theorem test_palUnpack :
    let t := after (exec .palUnpack
      (withText (withArgs State.reset [(0, 6)]) [0x36, 0x64, 0x62, 0x36, 0x30, 0x30, 0x7A, 0x7A]))
    t.effPal 0 = 0x6DB600FF ∧ t.palCount = 1 := by decide +kernel
/-- TV-PAL-6. -/
theorem test_palUnpack_malformed :
    statusOf (exec .palUnpack (withText (withArgs State.reset [(0, 6)]) [0x36, 0x64, 0x62, 0x36, 0x30, 0x67])) =
      0x00000106 := by decide +kernel

/-- TV-CT-6. -/
theorem test_ctLoad :
    (after (exec .ctLoad (withText (withArgs State.reset [(0, 0x300)]) [0x31, 0x5A, 0x39]))).slot 0 = 0x80302401 := by
  decide +kernel
/-- TV-CT-14. -/
theorem test_ctLoad_long :
    (after (exec .ctLoad (withText (withArgs State.reset [(0, 0x1203)]) [0x30, 0x31, 0x32, 0x33]))).slot 3 =
      0x81218820 := by decide +kernel

/-- TV-RM-9, on a 3 by 2 surface: no tile, an exact copy. -/
theorem test_remap_copy :
    grid (after (exec .remap (withArgs (pic 12) [(0, 0x0001), (1, 0x100)]))) 1 = [10, 11, 12, 13, 14, 15] := by
  decide +kernel
/-- P4's h1, pixel by pixel: (0,0), (1,0), (8,0), (9,0), (10,0), (16,0). -/
theorem test_remapPixel :
    let s : State := withArgs { ((State.reset.appendPal 0x102030FF).appendPal 0x405060FF).setSlot 0 0x80200020 with
      params := Params.standard } [(1, 0x200)]
    let t := s.setSlot 1 0x80302401
    [t.remapPixel 17 8 0 0 0x55000000, t.remapPixel 17 8 1 0 0x54000000, t.remapPixel 17 8 8 0 0xAA000000,
      t.remapPixel 17 8 9 0 0xFF000000, t.remapPixel 17 8 10 0 0, t.remapPixel 17 8 16 0 0x12345678] =
    [0x405060FF, 0x102030FF, 0xFFFFFFFF, 0x102030FF, 0x405060FF, 0x12345678] := by decide +kernel

/-- TV-FR-5 and TV-FR-6, on a 4 by 1 surface. -/
theorem test_fillRect :
    grid (after (exec .fillRect (withArgs (surface 12 4 1)
      [(1, 0x8000), (3, 0x18000), (4, 0x10000), (5, 7)]))) 0 = [7, 0, 0, 0] ∧
    grid (after (exec .fillRect (withArgs (surface 12 4 1)
      [(1, 0xFFFF8000), (3, 0x20000), (4, 0x10000), (5, 7)]))) 0 = [7, 0, 0, 0] := by decide +kernel
/-- TV-FR-7. -/
theorem test_fillRect_sealed : statusOf (exec .fillRect ((surface 12 3 2).seal 0)) = 0x00000702 := by decide +kernel

/-- TV-FC-7. -/
theorem test_fillCircle :
    grid (after (exec .fillCircle (withArgs (surface 12 3 3) [(1, 0x8000), (2, 0x8000), (3, 0x10000), (5, 7)]))) 0 =
      [7, 7, 0, 7, 0, 0, 0, 0, 0] := by decide +kernel
/-- TV-FC-3: the 13 points. -/
theorem test_covCircle :
    (points 5 5).filter (fun p => covCircle 2 2 2 p.1 p.2) =
      [(2, 0), (1, 1), (2, 1), (3, 1), (0, 2), (1, 2), (2, 2), (3, 2), (4, 2), (1, 3), (2, 3), (3, 3), (2, 4)] := by
  decide +kernel

/-- TV-FE-6. -/
theorem test_fillEllipse :
    grid (after (exec .fillEllipse (withArgs (surface 12 1 1) [(3, 0x7FFF0000), (4, 0x7FFF0000), (5, 7)]))) 0 = [7] := by
  decide +kernel
/-- TV-FE-1 and TV-FE-4. -/
theorem test_covEllipse :
    (points 7 5).filter (fun p => covEllipse 3 2 3 1 p.1 p.2) =
      [(3, 1), (0, 2), (1, 2), (2, 2), (3, 2), (4, 2), (5, 2), (6, 2), (3, 3)] ∧
    (points 5 5).filter (fun p => covEllipse 2 2 0 2 p.1 p.2) = [] := by decide +kernel

/-- TV-FG-1, shifted to the corner of a 3 by 2 surface: centre (1,0). -/
theorem test_fillRing :
    grid (after (exec .fillRing (withArgs (surface 12 3 2) [(1, 0x10000), (3, 0x10000), (4, 0x10000), (5, 7)]))) 0 =
      [7, 0, 7, 0, 7, 0] := by decide +kernel
/-- TV-FG-2 and TV-FG-4. -/
theorem test_covRing :
    (points 5 5).filter (fun p => covRing 2 2 1 2 p.1 p.2) =
      [(2, 0), (1, 1), (2, 1), (3, 1), (0, 2), (1, 2), (3, 2), (4, 2), (1, 3), (2, 3), (3, 3), (2, 4)] ∧
    (points 5 5).filter (fun p => covRing 2 2 2 1 p.1 p.2) = [] := by decide +kernel

/-- TV-DL-1. -/
theorem test_drawLine :
    grid (after (exec .drawLine (withArgs (surface 12 4 2) [(3, 0x30000), (4, 0x10000), (5, 7)]))) 0 =
      [7, 7, 7, 0, 0, 0, 0, 7] := by decide +kernel
/-- TV-DL-3. -/
theorem test_linePoints_negative : linePoints 0 0 (-3) (-1) = [(0, 0), (-1, -1), (-2, -1), (-3, -1)] := by decide +kernel

/-- TV-BL-8: overlap through the snapshot, on the first row of the picture. -/
theorem test_blit_overlap :
    grid (after (exec (.blit false false 0) (withArgs (pic 12) [(1, 0x10000), (5, 0x30000), (6, 0x10000)]))) 0 =
      [10, 10, 11, 13, 14, 15] := by decide +kernel
/-- TV-BL-11's clamping, with the mapping of TV-BL-5 and TV-BL-7 point by point. -/
theorem test_blitTarget :
    blitTarget true false 0 0 0 3 2 0 0 = (2, 0) ∧ blitTarget false false 1 0 0 3 2 2 0 = (0, 0) ∧
      blitTarget false false 1 0 0 3 2 0 1 = (1, 2) ∧ blitTarget false true 1 0 0 3 2 2 1 = (0, 0) := by decide +kernel

/-- TV-CR-2. -/
theorem test_crop :
    let t := after (exec .crop (withArgs (pic 12)
      [(0, 0x0001), (3, 0xFFFF0000), (4, 0xFFFF0000), (5, 0x20000), (6, 0x20000)]))
    grid t 1 = [0, 0, 0, 10] ∧ t.allocPtr = 10 := by decide +kernel
/-- TV-CR-4. -/
theorem test_crop_dim :
    statusOf (exec .crop (withArgs (pic 12) [(0, 0x0001), (5, 0xFFFF0000), (6, 0x10000)])) = 0x00000602 := by decide +kernel

/-- TV-Q. -/
theorem test_intPart :
    intPart 0x00028000 = 2 ∧ intPart 0xFFFF8000 = -1 ∧ intPart 0x7FFFFFFF = 32767 ∧ intPart 0x80000000 = -32768 ∧
      intPart 0x0000FFFF = 0 := by decide +kernel

/-- TV-CTL-1, TV-CTL-10 and TV-CTL-11: ID, an unaligned access, an unmapped offset. -/
theorem test_hostRead :
    (after (step { State.reset with inputs := [.hostRead 0x000 0xF] })).reply = some ⟨false, 0x50545531⟩ ∧
      (after (step { State.reset with inputs := [.hostRead 0x006 0xF] })).reply = some ⟨true, 0⟩ ∧
      (after (step { State.reset with inputs := [.hostRead 0x018 0xF] })).reply = some ⟨false, 0⟩ := by decide +kernel

/-- P3, line 3: a write of 0x12 to STATUS leaves 0x10. -/
theorem test_status_w1c :
    let s : State := { State.reset with status := { State.reset.status with done := true, sent := true } }
    statusOf (step { s with inputs := [busWrite 0x004 0x12] }) = 0x00000010 := by decide +kernel

/-- TV-CTL-7. -/
theorem test_overrun : statusOf (step { running State.reset with inputs := [busWrite 0x00C 0] }) = 0x00000009 := by
  decide +kernel

/-- P2, line 4, as bus writes. -/
theorem test_assembler :
    (Asm.crop 1 0 ⟨1, 0⟩ ⟨0, 0⟩ ⟨3, 0⟩ ⟨2, 0⟩).inputs =
      some [busWrite 0x020 1, busWrite 0x02C 0x10000, busWrite 0x030 0, busWrite 0x034 0x30000, busWrite 0x038 0x20000,
        busWrite 0x00C 0x31] := by decide +kernel

/-- R93: PAL_LOAD's one entry "ffffff", and the WAIT after it with one read of STATUS while the command runs. -/
theorem test_palLoad :
    (Asm.palLoad [(List.replicate 6 0x66, 1)]).inputs =
      some [busWrite 0x020 6, busWrite 0x040 0x66666666, busWrite 0x044 0x6666, busWrite 0x048 0, busWrite 0x04C 0,
        busWrite 0x00C 8, .hostRead 0x004 0xF, .engineTurn, .hostRead 0x004 0xF] := by decide +kernel

/-- R23: a write to CTRL with SOFT_RESET = 0 sets IE and nothing else, its reserved bits ignored. -/
theorem test_ctrl_write :
    (after (step { running State.reset with inputs := [busWrite 0x008 0xFFFFFFFD] })).ie = true := by decide +kernel

/-- R92: the seven writes of a FILL_RECT line, accepted from reset. -/
theorem test_assembled_line :
    let s : State := { State.reset with inputs := ((Asm.fillRect 3 ⟨1, 0⟩ ⟨5, 1⟩ ⟨-15, 1⟩ ⟨2, 0⟩ 9).inputs).getD [] }
    let t := (fun u => after (step u))^[7] s
    t.inputs = [] ∧ t.status.toWord = 1 ∧ t.latch.cmd = 0x20 ∧
      t.latch.arg.toList = [3, 0x10000, 0x8000, 0xFFFE8000, 0x20000, 9, 0, 0] := by decide +kernel

/-! ### Witnesses: states and operands that meet the statements' hypotheses -/

theorem blank_memInv (n : Fin (2 ^ 20 + 1)) : (blank n).MemInv :=
  State.memInv_of_empty (fun h => by simp [State.desc, blank, State.reset]) rfl rfl

theorem surface_memInv {n : Fin (2 ^ 20 + 1)} {w h : Int} (hw : 0 ≤ w ∧ w ≤ 4095) (hh : 0 ≤ h ∧ h ≤ 4095)
    (hf : w.toNat * h.toNat ≤ n.val) : (surface n w h).MemInv := by
  obtain ⟨t, ht⟩ := State.alloc_of_fits (s := blank n) (h := 0) (w := w) (ht := h) (by simp [State.desc, blank, State.reset, Desc.sentinel])
    hw hh (by simpa [blank, State.reset] using hf)
  have e : surface n w h = t := by unfold surface; rw [ht]
  exact e ▸ (blank_memInv n).alloc ht

theorem pic_memInv (n : Fin (2 ^ 20 + 1)) (hn : 6 ≤ n.val) : (pic n).MemInv := by
  have h1 : ((surface n 3 2).desc 0).valid = true := by
    obtain ⟨t, ht⟩ := State.alloc_of_fits (s := blank n) (h := 0) (w := 3) (ht := 2)
      (by simp [State.desc, blank, State.reset, Desc.sentinel]) (by decide) (by decide) (by simpa [blank, State.reset] using hn)
    have e : surface n 3 2 = t := by unfold surface; rw [ht]
    rw [e, (State.alloc_ok ht).descNew]; rfl
  exact (surface_memInv (by decide) (by decide) (by simpa using hn)).setPixels h1 _

theorem withArgs_memInv {s : State} (h : s.MemInv) (l : List (Fin 8 × Word)) : (withArgs s l).MemInv :=
  State.memInv_congr h rfl rfl rfl rfl

theorem running_memInv {s : State} (h : s.MemInv) : (running s).MemInv := State.memInv_congr h rfl rfl rfl rfl

theorem withInputs_inv {s : State} (h : s.Inv) (l : List Input) : ({ s with inputs := l } : State).Inv :=
  ⟨State.memInv_congr h.memory rfl rfl rfl rfl,
    ⟨h.registers.palBound, h.registers.slots, h.registers.cmdLatched, h.registers.sentOk, h.registers.fatalErr⟩⟩

theorem running_inv {s : State} (h : s.Inv) : (running s).Inv :=
  ⟨running_memInv h.memory,
    ⟨h.registers.palBound, h.registers.slots, h.registers.cmdLatched, h.registers.sentOk, h.registers.fatalErr⟩⟩

theorem witness_Inv : (pic 12).Inv := by
  refine ⟨pic_memInv 12 (by decide), ⟨by decide, fun k => ?_, rfl, fun h => ?_, fun h => ?_⟩⟩
  · have e : (pic 12).slot k = 0 := by
      show (State.reset.ctRam)[k.toNat]'k.isLt = 0
      simp [State.reset]
    rw [e]; decide
  · exact absurd h (by decide)
  · exact absurd h (by decide)

theorem witness_DecodeIffEncode :
    decode 0x630 = .ok (.blit false true 1) ∧ (Instr.blit false true 1).wellFormed = true ∧
      encode (.blit false true 1) = 0x630 := by decide

theorem witness_MaskRowsSelectTheDecodedCommand :
    (⟨"BLIT", 0xFFFFF8FF, 0x00000030⟩ : OpcodeRow) ∈ opcodeRows ∧ (0x630 : Word) &&& 0xFFFFF8FF = 0x30 ∧
      decode 0x630 = .ok (.blit false true 1) := by decide

/-- A running command with an illegal word. -/
def illegal : State := { running State.reset with latch := { State.reset.latch with cmd := 0x830 } }

theorem witness_LegalityAndIllegalWords :
    illegal.inputs = [] ∧ illegal.status.busy = true ∧ illegal.status.fatal = false ∧ legal illegal.latch.cmd = false ∧
      legal 0x630 = true ∧ legal 0x830 = false := by decide

/-- The ends of the Q16.16 range, and -0.5. -/
theorem witness_AssembledFillRectIsAccepted :
    (∀ d ∈ [(⟨-32768, 0⟩ : Decimal), ⟨-5, 1⟩, ⟨32767999, 3⟩],
      -32768 * 10 ^ d.scale ≤ d.mantissa ∧ d.mantissa < 32768 * 10 ^ d.scale) ∧
    State.reset.status.busy = false ∧ ∃ ins, (Asm.fillRect 0 ⟨1, 0⟩ ⟨0, 0⟩ ⟨5, 1⟩ ⟨2, 0⟩ 9).inputs = some ins :=
  ⟨by decide, rfl, _, rfl⟩

theorem witness_EngineTurnRunsTheLatchedCommand :
    let s := running State.reset
    s.status.busy = true ∧ decode s.latch.cmd = .ok .nop ∧ s.inputs = [] ∧
      legalAccess 0x010 0xF = true ∧ (s.window 0x010).held = true ∧ (s.window 0x400).held = true ∧
      (s.window 0x100000).held = true ∧ State.reset.status.busy = false ∧ State.reset.inputs = [] ∧
      ({ State.reset with inputs := [.engineTurn] } : State).inputs = .engineTurn :: [] := by decide

theorem witness_LoadedCommandIsTheNextStep :
    0x631 < 2 ^ 32 ∧ decode (BitVec.ofNat 32 0x630) = .ok (.blit false true 1) := by decide

theorem witness_CommonPrologue :
    locked.status.fatal = true ∧ illegal.status.fatal = false ∧ legal illegal.latch.cmd = false ∧
      State.reset.status.fatal = false ∧ legal State.reset.latch.cmd = true := by decide

theorem witness_NopOutcome :
    State.reset.status.fatal = false ∧ locked.status.fatal = true ∧ (∃ t, exec .nop State.reset = .next t) ∧
      (0x100 : Word).extractLsb' 0 8 = 0x00 ∧ (0x100 : Word) ≠ 0 :=
  ⟨rfl, rfl, ⟨_, rfl⟩, by decide, by decide⟩

/-- One clause each, at the edges: -1 and 4096; one word too many; the last word. -/
theorem witness_AllocProcedure :
    ((pic 12).desc 0).valid = true ∧ ((pic 12).desc 1).valid = false ∧
      ¬ (0 ≤ (-1 : Int) ∧ (-1 : Int) ≤ 4095) ∧ ¬ ((4096 : Int) ≤ 4095) ∧
      (pic 12).params.pixWords.val < (pic 12).allocPtr.toNat + 7 * 1 ∧
      (pic 12).allocPtr.toNat + 3 * 2 ≤ (pic 12).params.pixWords.val ∧
      (∃ c, (pic 12).alloc 0 1 1 = .error c) :=
  ⟨by decide, by decide, by decide, by decide, by decide, by decide, _, rfl⟩

theorem witness_SurfAllocOutcome :
    let s (l : List (Fin 8 × Word)) := withArgs (pic 12) l
    (s []).status.fatal = false ∧ ((s []).desc 0).valid = true ∧ ((s []).desc 1).valid = false ∧
      4095 < ((s [(0, 1), (1, 4096)]).larg 1).toNat ∧ 4095 < ((s [(0, 1), (2, 0xFFFFFFFF)]).larg 2).toNat ∧
      (s []).params.pixWords.val < (s []).allocPtr.toNat +
        ((s [(0, 1), (1, 4095), (2, 1)]).larg 1).toNat * ((s [(0, 1), (1, 4095), (2, 1)]).larg 2).toNat ∧
      (s []).allocPtr.toNat + ((s [(0, 1), (1, 3), (2, 2)]).larg 1).toNat * ((s [(0, 1), (1, 3), (2, 2)]).larg 2).toNat ≤
        (s []).params.pixWords.val := by decide

theorem witness_SurfSealOutcome :
    (pic 12).status.fatal = false ∧ ((pic 12).desc 1).valid = false ∧ ((pic 12).desc 0).valid = true ∧
      (((pic 12).seal 0).desc 0).ro = true := by decide

/-- A palette of `n` entries, and the six characters "6db600". -/
def palette (n : BitVec 6) (len : Word) : State :=
  withText (withArgs { State.reset with palCount := n } [(0, len)]) [0x36, 0x64, 0x62, 0x36, 0x30, 0x30, 0x66, 0x66]

/-- The edges of R121's and R142's ranges, and the characters just outside them. -/
theorem witness_HexAndBase32Digits :
    hexVal 0x39 = some 9 ∧ hexVal 0x46 = some 15 ∧ hexVal 0x66 = some 15 ∧
      [0x2F, 0x3A, 0x40, 0x47, 0x60, 0x67].map hexVal = List.replicate 6 none ∧
      digitVal false 0x56 = 31 ∧ digitVal true 0x76 = 31 ∧ digitVal false 0x76 = 0 ∧
      [0x2F, 0x3A, 0x40, 0x57, 0x60, 0x77].map (digitVal true) = List.replicate 6 0 := by decide

theorem witness_PalUnpackOutcome :
    (palette 31 6).status.fatal = false ∧ (palette 31 7).palWellFormed = false ∧ (palette 32 6).palWellFormed = true ∧
      (palette 32 6).palCount.toNat = 32 ∧ (palette 31 8).palWellFormed = true ∧ (palette 31 8).palCount.toNat < 32 := by
  decide

theorem witness_PaletteEntryLaws :
    (∃ t t', exec .palUnpack (palette 31 6) = .next t ∧ exec .palUnpack (palette 0 8) = .next t' ∧
      t.status.err = .ok ∧ t'.status.err = .ok) ∧
    (palette 31 6).palCount.toNat < 32 ∧ (palette 0 8).palCount.toNat < 32 ∧ (palette 31 6).palLen = 6 ∧
      (palette 0 8).palLen = 8 ∧ (∀ k, k < 6 → (palette 31 6).ltext k = (palette 0 8).ltext k) ∧
      (palette 0 8).ltext 6 = 0x66 ∧ (palette 0 8).ltext 7 = 0x66 ∧ (palette 31 8).palLen = (palette 0 8).palLen :=
  ⟨⟨_, _, rfl, rfl, rfl, rfl⟩, by decide, by decide, by decide, by decide, by decide, by decide, by decide, by decide⟩

theorem witness_CtLoadOutcome :
    State.reset.status.fatal = false ∧ ((withArgs State.reset [(0, 0x10000)]).larg 0).getLsbD 16 = true ∧
      ((withArgs State.reset [(0, 0xFFFF)]).larg 0).getLsbD 16 = false := by decide

theorem witness_RemapOutcome :
    (withArgs (pic 12) [(0, 0x0001), (1, 0x100)]).MemInv ∧ (pic 12).status.fatal = false ∧
      (256 < ((withArgs (pic 12) [(1, 0x39C8)]).ctBase + (withArgs (pic 12) [(1, 0x39C8)]).ctCount)) ∧
      ((withArgs (pic 12) [(1, 0x1FF)]).ctBase + (withArgs (pic 12) [(1, 0x1FF)]).ctCount ≤ 256) ∧
      ((pic 12).desc 9).valid = false ∧ ((pic 12).desc 0).valid = true ∧
      (pic 11).params.pixWords.val < (pic 11).allocPtr.toNat + (pic 11).width 0 * (pic 11).height 0 ∧
      (pic 12).allocPtr.toNat + (pic 12).width 0 * (pic 12).height 0 ≤ (pic 12).params.pixWords.val :=
  ⟨withArgs_memInv (pic_memInv 12 (by decide)) _, by decide, by decide, by decide, by decide, by decide, by decide, by decide⟩

/-- TV-RM-8's shape: an 8 by 8 source and the identity table in slot 0. -/
def identityRemap : State := withArgs ((surface 128 8 8).setSlot 0 0x80418820) [(0, 0x0001), (1, 0x100)]

theorem witness_RemapUnderTheIdentityTable :
    identityRemap.MemInv ∧
    (∃ t, exec .remap identityRemap = .next t ∧ t.status.err = .ok ∧ t.status.sent = false) ∧
    (∀ k b : Nat, k < identityRemap.ctCount → b < 4 →
      slotIndex (identityRemap.slot (BitVec.ofNat 8 (identityRemap.ctBase + k))) b = b) ∧
    tileCovered (identityRemap.width identityRemap.src) (identityRemap.height identityRemap.src) identityRemap.ctCount 7 7 =
      true := by
  have hm : (surface 128 8 8).MemInv := surface_memInv (by decide) (by decide) (by decide)
  have hs : ((surface 128 8 8).setSlot 0 0x80418820).MemInv :=
    State.memInv_congr hm (State.setSlot_mem _ _ _) (State.setSlot_descTable _ _ _) (State.setSlot_allocPtr _ _ _)
      (State.setSlot_params _ _ _)
  refine ⟨withArgs_memInv hs _, ⟨_, rfl, rfl, rfl⟩, fun k b hk hb => ?_, by decide⟩
  have h1 : identityRemap.ctCount = 1 := by decide
  have h0 : k = 0 := by omega
  subst h0
  revert b; decide

/-- FILL_RECT, FILL_CIRCLE, FILL_ELLIPSE, FILL_RING and DRAW_LINE share these. -/
theorem witness_DrawOutcome :
    (pic 12).status.fatal = false ∧ ((withArgs (pic 12) [(0, 5)]).desc 5).valid = false ∧
      (((pic 12).seal 0).desc 0).valid = true ∧ (((pic 12).seal 0).desc 0).ro = true ∧
      ((pic 12).desc 0).valid = true ∧ ((pic 12).desc 0).ro = false ∧ (pic 12).surfaceExists 0 = true := by decide

theorem witness_RingFromZeroIsCircle :
    intPart ((withArgs (pic 12) [(4, 0x20000)]).larg 3) = 0 ∧
      ∃ t, exec .fillRing (withArgs (pic 12) [(4, 0x20000)]) = .next t :=
  ⟨by decide, _, rfl⟩

theorem witness_EllipseWithEqualRadiiIsCircle :
    let s := withArgs (pic 12) [(3, 0xFFFF0000), (4, 0xFFFF8000)]
    intPart (s.larg 3) = intPart (s.larg 4) ∧ intPart (s.larg 3) ≠ 0 := by decide

theorem witness_FillTwiceIsFillOnce :
    (∃ t, exec .fillRect (pic 12) = .next t) ∧ (∃ t, exec .drawLine (pic 12) = .next t) := ⟨⟨_, rfl⟩, ⟨_, rfl⟩⟩

theorem witness_LineStepsAreWholePixels :
    (linePoints 0 0 (-3) (-1))[2]? = some (-2, -1) ∧ (linePoints 0 0 (-3) (-1))[3]? = some (-3, -1) := by decide

theorem witness_BlitMappingIsOneToOne :
    (0 : Int) ≤ 2 ∧ (2 : Int) < 3 ∧ (0 : Int) ≤ 1 ∧ (1 : Int) < 2 ∧ (0 : BitVec 2) = 0 ∧ (1 : BitVec 2) = 1 := by decide

theorem witness_BlitOutcome :
    let s := withArgs (pic 12) [(5, 0x30000), (6, 0x20000)]
    s.status.fatal = false ∧ (2 : BitVec 2) ≠ 0 ∧ (2 : BitVec 2) ≠ 1 ∧
      ((withArgs (pic 12) [(0, 0x500)]).desc 5).valid = false ∧ (s.desc 0).valid = true ∧ (s.desc 0).ro = false ∧
      (((pic 12).seal 0).desc 0).ro = true ∧ s.surfaceExists 0 = true ∧
      (2 < intPart (s.larg 5) ∧ 1 < intPart (s.larg 6) ∧ s.inB 0 2 1 = true) := by decide

theorem witness_CropOutcome :
    let s (l : List (Fin 8 × Word)) := withArgs (pic 12) ((0, 1) :: l)
    (s []).MemInv ∧ (s []).status.fatal = false ∧ ((s []).desc 3).valid = false ∧ ((s []).desc 0).valid = true ∧
      ((s []).desc 1).valid = false ∧
      intPart ((s [(5, 0xFFFF0000)]).larg 5) = -1 ∧ intPart ((s [(6, 0x10000000)]).larg 6) = 4096 ∧
      (s []).params.pixWords.val < (s []).allocPtr.toNat + 7 * 1 ∧
      (s []).allocPtr.toNat + 3 * 2 ≤ (s []).params.pixWords.val ∧
      (s []).inB 0 2 1 = true ∧ (s []).inB 0 3 1 = false :=
  ⟨withArgs_memInv (pic_memInv 12 (by decide)) _, by decide, by decide, by decide, by decide, by decide, by decide, by decide,
    by decide, by decide, by decide⟩

theorem witness_CropIsAllocThenBlit :
    let s := withArgs (pic 12) [(0, 1), (3, 0x10000), (5, 0x30000), (6, 0x20000)]
    s.MemInv ∧ ∃ t, exec .crop s = .next t ∧ t.status.err = .ok ∧ t.status.sent = false :=
  ⟨withArgs_memInv (pic_memInv 12 (by decide)) _, _, rfl, rfl, rfl⟩

theorem witness_CompletionWritesStatus :
    (∃ t, exec .surfSeal State.reset = .next t ∧ t.status.sent = true) ∧
      (∃ t, exec .nop locked = .next t ∧ locked.status.fatal = true) :=
  ⟨⟨_, rfl, rfl⟩, ⟨_, rfl, rfl⟩⟩

theorem witness_ErrorsChangeOnlyStatus :
    (∃ t, exec .fillRect ((pic 12).seal 0) = .next t ∧ t.status.err ≠ .ok) ∧
      (∃ t, exec .surfSeal State.reset = .next t ∧ t.status.sent = true) :=
  ⟨⟨_, rfl, by decide⟩, ⟨_, rfl, rfl⟩⟩

theorem witness_FatalOnlyFromPaletteFormat :
    (∃ t, exec .palUnpack State.reset = .next t ∧ State.reset.status.fatal = false ∧ t.status.fatal = true ∧
      t.status.err = .palFormat) ∧
    (∃ t, step locked = .next t ∧ locked.status.fatal = true ∧ locked.resetsNext = false) :=
  ⟨⟨_, rfl, rfl, rfl, rfl⟩, ⟨_, rfl, rfl, rfl⟩⟩

/-- Every code that a legal command can raise, by a command that raises it. -/
theorem witness_CodesComeFromTheirCommands :
    (after (exec .palUnpack State.reset)).status.err = .palFormat ∧
      (after (exec .palUnpack (palette 32 6))).status.err = .palFull ∧
      (after (exec .surfAlloc (pic 12))).status.err = .inUse ∧
      (after (exec .remap (withArgs (pic 11) [(0, 1)]))).status.err = .noMem ∧
      (after (exec .crop (withArgs (pic 12) [(0, 1), (5, 0xFFFF0000)]))).status.err = .dim ∧
      (after (exec .drawLine ((pic 12).seal 0))).status.err = .readOnly ∧
      (after (exec (.blit true false 1) ((pic 12).seal 0))).status.err = .readOnly ∧
      (after (exec .remap (withArgs (pic 12) [(1, 0x39C8)]))).status.err = .ctRange ∧
      (after (exec .nop locked)).status.err = .fatalLock := by decide

theorem witness_CommandsLeaveHostRegistersAlone : ∃ t, exec .remap (withArgs (pic 12) [(0, 1)]) = .next t := ⟨_, rfl⟩

/-- A surface that ends past the last word, as no reachable state has. -/
def overhang : State := withArgs { pic 12 with params := { Params.standard with pixWords := 5 } } []

theorem witness_EngineStopsOnNonexistentWords :
    overhang.status.fatal = false ∧ (overhang.desc overhang.dst).valid = true ∧ (overhang.desc overhang.dst).ro = false ∧
      overhang.surfaceExists overhang.dst = false ∧ (overhang.desc overhang.src).valid = true ∧
      overhang.surfaceExists overhang.src = false ∧ overhang.ctBase + overhang.ctCount ≤ 256 ∧
      (let s := { overhang.setDesc 1 ⟨true, false, 1, 1, 0⟩ with latch := (withArgs overhang [(0, 0x0100)]).latch }
       (s.desc s.src).valid = true ∧ s.surfaceExists s.src = true ∧ s.surfaceExists s.dst = false) := by decide

theorem witness_IrqIsALevel :
    let s : State := { State.reset with ie := true, status := { State.reset.status with done := true } }
    s.ie = true ∧ s.status.done = true ∧ (∃ t, exec .nop s = .next t) ∧
      (∃ t, step { s with inputs := [.hostWrite 0x008 0xF 1] } = .next t) ∧ (1 : Word).getLsbD 1 = false ∧
      (1 : Word).getLsbD 0 = true ∧ (0 : Word).getLsbD 0 = false ∧
      (∃ t, step { s with inputs := [.hostWrite 0x004 0xF 2] } = .next t) ∧ (2 : Word).getLsbD 1 = true :=
  ⟨rfl, rfl, ⟨_, rfl⟩, ⟨_, rfl⟩, by decide, by decide, by decide, ⟨_, rfl⟩, by decide⟩

theorem witness_StatusRegister :
    ({ State.reset with inputs := [.hostWrite 0x004 0xF 0xA] } : State).inputs = .hostWrite 0x004 0xF 0xA :: [] := rfl

theorem witness_CommandAcceptance :
    ({ State.reset with inputs := [.hostWrite 0x00C 0xF 0x20] } : State).status.busy = false ∧
      ({ running State.reset with inputs := [.hostWrite 0x00C 0xF 0x20] } : State).status.busy = true ∧
      ({ State.reset with inputs := [.hostRead 0x00C 0xF] } : State).inputs = .hostRead 0x00C 0xF :: [] := by decide

theorem witness_HostRegisterWrites :
    ({ running State.reset with inputs := [busWrite (0x020 + 4 * 7) 0x1234] } : State).inputs =
      .hostWrite (BitVec.ofNat 23 (0x020 + 4 * (7 : Fin 8).val)) 0xF 0x1234 :: [] ∧
    ({ running State.reset with inputs := [busWrite (0x040 + 4 * 3) 0x1234] } : State).inputs =
      .hostWrite (BitVec.ofNat 23 (0x040 + 4 * (3 : Fin 4).val)) 0xF 0x1234 :: [] ∧
    ({ running State.reset with inputs := [busWrite 0x008 0xFFFFFFFD] } : State).inputs =
      .hostWrite 0x008 0xF 0xFFFFFFFD :: [] ∧ (0xFFFFFFFD : Word).getLsbD 1 = false ∧
    (let t := after (step { State.reset with inputs := [busWrite 0x008 1, .engineTurn] })
     t.ie = true ∧ t.inputs = [.engineTurn]) := by decide

theorem witness_IllegalAccessIsABusError :
    (0x1 : BitVec 4) ≠ 0xF ∧ ¬ 4 ∣ (0x006 : HostAddr).toNat ∧ ¬ 4 ∣ (0x7FFFFF : HostAddr).toNat := by decide

theorem witness_AddressMapReads :
    (running (pic 12)).status.busy = true ∧
      ({ running (pic 12) with inputs := [.hostRead 0x004 0xF] } : State).inputs =
        .hostRead (BitVec.ofNat 23 0x004) 0xF :: [] ∧
      (pic 12).status.busy = false ∧ 11 < (pic 12).params.pixWords.val ∧
      ({ pic 12 with inputs := [.hostRead (BitVec.ofNat 23 (0x100000 + 4 * 11)) 0xF] } : State).inputs =
        .hostRead (BitVec.ofNat 23 (0x100000 + 4 * 11)) 0xF :: [] := by decide

/-- The offsets where the ranges of R62 meet. -/
theorem witness_ReadOnlyAndUnmappedOffsets :
    [0x018, 0x01C, 0x050, 0x0FC, 0x180, 0x3FC, 0x1000, 0xFFFFC, 0x100030, 0x7FFFFC].map (windowAt 12) =
      List.replicate 10 .unmapped ∧
    [0x000, 0x010, 0x014, 0x100, 0x17C, 0x400, 0x7FC, 0x800, 0xFFC].map (windowAt 12) =
      [.id, .palCount, .allocPtr, .palWin 0, .palWin 31, .ctWin 0, .ctWin 255, .descWin0 0, .descWin1 255] ∧
    windowAt 12 0x10002C = .pixWin 11 ∧ windowAt 12 0x04C = .text 3 ∧ windowAt 12 0x020 = .arg 0 := by decide

theorem witness_PixelWindow :
    (pic 12).status.busy = false ∧ 11 < (pic 12).params.pixWords.val ∧
      ({ pic 12 with inputs := [busWrite (0x100000 + 4 * 11) 5] } : State).inputs =
        .hostWrite (BitVec.ofNat 23 (0x100000 + 4 * 11)) 0xF 5 :: [] := by decide

/-- Held: the ends of the held ranges; not held: CMD, TEXT3, and the first unmapped offset past pixel memory. -/
theorem witness_HeldWindows :
    (running (pic 12)).status.busy = true ∧
      (∃ t, step { running (pic 12) with inputs := [.hostRead (BitVec.ofNat 23 0x014) 0xF] } = .next t) ∧
      (∃ t, step { running (pic 12) with inputs := [busWrite 0x10002C 5] } = .next t) ∧
      (∃ t, step { running (pic 12) with inputs := [.hostRead (BitVec.ofNat 23 0x100030) 0xF] } = .next t) ∧
      (∃ t, step { running (pic 12) with inputs := [busWrite 0x04C 5] } = .next t) ∧
      (∃ t, step { running (pic 12) with inputs := [busWrite 0x00C 5] } = .next t ∧
        State.resetsNext { running (pic 12) with inputs := [busWrite 0x00C 5] } = false) :=
  ⟨rfl, ⟨_, rfl⟩, ⟨_, rfl⟩, ⟨_, rfl⟩, ⟨_, rfl⟩, ⟨_, rfl, rfl⟩⟩

theorem witness_HardResetValues :
    ({ running (pic 12) with inputs := [.hardReset] } : State).inputs = .hardReset :: [] := rfl

theorem witness_SoftResetIsAReset : (0x2 : Word).getLsbD 1 = true ∧ (0x3 : Word).getLsbD 1 = true := by decide

theorem witness_AcceptedCommandCompletes :
    (running (pic 12)).Inv ∧ (running (pic 12)).status.busy = true ∧ (running (pic 12)).inputs = [] :=
  ⟨running_inv witness_Inv, rfl, rfl⟩

/-- Also the witness of StepNeverStops and ParametersNeverChange. -/
theorem witness_StepKeepsInv : (running (pic 12)).Inv ∧ ∃ t, step (running (pic 12)) = .next t :=
  ⟨running_inv witness_Inv, _, rfl⟩

theorem witness_HandlesStayValid :
    (∃ t, step (running (pic 12)) = .next t) ∧ (running (pic 12)).resetsNext = false ∧
      ((running (pic 12)).desc 0).valid = true :=
  ⟨⟨_, rfl⟩, rfl, by decide⟩

theorem seal_inv {s : State} (h : s.Inv) (k : Handle) (hv : (s.desc k).valid = true) : (s.seal k).Inv :=
  ⟨h.memory.seal hv,
    ⟨h.registers.palBound, h.registers.slots, h.registers.cmdLatched, h.registers.sentOk, h.registers.fatalErr⟩⟩

/-- The picture sealed, and a host write to the word after it. -/
def sealedPic : State := { (pic 12).seal 0 with inputs := [busWrite 0x100018 5] }

theorem witness_SealedSurfacesKeepTheirPixels :
    sealedPic.Inv ∧ (∃ t, step sealedPic = .next t) ∧ sealedPic.resetsNext = false ∧
      (∀ i ∈ sealedPic.inputs.head?, i.spares sealedPic 0) ∧ (sealedPic.desc 0).valid = true ∧
      (sealedPic.desc 0).ro = true ∧ sealedPic.covers 0 5 := by
  refine ⟨withInputs_inv (seal_inv witness_Inv 0 (by decide)) _, ⟨_, rfl⟩, by decide, fun i hi => ?_, by decide, by decide,
    by unfold State.covers; decide⟩
  obtain rfl : i = busWrite 0x100018 5 := by simpa [sealedPic] using hi.symm
  intro a ha
  have e : sealedPic.window (BitVec.ofNat 23 0x100018) = .pixWin 6 := by decide
  rw [e] at ha
  obtain rfl : 6 = a := by simpa using ha
  unfold State.covers; decide

theorem witness_PaletteIsAppendOnly :
    (running (pic 12)).Inv ∧ (∃ t, step (running (pic 12)) = .next t) ∧ (running (pic 12)).resetsNext = false :=
  ⟨running_inv witness_Inv, ⟨_, rfl⟩, rfl⟩

theorem witness_CommandsDoNotReadFreeContent : (pic 12).Inv := witness_Inv

end Sys2Proof.Tests
end

section
/-! A host access to CMD (10_state.md R24, R37). -/

namespace Sys2Proof.Machine

theorem State.popInput_eq {s : State} {i : Input} {rest : List Input} (hi : s.inputs = i :: rest) :
    s.popInput = { s with inputs := rest } := by
  simp [State.popInput, hi]

theorem State.writeCmd_busy {s : State} (hb : s.status.busy = true) (w : Word) :
    s.writeCmd w = { s with status := { s.status with cmdOvr := true } } :=
  if_pos hb

theorem State.writeCmd_idle {s : State} (hb : s.status.busy = false) (w : Word) : s.writeCmd w = s.accept w := by
  simp [State.writeCmd, hb]

/-- R27: byte k is lane k mod 4 of the register TEXT(k / 4). -/
theorem State.textBytes_getElem (s : State) (k : Fin 16) :
    s.textBytes[k.val] = (s.text[k.val / 4]'(by omega)).extractLsb' (8 * (k.val % 4)) 8 := by
  simp [State.textBytes]

/-- CMD is never held, so a write to it completes at once, BUSY or not. -/
theorem State.writeCompletes_cmd {s : State} {w : Word} {rest : List Input}
    (hi : s.inputs = .hostWrite 0x00C 0xF w :: rest) :
    s.WriteCompletes (s.popInput.writeCmd w) :=
  State.writeCompletes_of_not_held (off := 0x00C) (by decide) (by decide) hi (.inr rfl)

theorem step_read_cmd {s : State} {rest : List Input} (hi : s.inputs = .hostRead 0x00C 0xF :: rest) :
    step s = .next { s with inputs := rest, reply := some { busError := false, data := s.cmd } } :=
  step_read_of_not_held (off := 0x00C) (by decide) (by decide) hi (.inr rfl)

/-- Settles O43: the three accesses to CMD, each by its own rule above; the latch is the one `State.accept` stores. -/
theorem commandAcceptance : Obligations.CommandAcceptance := by
  refine ⟨rfl, fun s w rest => ⟨fun hi => ⟨fun hb => ?busy, fun hb => ?idle⟩, step_read_cmd⟩⟩
  case busy =>
    have hw := State.writeCompletes_cmd hi
    rwa [State.writeCmd_busy (s := s.popInput) hb, State.popInput_eq hi] at hw
  case idle =>
    have hw := State.writeCompletes_cmd hi
    rw [State.writeCmd_idle (s := s.popInput) hb, State.popInput_eq hi] at hw
    refine ⟨{ cmd := w, arg := s.args, text := s.textBytes }, rfl, fun _ => rfl, fun k => ?_, hw⟩
    have lane : k.val - 4 * (k.val / 4) = k.val % 4 := by omega
    rw [lane]
    exact s.textBytes_getElem k

end Sys2Proof.Machine
end

section
/-! Which words decode, and to what (30_encoding.md R82, R86). A word decodes to a command iff it is the word that the
encoder gives the command (`decode_eq_ok_iff`), so the table's rows and the legal words are told by the encoder's words. -/

namespace Sys2Proof

/-- A word whose fields other than OPC are 0 is the plain word of its OPC. -/
theorem encodePlain_fieldOpc {w : Word} (hrsv : fieldRsv w = 0) (hmh : fieldMh w = false) (hmv : fieldMv w = false)
    (hrot : fieldRot w = 0) : encodePlain (fieldOpc w) = w := by
  have e := word_of_fields w
  rw [hrsv, hmh, hmv, hrot] at e
  exact e

/-- A word with RSV = 0 and BLIT's OPC is the word of the BLIT with its fields. -/
theorem encode_blit_of_fields {w : Word} (hrsv : fieldRsv w = 0) (hopc : fieldOpc w = 0x30) :
    encode (.blit (fieldMh w) (fieldMv w) (fieldRot w)) = w := by
  have e := word_of_fields w
  rw [hrsv, hopc] at e
  exact e

/-- What `decodePlain` accepts: the command given, on its own word. -/
theorem encode_of_decodePlain {w : Word} {opc : BitVec 8} {i j : Instr} (hj : j.wellFormed = true)
    (he : encode j = encodePlain opc) (hrsv : fieldRsv w = 0) (hopc : fieldOpc w = opc) (h : decodePlain w j = .ok i) :
    i.wellFormed = true ∧ encode i = w := by
  unfold decodePlain at h
  split at h
  case isTrue hm =>
    obtain ⟨hmh, hmv, hrot⟩ := hm
    obtain rfl : j = i := Except.ok.inj h
    exact ⟨hj, by rw [he, ← hopc, encodePlain_fieldOpc hrsv hmh hmv hrot]⟩
  case isFalse => cases h

/-- What `decodeBlit` accepts on a word of BLIT's OPC: the BLIT with the word's fields. -/
theorem encode_of_decodeBlit {w : Word} {i : Instr} (hrsv : fieldRsv w = 0) (hopc : fieldOpc w = 0x30)
    (h : decodeBlit w = .ok i) : i.wellFormed = true ∧ encode i = w := by
  unfold decodeBlit at h
  split at h
  case isTrue hrot =>
    obtain rfl := Except.ok.inj h
    exact ⟨by simpa [Instr.wellFormed] using hrot, encode_blit_of_fields hrsv hopc⟩
  case isFalse => cases h

/-- The opcode map in its order: eleven commands without modifiers, BLIT, CROP. -/
theorem encode_of_decodeOpc {w : Word} {i : Instr} (hrsv : fieldRsv w = 0) (h : decodeOpc w = .ok i) :
    i.wellFormed = true ∧ encode i = w := by
  unfold decodeOpc at h
  iterate 11
    obtain ⟨hopc, h⟩ | ⟨-, h⟩ := ite_eq_iff.1 h
    · exact encode_of_decodePlain rfl rfl hrsv hopc h
  obtain ⟨hopc, h⟩ | ⟨-, h⟩ := ite_eq_iff.1 h
  · exact encode_of_decodeBlit hrsv hopc h
  obtain ⟨hopc, h⟩ | ⟨-, h⟩ := ite_eq_iff.1 h
  · exact encode_of_decodePlain rfl rfl hrsv hopc h
  · cases h

/-- Every command by its round trip. -/
theorem decode_encode {i : Instr} (h : i.wellFormed = true) : decode (encode i) = .ok i := by
  cases i with
  | nop => exact Laws.RoundTrip.nop h
  | surfAlloc => exact Laws.RoundTrip.surfAlloc h
  | surfSeal => exact Laws.RoundTrip.surfSeal h
  | palUnpack => exact Laws.RoundTrip.palUnpack h
  | ctLoad => exact Laws.RoundTrip.ctLoad h
  | remap => exact Laws.RoundTrip.remap h
  | fillRect => exact Laws.RoundTrip.fillRect h
  | fillCircle => exact Laws.RoundTrip.fillCircle h
  | fillEllipse => exact Laws.RoundTrip.fillEllipse h
  | fillRing => exact Laws.RoundTrip.fillRing h
  | drawLine => exact Laws.RoundTrip.drawLine h
  | blit mh mv rot => exact Laws.RoundTrip.blit mh mv rot h
  | crop => exact Laws.RoundTrip.crop h

/-- A word decodes to a command iff the command is well formed and this is its word. -/
theorem decode_eq_ok_iff (w : Word) (i : Instr) : decode w = .ok i ↔ i.wellFormed = true ∧ encode i = w := by
  constructor
  · intro h
    unfold decode at h
    split at h
    case isTrue hrsv => exact encode_of_decodeOpc hrsv h
    case isFalse => cases h
  · rintro ⟨hi, rfl⟩
    exact decode_encode hi

theorem legal_encode {i : Instr} (h : i.wellFormed = true) : legal (encode i) = true :=
  (legal_iff _).2 ⟨i, decode_encode h⟩

/-! ### The mask and match rows -/

theorem fieldOpc_and (v w : Word) : fieldOpc (v &&& w) = fieldOpc v &&& fieldOpc w := BitVec.extractLsb'_and
theorem fieldRot_and (v w : Word) : fieldRot (v &&& w) = fieldRot v &&& fieldRot w := BitVec.extractLsb'_and
theorem fieldRsv_and (v w : Word) : fieldRsv (v &&& w) = fieldRsv v &&& fieldRsv w := BitVec.extractLsb'_and

/-- BLIT's row, which alone masks fields out. -/
def blitRow : OpcodeRow := ⟨"BLIT", 0xFFFFF8FF, 0x00000030⟩

/-- BLIT's mask keeps RSV, OPC and the upper bit of ROT, so the words it selects are the legal words of BLIT's OPC. -/
theorem decode_of_blitRow_selects {w : Word} (h : w &&& blitRow.mask = blitRow.pattern) :
    ∃ i, decode w = .ok i ∧ i.mnemonic = blitRow.mnemonic := by
  have hrsv : fieldRsv w = 0 := by
    have e := congrArg fieldRsv h
    rwa [fieldRsv_and, show fieldRsv blitRow.mask = BitVec.allOnes 20 from rfl, BitVec.and_allOnes] at e
  have hopc : fieldOpc w = 0x30 := by
    have e := congrArg fieldOpc h
    rwa [fieldOpc_and, show fieldOpc blitRow.mask = BitVec.allOnes 8 from rfl, BitVec.and_allOnes] at e
  have hrot : (Instr.blit (fieldMh w) (fieldMv w) (fieldRot w)).wellFormed = true := by
    have e := congrArg fieldRot h
    rw [fieldRot_and] at e
    change fieldRot w &&& 2 = 0 at e
    have low : ∀ r : BitVec 2, r &&& 2 = 0 → (r == 0 || r == 1) = true := by decide
    exact low _ e
  exact ⟨_, (decode_eq_ok_iff _ _).2 ⟨hrot, encode_blit_of_fields hrsv hopc⟩, rfl⟩

/-- Every other row of the table has a full mask, and its pattern decodes to the row's command. -/
theorem blitRow_or_full {r : OpcodeRow} (hr : r ∈ opcodeRows) :
    r = blitRow ∨ (r.mask = BitVec.allOnes 32 ∧ (decode r.pattern).toOption.map Instr.mnemonic = some r.mnemonic) := by
  revert r
  decide

/-- A full mask selects the pattern alone. -/
theorem decode_of_fullRow_selects {w : Word} {r : OpcodeRow} (hmask : r.mask = BitVec.allOnes 32)
    (hpat : (decode r.pattern).toOption.map Instr.mnemonic = some r.mnemonic) (h : w &&& r.mask = r.pattern) :
    ∃ i, decode w = .ok i ∧ i.mnemonic = r.mnemonic := by
  rw [hmask, BitVec.and_allOnes] at h
  subst h
  cases hd : decode r.pattern with
  | error e => simp [hd, Except.toOption] at hpat
  | ok i => exact ⟨i, rfl, by simpa [hd, Except.toOption] using hpat⟩

/-- The row of a command's mnemonic selects the command's word. -/
theorem row_selects_encode {i : Instr} (hi : i.wellFormed = true) :
    ∀ r ∈ opcodeRows, i.mnemonic = r.mnemonic → encode i &&& r.mask = r.pattern := by
  cases i with
  | blit mh mv rot => revert mh mv rot; decide
  | _ => decide

theorem exists_row_of_mnemonic (i : Instr) : ∃ r ∈ opcodeRows, i.mnemonic = r.mnemonic := by
  cases i with
  | blit mh mv rot => exact ⟨blitRow, by decide, rfl⟩
  | _ => decide

/-- Settles O3: a selected word decodes, row by row; a decoded word is its command's, which the command's row selects. -/
theorem maskRowsSelectTheDecodedCommand : Obligations.MaskRowsSelectTheDecodedCommand := by
  refine ⟨fun w r hr => ⟨fun h => ?selected, ?decoded⟩, fun w i _ => exists_row_of_mnemonic i⟩
  case selected =>
    rcases blitRow_or_full hr with rfl | ⟨hmask, hpat⟩
    · exact decode_of_blitRow_selects h
    · exact decode_of_fullRow_selects hmask hpat h
  case decoded =>
    rintro ⟨i, hd, hm⟩
    obtain ⟨hi, rfl⟩ := (decode_eq_ok_iff w i).1 hd
    exact row_selects_encode hi r hr hm

/-! ### Legal words -/

/-- The 13 values of OPC (R86). -/
def opcodes : List (BitVec 8) := [0x00, 0x01, 0x02, 0x08, 0x09, 0x10, 0x20, 0x21, 0x22, 0x23, 0x24, 0x30, 0x31]

/-- R82: the four conditions of a legal word, by its fields. -/
def FieldsLegal (w : Word) : Prop :=
  fieldOpc w ∈ opcodes ∧ fieldRsv w = 0 ∧
  (fieldOpc w ≠ 0x30 → fieldMh w = false ∧ fieldMv w = false ∧ fieldRot w = 0) ∧
  (fieldOpc w = 0x30 → fieldRot w = 0 ∨ fieldRot w = 1)

theorem fieldsLegal_encode {i : Instr} (hi : i.wellFormed = true) : FieldsLegal (encode i) := by
  unfold FieldsLegal
  cases i with
  | blit mh mv rot => revert mh mv rot; decide
  | _ => decide

theorem legal_of_fieldsLegal {w : Word} (h : FieldsLegal w) : legal w = true := by
  obtain ⟨hopc, hrsv, hplain, hblit⟩ := h
  by_cases hb : fieldOpc w = 0x30
  · rw [← encode_blit_of_fields hrsv hb]
    exact legal_encode (by simpa [Instr.wellFormed] using hblit hb)
  · obtain ⟨hmh, hmv, hrot⟩ := hplain hb
    have plain : ∀ opc ∈ opcodes, opc ≠ 0x30 → legal (encodePlain opc) = true := by decide
    rw [← encodePlain_fieldOpc hrsv hmh hmv hrot]
    exact plain _ hopc hb

theorem legal_iff_fieldsLegal (w : Word) : legal w = true ↔ FieldsLegal w := by
  refine ⟨fun h => ?_, legal_of_fieldsLegal⟩
  obtain ⟨i, hd⟩ := (legal_iff w).1 h
  obtain ⟨hi, rfl⟩ := (decode_eq_ok_iff w i).1 hd
  exact fieldsLegal_encode hi

end Sys2Proof

namespace Sys2Proof.Machine

/-- A run of an illegal word with FATAL = 0 (60_exceptions.md R234). -/
theorem State.runLatched_of_illegal {s : State} (hf : s.status.fatal = false) (hl : legal s.latch.cmd = false) :
    s.runLatched = .next (s.complete .illegal) := by
  unfold State.runLatched
  split
  case h_1 i hd => rw [(legal_iff _).2 ⟨i, hd⟩] at hl; cases hl
  case h_2 => exact State.unlessLocked_of_live hf _

theorem State.engineTurn_of_busy {s : State} (hb : s.status.busy = true) : s.engineTurn = s.runLatched := if_pos hb

/-- Settles O4: legal words by their fields; the step on an illegal one is the engine's turn, which ends in E_ILLEGAL. -/
theorem legalityAndIllegalWords : Obligations.LegalityAndIllegalWords := by
  refine ⟨legal_iff_fieldsLegal, fun s hi hb hf hl => ?_⟩
  calc step s = s.engineTurn := step_noInput hi
    _ = s.runLatched := State.engineTurn_of_busy hb
    _ = .next (s.complete .illegal) := State.runLatched_of_illegal hf hl

end Sys2Proof.Machine
end

section
/-! NOP, `Alloc`, SURF_ALLOC and SURF_SEAL (40_control.md R100, R103, R104, R106). -/

namespace Sys2Proof

/-- R100: NOP's word is the only legal word of its OPC. -/
theorem legal_eq_false_of_zero_opc {w : Word} (hopc : fieldOpc w = 0x00) (hw : w ≠ 0) : legal w = false := by
  rw [Bool.eq_false_iff, ne_eq, legal_iff_fieldsLegal]
  rintro ⟨-, hrsv, hplain, -⟩
  obtain ⟨hmh, hmv, hrot⟩ := hplain (by rw [hopc]; decide)
  have e := encodePlain_fieldOpc hrsv hmh hmv hrot
  rw [hopc] at e
  exact hw e.symm

end Sys2Proof

namespace Sys2Proof.Machine

/-- NOP completes, with the lock's code or with OK, in every state. -/
theorem exec_nop_completes (s : State) : ∃ c, exec .nop s = .next (s.complete c) := by
  cases hf : s.status.fatal with
  | true => exact ⟨_, exec_of_locked hf _⟩
  | false => exact ⟨_, exec_nop hf⟩

/-- After a completion DONE is 1, so the interrupt level is IE (R240). -/
@[simp] theorem State.complete_irq (s : State) (c : ErrCode) : (s.complete c).irq = s.ie := Bool.and_true _

/-- Settles O10: NOP's two completions, and the words of its OPC that R82 makes illegal. -/
theorem nopOutcome : Obligations.NopOutcome := by
  refine ⟨fun s => ⟨exec_nop, fun hf => exec_of_locked hf _, fun t h => ?irq⟩,
    fun w hopc hw => legal_eq_false_of_zero_opc hopc hw,
    fun s hf hopc hw => State.runLatched_of_illegal hf (legal_eq_false_of_zero_opc hopc hw), _, rfl, rfl⟩
  case irq =>
    obtain ⟨c, hc⟩ := exec_nop_completes s
    obtain rfl := Host.Outcome.next.inj (hc.symm.trans h)
    exact s.complete_irq c

/-! ### `Alloc` -/

theorem State.alloc_inUse {s : State} {h : Handle} (hv : (s.desc h).valid = true) (w ht : Int) :
    s.alloc h w ht = .error .inUse :=
  State.alloc_error_iff.2 (.inl ⟨hv, rfl⟩)

theorem State.alloc_dim {s : State} {h : Handle} {w ht : Int} (hv : (s.desc h).valid = false)
    (hd : ¬ (0 ≤ w ∧ w ≤ 4095 ∧ 0 ≤ ht ∧ ht ≤ 4095)) : s.alloc h w ht = .error .dim :=
  State.alloc_error_iff.2 (.inr (.inl ⟨hv, by omega, rfl⟩))

theorem State.alloc_noMem {s : State} {h : Handle} {w ht : Int} (hv : (s.desc h).valid = false)
    (hd : 0 ≤ w ∧ w ≤ 4095 ∧ 0 ≤ ht ∧ ht ≤ 4095)
    (hn : s.params.pixWords.val < s.allocPtr.toNat + w.toNat * ht.toNat) : s.alloc h w ht = .error .noMem :=
  State.alloc_error_iff.2 (.inr (.inr ⟨hv, by omega, hn, rfl⟩))

theorem State.Allocated.gainsSurface {s t : State} {h : Handle} {w ht : Int} (A : s.Allocated t h w ht) :
    s.GainsSurface t h w.toNat ht.toNat :=
  { desc := A.descNew, width := A.width, height := A.height, otherDescs := A.descOther, allocPtr := A.allocPtr
    otherBytes := A.outside, onlyAllocation := A.others }

/-- A completion writes STATUS, which the surface gained does not speak of. -/
theorem State.GainsSurface.complete {s t : State} {h : Handle} {w ht : Nat} (G : s.GainsSurface t h w ht)
    (c : ErrCode) : s.GainsSurface (t.complete c) h w ht :=
  { desc := G.desc, width := G.width, height := G.height, otherDescs := G.otherDescs, allocPtr := G.allocPtr
    otherBytes := G.otherBytes, onlyAllocation := State.sameButAllocation_complete G.onlyAllocation c }

/-- Settles O11: a lemma for each failing check, and `State.Allocated` for the success. -/
theorem allocProcedure : Obligations.AllocProcedure := by
  intro s h w ht
  refine ⟨fun hv => State.alloc_inUse hv w ht, State.alloc_dim, State.alloc_noMem, ?success,
    fun c body e => State.allocThen_of_error e body⟩
  case success =>
    rintro hv ⟨hw0, hw1, hh0, hh1⟩ hf
    obtain ⟨t, e⟩ := State.alloc_of_fits hv ⟨hw0, hw1⟩ ⟨hh0, hh1⟩ hf
    have A := State.alloc_ok e
    exact ⟨t, e, A.gainsSurface, A.status, A.cleared⟩

/-! ### SURF_ALLOC -/

theorem exec_surfAlloc_of_error {s : State} {c : ErrCode} (hf : s.status.fatal = false)
    (e : s.alloc s.dst s.allocW s.allocH = .error c) : exec .surfAlloc s = .next (s.complete c) :=
  (exec_surfAlloc hf).trans (State.allocThen_of_error e id)

/-- Settles O12: SURF_ALLOC ends as `Alloc` does on ARG1 and ARG2, which as unsigned numbers are never below 0. -/
theorem surfAllocOutcome : Obligations.SurfAllocOutcome := by
  intro s hf
  refine ⟨fun hv => exec_surfAlloc_of_error hf (State.alloc_inUse hv _ _),
    fun hv hd => exec_surfAlloc_of_error hf (State.alloc_dim hv ?dim),
    fun hv hw hh hn => exec_surfAlloc_of_error hf (State.alloc_noMem hv ?range hn),
    fun hv hw hh hfit => ?success⟩
  case dim => unfold State.allocW State.allocH; omega
  case range => unfold State.allocW State.allocH; omega
  case success =>
    obtain ⟨t, e⟩ := State.alloc_of_fits (w := s.allocW) (ht := s.allocH) hv ⟨by omega, Int.ofNat_le.2 hw⟩
      ⟨by omega, Int.ofNat_le.2 hh⟩ hfit
    have A := State.alloc_ok e
    exact ⟨t.complete .ok, (exec_surfAlloc hf).trans (State.allocThen_of_ok e id), A.gainsSurface.complete .ok,
      congrArg (·.complete .ok) A.status, A.cleared⟩

/-! ### SURF_SEAL -/

theorem State.desc_seal (s : State) (h k : Handle) :
    (s.seal h).desc k = if k = h then { s.desc h with ro := true } else s.desc k :=
  s.desc_setDesc h k _

/-- R107: sealing a sealed surface changes no descriptor. -/
theorem State.desc_seal_of_ro {s : State} {h : Handle} (hr : (s.desc h).ro = true) (k : Handle) :
    (s.seal h).desc k = s.desc k := by
  rw [State.desc_seal]
  split
  case isTrue hk => rw [hk, ← hr]
  case isFalse => rfl

/-- Settles O13: the sentinel, or `State.seal`, which writes the one descriptor. -/
theorem surfSealOutcome : Obligations.SurfSealOutcome := by
  intro s hf
  refine ⟨fun hv => (exec_surfSeal hf).trans (if_pos hv), fun hv => ?surface⟩
  case surface =>
    refine ⟨(s.seal s.dst).complete .ok, (exec_surfSeal hf).trans (if_neg (ne_false_of_eq_true hv)), ?_,
      fun k hk => ?_, State.desc_seal_of_ro, rfl⟩
    · exact (s.desc_seal s.dst s.dst).trans (if_pos rfl)
    · exact (s.desc_seal s.dst k).trans (if_neg hk)

end Sys2Proof.Machine
end

section
/-! What a step does to the surfaces (40_control.md R102): those there are stay, and only a command that calls `Alloc`
makes one. -/

namespace Sys2Proof.Machine

/-! ### Steps without a reset -/

/-- What the host's accesses can change: STATUS, IE, the registers it writes, the latch, pixel memory, and the model's
own list of inputs and last response. -/
abbrev State.sameButHostPort (s t : State) : Prop :=
  t = { s with status := t.status, ie := t.ie, cmd := t.cmd, args := t.args, text := t.text, mem := t.mem,
               latch := t.latch, inputs := t.inputs, reply := t.reply }

theorem State.sameButHostPort_desc {s t : State} (e : s.sameButHostPort t) (h : Handle) : t.desc h = s.desc h := by
  rw [e]; rfl

theorem State.sameButHostPort_allocPtr {s t : State} (e : s.sameButHostPort t) : t.allocPtr = s.allocPtr := by rw [e]

theorem State.sameButHostPort_doRead (s : State) (addr : HostAddr) (be : BitVec 4) :
    s.sameButHostPort (s.popInput.doRead addr be) := by
  unfold State.doRead
  split <;> rfl

/-- A write to a window, other than the soft reset. -/
theorem State.sameButHostPort_writeWindow (s : State) (v : Word) (w : Window)
    (hr : w = .ctrl → v.getLsbD 1 = false) : s.sameButHostPort (s.writeWindow v w) := by
  cases w with
  | ctrl =>
    simp only [State.writeWindow, State.writeCtrl, hr rfl]
    rfl
  | cmd =>
    simp only [State.writeWindow, State.writeCmd]
    split <;> rfl
  | _ => rfl

theorem State.sameButHostPort_doWrite {s : State} {addr : HostAddr} {be : BitVec 4} {v : Word}
    (hr : (Input.hostWrite addr be v).resets s = false) : s.sameButHostPort (s.popInput.doWrite addr be v) := by
  unfold State.doWrite
  split
  case isTrue hl =>
    have e := State.sameButHostPort_writeWindow s.popInput v (s.popInput.window addr) fun hc => by
      have hc' : s.window addr = .ctrl := hc
      simpa [Input.resets, hl, hc'] using hr
    rw [e]
    rfl
  case isFalse => rfl

theorem State.busy_of_holds {s : State} {addr : HostAddr} {be : BitVec 4} (hh : s.holds addr be = true) :
    s.status.busy = true := by
  unfold State.holds at hh
  simp only [Bool.and_eq_true] at hh
  exact hh.1.1

/-- The step runs the latched command, its input taken off the list or an access still held. -/
def State.StepRuns (s t : State) : Prop :=
  s.status.busy = true ∧ ∃ u, (u = s ∨ u = s.popInput) ∧ u.runLatched = .next t

theorem State.engineTurn_runs_or_sameButHostPort {s u t : State} (hu : u = s ∨ u = s.popInput)
    (h : u.engineTurn = .next t) : s.StepRuns t ∨ s.sameButHostPort t := by
  have hs : u.status = s.status ∧ s.sameButHostPort u := by
    rcases hu with rfl | rfl
    · exact ⟨rfl, rfl⟩
    · exact ⟨rfl, rfl⟩
  obtain ⟨hst, hsame⟩ := hs
  unfold State.engineTurn at h
  split at h
  case isTrue hb => exact .inl ⟨hst ▸ hb, u, hu, h⟩
  case isFalse => cases h; exact .inr hsame

/-- A step that is no reset runs the latched command, or leaves all but the host port's state as it was. -/
theorem step_runs_or_sameButHostPort {s t : State} (h : step s = .next t) (hr : s.resetsNext = false) :
    s.StepRuns t ∨ s.sameButHostPort t := by
  cases hi : s.inputs with
  | nil => exact State.engineTurn_runs_or_sameButHostPort (.inl rfl) (step_noInput hi ▸ h)
  | cons i rest =>
    have hri : i.resets s = false := by simpa [State.resetsNext, hi] using hr
    cases i with
    | engineTurn => exact State.engineTurn_runs_or_sameButHostPort (.inr rfl) (step_engineTurn hi ▸ h)
    | hardReset => cases hri
    | hostRead addr be =>
      cases hh : s.holds addr be with
      | true => exact .inl ⟨State.busy_of_holds hh, s, .inl rfl, step_held_read hi hh ▸ h⟩
      | false =>
        obtain rfl := Host.Outcome.next.inj ((step_hostRead hi hh).symm.trans h)
        exact .inr (s.sameButHostPort_doRead addr be)
    | hostWrite addr be v =>
      cases hh : s.holds addr be with
      | true => exact .inl ⟨State.busy_of_holds hh, s, .inl rfl, step_held_write hi hh ▸ h⟩
      | false =>
        obtain rfl := Host.Outcome.next.inj ((step_hostWrite hi hh).symm.trans h)
        exact .inr (State.sameButHostPort_doWrite hri)

/-! ### The surfaces there are stay -/

/-- `d'` describes the surface that `d` describes, and is sealed if `d` is. -/
def Desc.Keeps (d d' : Desc) : Prop :=
  d'.valid = true ∧ d'.w = d.w ∧ d'.h = d.h ∧ d'.base = d.base ∧ (d.ro = true → d'.ro = true)

theorem Desc.Keeps.of_eq {d d' : Desc} (hv : d.valid = true) (e : d' = d) : d.Keeps d' := by
  rw [e]
  exact ⟨hv, rfl, rfl, rfl, id⟩

/-- R102 and R29 over one change of state. -/
structure State.KeepsSurfaces (s t : State) : Prop where
  allocPtr : s.allocPtr.toNat ≤ t.allocPtr.toNat
  surfaces : ∀ h, (s.desc h).valid = true → (s.desc h).Keeps (t.desc h)

theorem State.KeepsSurfaces.of_desc_eq {s t : State} (ha : t.allocPtr = s.allocPtr) (hd : ∀ h, t.desc h = s.desc h) :
    s.KeepsSurfaces t :=
  ⟨ha ▸ le_rfl, fun h hv => .of_eq hv (hd h)⟩

/-- `Alloc` writes the descriptor of a sentinel only, and its checks keep ALLOC_PTR from wrapping. -/
theorem State.Allocated.keepsSurfaces {s t : State} {h : Handle} {w ht : Int} (A : s.Allocated t h w ht) :
    s.KeepsSurfaces t where
  allocPtr := A.allocPtr ▸ Nat.le_add_right _ _
  surfaces k hv := by
    have hk : k ≠ h := by rintro rfl; rw [A.wasFree] at hv; cases hv
    exact .of_eq hv (A.descOther k hk)

theorem State.keepsSurfaces_seal (s : State) (h : Handle) : s.KeepsSurfaces (s.seal h) where
  allocPtr := le_rfl
  surfaces k hv := by
    rw [State.desc_seal]
    split
    case isTrue hk => subst hk; exact ⟨hv, rfl, rfl, rfl, fun _ => rfl⟩
    case isFalse => exact .of_eq hv rfl

theorem State.Effect.keepsSurfaces {s u : State} (hu : s.Effect u) : s.KeepsSurfaces u := by
  cases hu with
  | sealed h _ => exact s.keepsSurfaces_seal h
  | allocated h w ht t ws ha =>
    have K := (State.alloc_ok ha).keepsSurfaces
    exact ⟨K.allocPtr, K.surfaces⟩
  | nothing => exact .of_desc_eq rfl fun _ => rfl
  | palette e _ => exact .of_desc_eq rfl fun _ => rfl
  | table k v _ => exact .of_desc_eq rfl fun _ => rfl
  | drawn h ws _ _ _ => exact .of_desc_eq rfl fun _ => rfl

theorem State.Ends.keepsSurfaces {s t : State} (ht : s.Ends t) : s.KeepsSurfaces t := by
  cases ht with
  | effect u hu => exact ⟨hu.keepsSurfaces.allocPtr, hu.keepsSurfaces.surfaces⟩
  | error c _ _ => exact .of_desc_eq rfl fun _ => rfl
  | sentinel => exact .of_desc_eq rfl fun _ => rfl
  | fatal => exact .of_desc_eq rfl fun _ => rfl

theorem State.StepRuns.keepsSurfaces {s t : State} (h : s.StepRuns t) : s.KeepsSurfaces t := by
  obtain ⟨-, u, hu, hrun⟩ := h
  have K := (State.runLatched_cases hrun).keepsSurfaces
  rcases hu with rfl | rfl
  · exact K
  · exact ⟨K.allocPtr, K.surfaces⟩

/-! ### Where a surface comes from -/

theorem State.desc_drawOn {s t : State} {h : Handle} {draw : State → State} (e : s.drawOn h draw = .next t)
    (hd : (draw s).descTable = s.descTable) (k : Handle) : t.desc k = s.desc k := by
  rcases State.drawOn_cases e with ⟨-, rfl⟩ | ⟨-, -, rfl⟩ | ⟨-, -, -, rfl⟩
  · rfl
  · rfl
  · simp only [State.desc, State.complete_descTable, hd]

theorem State.desc_seal_valid (s : State) (h k : Handle) : ((s.seal h).desc k).valid = (s.desc k).valid := by
  rw [State.desc_seal]
  split
  case isTrue hk => rw [hk]
  case isFalse => rfl

/-- The ten commands that do not call `Alloc` make no handle valid. -/
theorem exec_valid_of_not_allocating {i : Instr} {s t : State} (hi : i ∉ [Instr.surfAlloc, .crop, .remap])
    (h : exec i s = .next t) (k : Handle) : (t.desc k).valid = (s.desc k).valid := by
  cases hf : s.status.fatal with
  | true =>
    rw [exec_of_locked hf] at h
    cases h
    rfl
  | false =>
    cases i with
    | nop =>
      rw [exec_nop hf] at h
      cases h
      rfl
    | surfSeal =>
      rw [exec_surfSeal hf] at h
      split at h
      · cases h; rfl
      · cases h; exact s.desc_seal_valid s.dst k
    | palUnpack =>
      rw [exec_palUnpack hf] at h
      split at h
      · cases h; rfl
      · split at h
        · cases h; rfl
        · cases h; rfl
    | ctLoad =>
      rw [exec_ctLoad hf] at h
      cases h
      rfl
    | fillRect => rw [State.desc_drawOn (exec_fillRect hf ▸ h) rfl k]
    | fillCircle => rw [State.desc_drawOn (exec_fillCircle hf ▸ h) rfl k]
    | fillEllipse => rw [State.desc_drawOn (exec_fillEllipse hf ▸ h) rfl k]
    | fillRing => rw [State.desc_drawOn (exec_fillRing hf ▸ h) rfl k]
    | drawLine => rw [State.desc_drawOn (exec_drawLine hf ▸ h) rfl k]
    | blit mh mv rot =>
      rw [exec_blit hf] at h
      split at h
      · cases h; rfl
      · split at h
        · cases h; rfl
        · split at h
          · cases h; rfl
          · obtain ⟨-, h⟩ := State.onSurface_cases h
            obtain ⟨-, h⟩ := State.onSurface_cases h
            cases h
            rfl
    | surfAlloc => simp at hi
    | remap => simp at hi
    | crop => simp at hi

/-- A run of the latched command that makes a handle valid is one of SURF_ALLOC, CROP and REMAP. -/
theorem State.runLatched_of_becomes_valid {s t : State} {k : Handle} (h : s.runLatched = .next t)
    (hs : (s.desc k).valid = false) (ht : (t.desc k).valid = true) :
    ∃ i, decode s.latch.cmd = .ok i ∧ i ∈ [Instr.surfAlloc, .crop, .remap] := by
  have changed : (t.desc k).valid ≠ (s.desc k).valid := by rw [hs, ht]; simp
  unfold State.runLatched at h
  split at h
  case h_1 i hd =>
    by_contra hno
    exact changed (exec_valid_of_not_allocating (fun hi => hno ⟨i, hd, hi⟩) h k)
  case h_2 =>
    rcases State.unlessLocked_cases h with ⟨-, rfl⟩ | ⟨-, h⟩
    · exact absurd rfl changed
    · cases h; exact absurd rfl changed

theorem State.StepRuns.of_becomes_valid {s t : State} {k : Handle} (h : s.StepRuns t) (hs : (s.desc k).valid = false)
    (ht : (t.desc k).valid = true) :
    s.status.busy = true ∧ ∃ i, decode s.latch.cmd = .ok i ∧ i ∈ [Instr.surfAlloc, .crop, .remap] := by
  obtain ⟨hb, u, hu, hrun⟩ := h
  rcases hu with rfl | rfl
  · exact ⟨hb, State.runLatched_of_becomes_valid hrun hs ht⟩
  · exact ⟨hb, State.runLatched_of_becomes_valid (s := s.popInput) hrun hs ht⟩

/-- Settles O56: a step that is no reset runs a command, by how commands end, or touches no descriptor. -/
theorem handlesStayValid : Obligations.HandlesStayValid := by
  intro s t h hr
  rcases step_runs_or_sameButHostPort h hr with hrun | hsame
  · have K := hrun.keepsSurfaces
    exact ⟨K.allocPtr, K.surfaces, fun k => hrun.of_becomes_valid⟩
  · have hd := State.sameButHostPort_desc hsame
    have K : s.KeepsSurfaces t := .of_desc_eq (State.sameButHostPort_allocPtr hsame) hd
    refine ⟨K.allocPtr, K.surfaces, fun k hs ht => ?_⟩
    rw [hd, hs] at ht
    cases ht

end Sys2Proof.Machine
end

section
/-! PAL_UNPACK (41_palette.md R120 to R124), and the hex and base-32 digits of its and CT_LOAD's strings
(41_palette.md R121, 42_color_table.md R142). -/

namespace Sys2Proof.Machine

/-! ### The digit values of a byte -/

theorem hexVal_eq_none_iff (c : Byte) :
    hexVal c = none ↔ ¬ ((0x30 ≤ c.toNat ∧ c.toNat ≤ 0x39) ∨ (0x41 ≤ c.toNat ∧ c.toNat ≤ 0x46) ∨
      (0x61 ≤ c.toNat ∧ c.toNat ≤ 0x66)) := by
  unfold hexVal
  split_ifs with hdigit hupper hlower
  · simp [hdigit]
  · simp [hupper]
  · simp [hlower]
  · simp only [hdigit, hupper, hlower, or_self, not_false_eq_true]

theorem digitVal_of_not_digit (l : Bool) {c : Byte}
    (hc : ¬ ((0x30 ≤ c.toNat ∧ c.toNat ≤ 0x39) ∨ (0x41 ≤ c.toNat ∧ c.toNat ≤ 0x56) ∨
      (0x61 ≤ c.toNat ∧ c.toNat ≤ 0x76))) : digitVal l c = 0 := by
  obtain ⟨hdigit, hletters⟩ := not_or.1 hc
  obtain ⟨hupper, hlower⟩ := not_or.1 hletters
  unfold digitVal
  rw [if_neg hdigit, if_neg hupper, if_neg fun h => hlower h.2]

/-- Settles O14: the digits are few and are evaluated; the other bytes by the two lemmas above. -/
theorem hexAndBase32Digits : Obligations.HexAndBase32Digits :=
  ⟨by decide, by decide, hexVal_eq_none_iff, by decide, by decide, fun l _ => digitVal_of_not_digit l⟩

/-! ### The format check and the entry -/

theorem State.palWellFormed_iff (s : State) :
    s.palWellFormed = true ↔ (s.palLen = 6 ∨ s.palLen = 8) ∧ ∀ k, k < s.palLen → hexVal (s.ltext k) ≠ none := by
  simp [State.palWellFormed, Option.isSome_iff_ne_none]

/-- In a well-formed entry every character has its digit value, so the value that stands for an invalid one is free. -/
theorem State.palDigit_of_wellFormed {s : State} (hw : s.palWellFormed = true) (k : Nat) :
    s.palDigit k = if k < s.palLen then (hexVal (s.ltext k)).getD 0 else 0xF := by
  unfold State.palDigit
  split
  case isTrue hk =>
    obtain ⟨v, hv⟩ := Option.ne_none_iff_exists'.1 (((s.palWellFormed_iff).1 hw).2 k hk)
    rw [hv, Option.getD_some, Option.getD_some]
  case isFalse => rfl

/-- R122: digit `k` stands in bits 31-4k : 28-4k of the entry. -/
theorem State.palEntry_extractLsb' (s : State) {k : Nat} (hk : k < 8) :
    s.palEntry.extractLsb' (28 - 4 * k) 4 = s.palDigit k := by
  apply BitVec.eq_of_getLsbD_eq
  intro i hi
  simp only [State.palEntry, BitVec.getLsbD_extractLsb', BitVec.getLsbD_append]
  interval_cases k <;> interval_cases i <;> simp

/-! ### The palette after an append -/

theorem State.appendPal_palCount_toNat {s : State} (hc : s.palCount.toNat < 32) (e : Word) :
    (s.appendPal e).palCount.toNat = s.palCount.toNat + 1 := by
  have noWrap : s.palCount.toNat + (1 : BitVec 6).toNat < 2 ^ 6 := by
    change s.palCount.toNat + 1 < 64
    omega
  exact BitVec.toNat_add_of_lt noWrap

theorem State.effPal_appendPal_new {s : State} (hc : s.palCount.toNat < 32) (e : Word) :
    (s.appendPal e).effPal s.palCount.toNat = e := by
  unfold State.effPal
  rw [State.appendPal_palCount_toNat hc, if_pos (Nat.lt_succ_self _), State.appendPal_palRam,
    Vector.getElem?_setIfInBounds_self, if_pos hc, Option.getD_some]

theorem State.appendPal_palRam_ne (s : State) (e : Word) {j : Nat} (hj : j < 32) (hne : j ≠ s.palCount.toNat) :
    (s.appendPal e).palRam[j] = s.palRam[j] :=
  Vector.getElem_setIfInBounds_ne hj hne.symm

/-! ### The command -/

theorem exec_palUnpack_of_malformed {s : State} (hf : s.status.fatal = false) (hw : ¬ s.palWellFormed = true) :
    exec .palUnpack s = .next (s.raiseFatal .palFormat) :=
  (exec_palUnpack hf).trans (if_pos (Bool.eq_false_of_not_eq_true hw))

theorem exec_palUnpack_of_full {s : State} (hf : s.status.fatal = false) (hw : s.palWellFormed = true)
    (hc : s.palCount.toNat = 32) : exec .palUnpack s = .next (s.complete .palFull) := by
  rw [exec_palUnpack hf, if_neg (ne_false_of_eq_true hw), if_pos hc]

theorem exec_palUnpack_of_room {s : State} (hf : s.status.fatal = false) (hw : s.palWellFormed = true)
    (hc : s.palCount.toNat < 32) : exec .palUnpack s = .next ((s.appendPal s.palEntry).complete .ok) := by
  rw [exec_palUnpack hf, if_neg (ne_false_of_eq_true hw), if_neg hc.ne]

/-- Settles O15: the format check, then the capacity, then the append, whose entry is told digit by digit. -/
theorem palUnpackOutcome : Obligations.PalUnpackOutcome := by
  intro s hf
  simp only [State.palLen_eq, ← State.palWellFormed_iff]
  refine ⟨fun hw => exec_palUnpack_of_malformed hf hw, exec_palUnpack_of_full hf, fun hw hc => ?stored⟩
  case stored =>
    refine ⟨(s.appendPal s.palEntry).complete .ok, exec_palUnpack_of_room hf hw hc,
      State.appendPal_palCount_toNat hc s.palEntry, fun k hk => ?digit,
      fun j hj => s.appendPal_palRam_ne s.palEntry j.isLt hj, rfl⟩
    calc ((s.appendPal s.palEntry).effPal s.palCount.toNat).extractLsb' (28 - 4 * k) 4
      _ = s.palEntry.extractLsb' (28 - 4 * k) 4 := by rw [State.effPal_appendPal_new hc]
      _ = s.palDigit k := s.palEntry_extractLsb' hk
      _ = _ := State.palDigit_of_wellFormed hw k

end Sys2Proof.Machine
end

section
/-! CT_LOAD (42_color_table.md R140 to R144): the slot word it stores and the slot it replaces. -/

namespace Sys2Proof.Machine

/-! ### The stored word -/

/-- PRESENT of a stored slot word. -/
theorem slotPresent_slotWord (len : BitVec 8) (d : Nat → BitVec 5) : slotPresent (slotWord len d) = true := by
  simp only [slotPresent, slotWord_eq, BitVec.getLsbD_append]
  simp

theorem State.ctEntry_of_absent {s : State} (ha : s.ctAbsent = true) : s.ctEntry = 0 := if_pos ha

theorem State.ctEntry_of_present {s : State} (ha : s.ctAbsent = false) : s.ctEntry = slotWord s.ctLen s.ctDigit :=
  if_neg (ne_true_of_eq_false ha)

/-! ### The table after a store -/

theorem State.slot_setSlot_self (s : State) (k : BitVec 8) (v : Word) : (s.setSlot k v).slot k = v := by
  rw [State.slot_setSlot, if_pos rfl]

theorem State.slot_setSlot_of_ne (s : State) {k j : BitVec 8} (v : Word) (hne : j ≠ k) :
    (s.setSlot k v).slot j = s.slot j := by
  rw [State.slot_setSlot, if_neg hne]

/-! ### The command -/

/-- Settles O17: the command is one store of `State.ctEntry` in the addressed slot, whose fields are those of
`slotWord` when the table is present. -/
theorem ctLoadOutcome : Obligations.CtLoadOutcome := by
  intro s hf
  have stored : ((s.setSlot s.ctSlot s.ctEntry).complete .ok).slot s.ctSlot = s.ctEntry := by
    rw [State.complete_slot, State.slot_setSlot_self]
  refine ⟨(s.setSlot s.ctSlot s.ctEntry).complete .ok, exec_ctLoad hf, fun habsent => ?absent,
    fun hpresent => ?present, fun k hk => s.slot_setSlot_of_ne s.ctEntry hk, rfl⟩
  case absent => exact stored.trans (State.ctEntry_of_absent habsent)
  case present =>
    have word := stored.trans (State.ctEntry_of_present hpresent)
    refine word ▸ ⟨?_, ?_, ?_, fun b hb => ?_⟩
    · exact slotPresent_slotWord s.ctLen s.ctDigit
    · exact (slotWellFormed_slotWord s.ctLen s.ctDigit).1
    · exact slotLen_slotWord s.ctLen s.ctDigit
    · exact slotDigit_slotWord s.ctLen s.ctDigit hb

end Sys2Proof.Machine
end

section
/-! REMAP (43_tile_remap.md R160 to R166): the bucket of a pixel, the rule for one output pixel, and how the command
ends. -/

namespace Sys2Proof.Machine

/-! ### The bucket -/

theorem red_lt (p : Word) : red p < 256 := (p.extractLsb' 24 8).isLt

/-- R162's formula, with the numbers of R7. -/
theorem bucket_eq (p : Word) : bucket p = min (red p / 85) 3 := rfl

/-- R162's table. -/
theorem bucket_eq_ite (p : Word) :
    bucket p = if red p < 85 then 0 else if red p < 170 then 1 else if red p < 255 then 2 else 3 := by
  have hr := red_lt p
  rw [bucket_eq]
  split_ifs <;> omega

/-- Settles O18: the formula is the definition's own, and the table is its value on each range of the red byte. -/
theorem bucketTable : Obligations.BucketTable := fun p => ⟨bucket_eq p, bucket_eq_ite p⟩

/-! ### One output pixel -/

theorem tileCovered_iff {w h count x y : Nat} :
    tileCovered w h count x y = true ↔ x / 8 < w / 8 ∧ y / 8 < h / 8 ∧ y / 8 * (w / 8) + x / 8 < count :=
  decide_eq_true_iff

/-- A covered pixel takes the colour of its tile's slot (R164, R165). -/
theorem State.remapPixel_of_covered {s : State} {w h x y : Nat}
    (hc : tileCovered w h s.ctCount x y = true) (p : Word) :
    s.remapPixel w h x y p =
      s.effPal (slotIndex (s.slot (BitVec.ofNat 8 (s.ctBase + tileIndex w x y))) (bucket p)) :=
  if_pos hc

/-- An uncovered pixel, in no tile or past the table count, is copied (R164). -/
theorem State.remapPixel_of_not_covered {s : State} {w h x y : Nat}
    (hc : ¬ tileCovered w h s.ctCount x y = true) (p : Word) : s.remapPixel w h x y p = p :=
  if_neg hc

/-- The rule reads the operands, the slots and the palette, none of which an allocation touches. -/
theorem State.sameButAllocation_remapPixel {s t : State} (e : s.sameButAllocation t) (w h x y : Nat) (p : Word) :
    t.remapPixel w h x y p = s.remapPixel w h x y p := by
  rw [e]; rfl

theorem State.px_remapInto {s : State} {dst : Handle} {x y : Nat} (src : Handle) (hx : x < s.width dst)
    (hy : y < s.height dst) :
    (s.remapInto dst src).px dst x y = s.remapPixel (s.width src) (s.height src) x y (s.px src x y) :=
  State.px_paint _ hx hy

/-! ### Painting a new surface from an old one -/

/-- Pixels painted on the gained surface are no other surface's. -/
theorem State.GainsSurface.paint {s t : State} {h : Handle} {w ht : Nat} (G : s.GainsSurface t h w ht)
    (f : Nat → Nat → Option Word) : s.GainsSurface (t.paint h f) h w ht :=
  { desc := G.desc, width := G.width, height := G.height, otherDescs := G.otherDescs, allocPtr := G.allocPtr
    onlyAllocation := State.sameButAllocation_setPixels G.onlyAllocation h _
    otherBytes := fun b hb =>
      have outside : b / 4 < (t.desc h).base.toNat ∨ (t.desc h).base.toNat + t.width h * t.height h ≤ b / 4 := by
        rwa [G.desc, G.width, G.height]
      (State.readByte_paint_outside f outside).trans (G.otherBytes b hb) }

/-- A surface already there is not the one that `Alloc` makes. -/
theorem State.Allocated.ne_of_valid {s t : State} {h k : Handle} {w ht : Int} (A : s.Allocated t h w ht)
    (hv : (s.desc k).valid = true) : k ≠ h := by
  rintro rfl
  exact absurd (hv.symm.trans A.wasFree) Bool.noConfusion

/-- Under R34 a surface already there keeps its pixels: they lie below ALLOC_PTR, where `Alloc` writes nothing. -/
theorem State.Allocated.px_of_valid {s t : State} {h k : Handle} {w ht : Int} (A : s.Allocated t h w ht)
    (hs : s.MemInv) (hv : (s.desc k).valid = true) {x y : Nat} (hx : x < s.width k) (hy : y < s.height k) :
    t.px k x y = s.px k x y :=
  State.px_congr (A.descOther k (A.ne_of_valid hv)) fun b hb =>
    A.outside b (.inl (hb.trans_lt (hs.pxAddr_lt hv hx hy)))

/-- What the pixel loop leaves on the surface that `Alloc` made: the rule of R164 and R165 on the old source. -/
theorem State.Allocated.px_remapInto {s t : State} {dst src : Handle}
    (A : s.Allocated t dst (s.width src) (s.height src)) (hs : s.MemInv) (hv : (s.desc src).valid = true)
    {x y : Nat} (hx : x < s.width src) (hy : y < s.height src) :
    (t.remapInto dst src).px dst x y = s.remapPixel (s.width src) (s.height src) x y (s.px src x y) := by
  have hd := A.descOther src (A.ne_of_valid hv)
  rw [State.px_remapInto src (hx.trans_eq A.width.symm) (hy.trans_eq A.height.symm), State.width_congr hd,
    State.height_congr hd, A.px_of_valid hs hv hx hy, State.sameButAllocation_remapPixel A.others]

/-! ### The command -/

theorem exec_remap_of_ctRange {s : State} (hf : s.status.fatal = false) (hr : 256 < s.ctBase + s.ctCount) :
    exec .remap s = .next (s.complete .ctRange) :=
  (exec_remap hf).trans (if_pos hr)

theorem exec_remap_of_sentinel {s : State} (hf : s.status.fatal = false) (hr : s.ctBase + s.ctCount ≤ 256)
    (hv : (s.desc s.src).valid = false) : exec .remap s = .next s.completeSentinel := by
  rw [exec_remap hf, if_neg (not_lt.2 hr), if_pos hv]

/-- Past its first two checks REMAP is `Alloc` and the pixel loop: under R34 the source lies in pixel memory. -/
theorem exec_remap_of_surface {s : State} (hs : s.MemInv) (hf : s.status.fatal = false)
    (hr : s.ctBase + s.ctCount ≤ 256) (hv : (s.desc s.src).valid = true) :
    exec .remap s =
      s.allocThen s.dst (s.width s.src) (s.height s.src) fun t => t.remapInto t.dst t.src := by
  rw [exec_remap hf, if_neg (not_lt.2 hr), if_neg (ne_false_of_eq_true hv),
    State.onSurface_of_exists (hs.surfaceExists hv)]

/-- A surface's edges pass `Alloc`'s check of the dimensions, so REMAP never ends with E_DIM (R160). -/
theorem State.surface_dims (s : State) (h : Handle) :
    0 ≤ (s.width h : Int) ∧ (s.width h : Int) ≤ 4095 ∧ 0 ≤ (s.height h : Int) ∧ (s.height h : Int) ≤ 4095 :=
  ⟨Int.natCast_nonneg _, Int.ofNat_le.2 (s.width_le h), Int.natCast_nonneg _, Int.ofNat_le.2 (s.height_le h)⟩

/-- Settles O19: the two checks of REMAP's own, then each way `Alloc` ends; after its success every pixel is
`State.remapPixel` of the source's, which splits on the pixel being covered. -/
theorem remapOutcome : Obligations.RemapOutcome := by
  intro s hs hf
  refine ⟨exec_remap_of_ctRange hf, exec_remap_of_sentinel hf, fun hr hv hd => ?inUse,
    fun hr hv hd hn => ?noMem, fun hr hv hd hfit => ?success⟩
  case inUse =>
    exact (exec_remap_of_surface hs hf hr hv).trans (State.allocThen_of_error (State.alloc_inUse hd _ _) _)
  case noMem =>
    exact (exec_remap_of_surface hs hf hr hv).trans
      (State.allocThen_of_error (State.alloc_noMem hd (s.surface_dims s.src) hn) _)
  case success =>
    obtain ⟨hw0, hw1, hh0, hh1⟩ := s.surface_dims s.src
    obtain ⟨t, e⟩ := State.alloc_of_fits (h := s.dst) hd ⟨hw0, hw1⟩ ⟨hh0, hh1⟩ hfit
    have A := State.alloc_ok e
    have run : exec .remap s = .next ((t.remapInto s.dst s.src).complete .ok) := by
      rw [exec_remap_of_surface hs hf hr hv, State.allocThen_of_ok e, State.sameButAllocation_dst A.others,
        State.sameButAllocation_src A.others]
    refine ⟨_, run, (A.gainsSurface.paint _).complete .ok, congrArg (·.complete .ok) A.status, fun x y hx hy => ?_⟩
    have pixel := A.px_remapInto hs hv hx hy
    exact ⟨fun htx hty hj => pixel.trans (State.remapPixel_of_covered (tileCovered_iff.2 ⟨htx, hty, hj⟩) _),
      fun hc => pixel.trans (State.remapPixel_of_not_covered (mt tileCovered_iff.1 hc) _)⟩

end Sys2Proof.Machine
end

section
/-! FILL_RECT, FILL_CIRCLE, FILL_ELLIPSE, FILL_RING and DRAW_LINE (44_raster.md R180 to R190): how a drawing command
ends, what its writes draw, and the pixels each command covers. -/

namespace Sys2Proof.Machine

/-! ### The destination prologue -/

theorem State.drawOn_of_invalid {s : State} {h : Handle} (hv : (s.desc h).valid = false) (draw : State → State) :
    s.drawOn h draw = .next s.completeSentinel :=
  if_pos hv

theorem State.drawOn_of_sealed {s : State} {h : Handle} (hv : (s.desc h).valid = true) (hr : (s.desc h).ro = true)
    (draw : State → State) : s.drawOn h draw = .next (s.complete .readOnly) :=
  (if_neg (ne_false_of_eq_true hv)).trans (if_pos hr)

/-! ### What a fill and a plot draw -/

theorem State.draws_fill {s : State} {h : Handle} {cov : Int → Int → Bool} {c : Word} :
    s.Draws (s.fill h cov c) h (fun x y => cov x y = true) c where
  covered x y hx hy hc := by
    unfold State.fill
    rw [State.px_paint _ hx hy, if_pos hc, Option.getD_some]
  uncovered x y hx hy hc := by
    unfold State.fill
    rw [State.px_paint _ hx hy, if_neg hc, Option.getD_none]
  otherBytes b hb := State.readByte_paint fun x y hx hy hc => hb x y hx hy (by simpa using hc)
  onlyMem := rfl

theorem mem_plotWrites {pts : List (Int × Int)} {c v : Word} {x y : Int} :
    ((x, y, v) ∈ pts.map fun p => (p.1, p.2, c)) ↔ (x, y) ∈ pts ∧ v = c := by
  simp [eq_comm]

/-- Of the listed points outside the surface nothing is asked: each is clipped on its own (R180, R189). -/
theorem State.draws_plot {s : State} {h : Handle} {pts : List (Int × Int)} {c : Word} :
    s.Draws (s.plot h pts c) h (fun x y => (x, y) ∈ pts) c where
  covered x y hx hy hc := by
    refine State.px_setPixels_of_mem hx hy (mem_plotWrites.2 ⟨hc, rfl⟩) ?_
    rintro ⟨_, _, v⟩ hp rfl rfl
    exact (mem_plotWrites.1 hp).2
  uncovered x y hx hy hc := by
    refine State.px_setPixels_of_notMem hx ?_
    rintro ⟨_, _, v⟩ hp ⟨rfl, rfl⟩
    exact hc (mem_plotWrites.1 hp).1
  otherBytes b hb := by
    refine State.readByte_setPixels ?_
    rintro ⟨x, y, v⟩ hp hin
    obtain ⟨hx0, hx, hy0, hy⟩ := (s.inB_iff h x y).1 hin
    lift x to Nat using hx0
    lift y to Nat using hy0
    exact hb x y (Int.ofNat_lt.1 hx) (Int.ofNat_lt.1 hy) (mem_plotWrites.1 hp).1
  onlyMem := rfl

/-- The completion writes STATUS, which the drawing does not speak of. -/
theorem State.Draws.complete {s t : State} {h : Handle} {cov : Int → Int → Prop} {c : Word} (D : s.Draws t h cov c)
    (code : ErrCode) : s.Draws (t.complete code) h cov c where
  covered := D.covered
  uncovered := D.uncovered
  otherBytes := D.otherBytes
  onlyMem := by rw [D.onlyMem]; rfl

/-! ### The outcome of a drawing command -/

/-- A command that is the destination prologue and a drawing ends as R180 says. -/
theorem State.drawOutcome_of_drawOn {s : State} {i : Instr} {h : Handle} {cov cov' : Int → Int → Prop} {c : Word}
    {draw : State → State} (run : s.status.fatal = false → exec i s = s.drawOn h draw)
    (status : (draw s).status = s.status) (drawn : s.Draws (draw s) h cov' c) (hcov : ∀ x y, cov' x y ↔ cov x y) :
    s.DrawOutcome i h cov c := by
  obtain rfl : cov' = cov := funext₂ fun x y => propext (hcov x y)
  intro hf
  rw [run hf]
  exact ⟨fun hv => State.drawOn_of_invalid hv draw, fun hv hr => State.drawOn_of_sealed hv hr draw,
    fun hv hr he => ⟨_, State.drawOn_of_open hv hr he draw, congrArg (·.complete .ok) status, drawn.complete .ok⟩⟩

/-! ### The covered pixels -/

theorem covRect_iff {x y w h px py : Int} :
    covRect x y w h px py = true ↔ x ≤ px ∧ px < x + w ∧ y ≤ py ∧ py < y + h :=
  decide_eq_true_iff

theorem dist2_eq (cx cy px py : Int) : dist2 cx cy px py = (px - cx) * (px - cx) + (py - cy) * (py - cy) := by
  unfold dist2
  rw [sq, sq]

theorem covCircle_iff {cx cy r px py : Int} :
    covCircle cx cy r px py = true ↔ (px - cx) * (px - cx) + (py - cy) * (py - cy) ≤ r * r := by
  rw [covCircle, decide_eq_true_iff, dist2_eq, sq]

/-- The zero radius is a case of its own (R186): without it the inequality could hold. -/
theorem covEllipse_iff {cx cy rx ry px py : Int} :
    covEllipse cx cy rx ry px py = true ↔ rx ≠ 0 ∧ ry ≠ 0 ∧
      (px - cx) * (px - cx) * (ry * ry) + (py - cy) * (py - cy) * (rx * rx) ≤ rx * rx * (ry * ry) := by
  unfold covEllipse
  by_cases hz : rx = 0 ∨ ry = 0
  · rw [if_pos hz]
    exact iff_of_false Bool.false_ne_true fun ⟨hx, hy, _⟩ => hz.elim hx hy
  · obtain ⟨hx, hy⟩ := not_or.1 hz
    rw [if_neg hz, decide_eq_true_iff]
    simp only [sq, ne_eq, hx, hy, not_false_iff, true_and]

theorem covRing_iff {cx cy rIn rOut px py : Int} :
    covRing cx cy rIn rOut px py = true ↔
      rIn * rIn ≤ (px - cx) * (px - cx) + (py - cy) * (py - cy) ∧
        (px - cx) * (px - cx) + (py - cy) * (py - cy) ≤ rOut * rOut := by
  rw [covRing, decide_eq_true_iff, dist2_eq, sq, sq]

/-- The points of a line with R189's `n` as an integer; `mem_linePoints` counts the steps by naturals. -/
theorem mem_linePoints_iff_exists_int {x0 y0 x1 y1 px py : Int} :
    (px, py) ∈ linePoints x0 y0 x1 y1 ↔
      let n : Int := max |x1 - x0| |y1 - y0|
      (n = 0 ∧ px = x0 ∧ py = y0) ∨
        (n ≠ 0 ∧ ∃ i : Int, 0 ≤ i ∧ i ≤ n ∧ px = x0 + (i * (x1 - x0)) / n ∧ py = y0 + (i * (y1 - y0)) / n) := by
  obtain ⟨n, hn⟩ : ∃ n : Nat, n = max (x1 - x0).natAbs (y1 - y0).natAbs := ⟨_, rfl⟩
  have hmax : max |x1 - x0| |y1 - y0| = (n : Int) := by
    rw [hn, Nat.cast_max, Int.natCast_natAbs, Int.natCast_natAbs]
  rw [mem_linePoints hn, hmax]
  refine or_congr (and_congr Int.natCast_eq_zero.symm Prod.ext_iff)
    (and_congr (not_congr Int.natCast_eq_zero.symm) ⟨?toInt, ?toNat⟩)
  case toInt =>
    rintro ⟨i, hi, e⟩
    obtain ⟨ex, ey⟩ := Prod.ext_iff.1 e
    exact ⟨i, Int.natCast_nonneg i, Int.ofNat_le.2 hi, ex, ey⟩
  case toNat =>
    rintro ⟨i, hi0, hi, ex, ey⟩
    lift i to Nat using hi0
    exact ⟨i, Int.ofNat_le.1 hi, Prod.ext ex ey⟩

/-! ### The commands -/

/-- Settles O21: the prologue, then a fill of R181's half-open ranges. -/
theorem fillRectOutcome : Obligations.FillRectOutcome := fun _ =>
  State.drawOutcome_of_drawOn exec_fillRect rfl State.draws_fill fun _ _ => covRect_iff

/-- Settles O22: the prologue, then a fill of R183's disc. -/
theorem fillCircleOutcome : Obligations.FillCircleOutcome := fun _ =>
  State.drawOutcome_of_drawOn exec_fillCircle rfl State.draws_fill fun _ _ => covCircle_iff

/-- Settles O23: the prologue, then a fill of R185's ellipse, empty where a radius is 0. -/
theorem fillEllipseOutcome : Obligations.FillEllipseOutcome := fun _ =>
  State.drawOutcome_of_drawOn exec_fillEllipse rfl State.draws_fill fun _ _ => covEllipse_iff

/-- Settles O24: the prologue, then a fill of R187's annulus. -/
theorem fillRingOutcome : Obligations.FillRingOutcome := fun _ =>
  State.drawOutcome_of_drawOn exec_fillRing rfl State.draws_fill fun _ _ => covRing_iff

/-- Settles O25: the prologue, then a plot of R189's steps, each clipped on its own. -/
theorem drawLineOutcome : Obligations.DrawLineOutcome := fun _ =>
  State.drawOutcome_of_drawOn exec_drawLine rfl State.draws_plot fun _ _ => mem_linePoints_iff_exists_int

end Sys2Proof.Machine
end

section
/-! BLIT and CROP (45_compositor.md R210 to R214): where a region offset lands, what the copy leaves in memory, and how
the two commands end. -/

namespace Sys2Proof.Machine

/-! ### The copy of BLIT -/

/-- No two region offsets land on one pixel (R211): each mirror and the rotation can be undone. -/
theorem blitTarget_inj {mh mv : Bool} {rot : BitVec 2} {dx dy sw sh i j i' j' : Int}
    (e : blitTarget mh mv rot dx dy sw sh i j = blitTarget mh mv rot dx dy sw sh i' j') : i = i' ∧ j = j' := by
  rw [blitTarget_eq, blitTarget_eq, Prod.mk.injEq] at e
  obtain ⟨ex, ey⟩ := e
  split_ifs at ex ey <;> omega

/-- A write that lands in bounds is read back at its pixel, if no write of another value lands there too. -/
theorem State.px_setPixels_of_inB {s : State} {h : Handle} {x y : Int} {v : Word} {ws : List (Int × Int × Word)}
    (hin : s.inB h x y = true) (hp : (x, y, v) ∈ ws) (hv : ∀ q ∈ ws, q.1 = x → q.2.1 = y → q.2.2 = v) :
    (s.setPixels h ws).px h x.toNat y.toNat = v := by
  obtain ⟨hx0, hx, hy0, hy⟩ := (s.inB_iff h x y).1 hin
  lift x to Nat using hx0
  lift y to Nat using hy0
  exact State.px_setPixels_of_mem (Int.ofNat_lt.1 hx) (Int.ofNat_lt.1 hy) hp hv

section
variable {s : State} {mh mv : Bool} {rot : BitVec 2} {dst src : Handle} {dx dy sx sy sw sh : Int}

/-- The writes of BLIT name each target once, so the order of the copy does not matter (R212). -/
theorem State.blitWrites_value_unique {p q : Int × Int × Word}
    (hp : p ∈ s.blitWrites mh mv rot src dx dy sx sy sw sh) (hq : q ∈ s.blitWrites mh mv rot src dx dy sx sy sw sh)
    (ex : q.1 = p.1) (ey : q.2.1 = p.2.1) : q.2.2 = p.2.2 := by
  obtain ⟨i, j, -, -, -, -, -, rfl⟩ := State.mem_blitWrites.1 hp
  obtain ⟨i', j', -, -, -, -, -, rfl⟩ := State.mem_blitWrites.1 hq
  obtain ⟨rfl, rfl⟩ := blitTarget_inj (Prod.ext ex ey)
  rfl

/-- Each in-bounds offset copies the source pixel as it was before the command (R210, R212). -/
theorem State.px_setPixels_blitWrites {i j : Int} (hi : 0 ≤ i ∧ i < sw) (hj : 0 ≤ j ∧ j < sh)
    (hsrc : s.inB src (sx + i) (sy + j) = true)
    (hdst : s.inB dst (blitTarget mh mv rot dx dy sw sh i j).1 (blitTarget mh mv rot dx dy sw sh i j).2 = true) :
    (s.setPixels dst (s.blitWrites mh mv rot src dx dy sx sy sw sh)).px dst
        (blitTarget mh mv rot dx dy sw sh i j).1.toNat (blitTarget mh mv rot dx dy sw sh i j).2.toNat =
      s.px src (sx + i).toNat (sy + j).toNat :=
  have hp := State.mem_blitWrites.2 ⟨i, j, hi.1, hi.2, hj.1, hj.2, hsrc, rfl⟩
  State.px_setPixels_of_inB hdst hp fun _ hq => State.blitWrites_value_unique hp hq

/-- A byte of no pixel that an in-bounds offset lands on is unchanged (R213). -/
theorem State.readByte_setPixels_blitWrites {b : Nat}
    (hb : ∀ i j : Int, 0 ≤ i → i < sw → 0 ≤ j → j < sh → s.inB src (sx + i) (sy + j) = true →
      s.inB dst (blitTarget mh mv rot dx dy sw sh i j).1 (blitTarget mh mv rot dx dy sw sh i j).2 = true →
      b / 4 ≠ s.pxAddr dst (blitTarget mh mv rot dx dy sw sh i j).1.toNat
        (blitTarget mh mv rot dx dy sw sh i j).2.toNat) :
    (s.setPixels dst (s.blitWrites mh mv rot src dx dy sx sy sw sh)).readByte b = s.readByte b := by
  refine State.readByte_setPixels fun p hp hin => ?_
  obtain ⟨i, j, hi0, hi, hj0, hj, hsrc, rfl⟩ := State.mem_blitWrites.1 hp
  exact hb i j hi0 hi hj0 hj hsrc hin

end

/-! ### BLIT -/

section
variable {s : State} {rot : BitVec 2} (hf : s.status.fatal = false) (mh mv : Bool)
include hf

theorem exec_blit_of_reserved (h0 : rot ≠ 0) (h1 : rot ≠ 1) :
    exec (.blit mh mv rot) s = .next (s.complete .illegal) :=
  (exec_blit hf mh mv rot).trans (if_pos ⟨h0, h1⟩)

theorem exec_blit_of_sentinel (hr : rot = 0 ∨ rot = 1)
    (hv : (s.desc s.dst).valid = false ∨ (s.desc s.src).valid = false) :
    exec (.blit mh mv rot) s = .next s.completeSentinel := by
  rw [exec_blit hf, if_neg (by tauto), if_pos hv]

theorem exec_blit_of_sealed (hr : rot = 0 ∨ rot = 1) (hd : (s.desc s.dst).valid = true)
    (hv : (s.desc s.src).valid = true) (hro : (s.desc s.dst).ro = true) :
    exec (.blit mh mv rot) s = .next (s.complete .readOnly) := by
  rw [exec_blit hf, if_neg (by tauto), if_neg (by simp [hd, hv]), if_pos hro]

theorem exec_blit_of_open (hr : rot = 0 ∨ rot = 1) (hd : (s.desc s.dst).valid = true)
    (hv : (s.desc s.src).valid = true) (hro : (s.desc s.dst).ro = false) (hde : s.surfaceExists s.dst = true)
    (hse : s.surfaceExists s.src = true) :
    exec (.blit mh mv rot) s =
      .next ((s.setPixels s.dst
        (s.blitWrites mh mv rot s.src (s.q 1) (s.q 2) (s.q 3) (s.q 4) (s.q 5) (s.q 6))).complete .ok) := by
  rw [exec_blit hf, if_neg (by tauto), if_neg (by simp [hd, hv]), if_neg (by simp [hro]),
    State.onSurface_of_exists hse, State.onSurface_of_exists hde]

end

/-- Settles O32: the checks in their order, then the copy, whose targets are `blitTarget` written out. -/
theorem blitOutcome : Obligations.BlitOutcome := by
  intro s mh mv rot hf
  refine ⟨exec_blit_of_reserved hf mh mv, exec_blit_of_sentinel hf mh mv, exec_blit_of_sealed hf mh mv,
    fun hr hd hv hro hde hse => ⟨_, exec_blit_of_open hf mh mv hr hd hv hro hde hse, rfl, rfl, ?copied, ?others⟩⟩
  case copied =>
    rintro i j ⟨hi0, hi, hj0, hj, hsrc, hdst⟩
    have copy := State.px_setPixels_blitWrites (s := s) (mh := mh) (mv := mv) (rot := rot) (dst := s.dst)
      (dx := s.q 1) (dy := s.q 2) ⟨hi0, hi⟩ ⟨hj0, hj⟩ hsrc
    rw [blitTarget_eq] at copy
    exact copy hdst
  case others =>
    refine fun b hb => State.readByte_setPixels_blitWrites fun i j hi0 hi hj0 hj hsrc => ?_
    rw [blitTarget_eq]
    exact fun hdst => hb i j ⟨hi0, hi, hj0, hj, hsrc, hdst⟩

/-! ### CROP -/

theorem exec_crop_of_sentinel {s : State} (hf : s.status.fatal = false) (hv : (s.desc s.src).valid = false) :
    exec .crop s = .next s.completeSentinel :=
  (exec_crop hf).trans (if_pos hv)

section
variable {s : State} (hs : s.MemInv) (hf : s.status.fatal = false) (hv : (s.desc s.src).valid = true)
include hs hf hv

/-- Past the sentinel CROP is `Alloc` and the pixel loop: under R34 the source lies in pixel memory. -/
theorem exec_crop_of_surface :
    exec .crop s = s.allocThen s.dst (s.q 5) (s.q 6) fun t => t.cropInto t.dst t.src (t.q 3) (t.q 4) := by
  rw [exec_crop hf, if_neg (ne_false_of_eq_true hv), State.onSurface_of_exists (hs.surfaceExists hv)]

theorem exec_crop_of_error {c : ErrCode} (e : s.alloc s.dst (s.q 5) (s.q 6) = .error c) :
    exec .crop s = .next (s.complete c) :=
  (exec_crop_of_surface hs hf hv).trans (State.allocThen_of_error e _)

theorem exec_crop_of_ok {t : State} (e : s.alloc s.dst (s.q 5) (s.q 6) = .ok t) :
    exec .crop s = .next ((t.cropInto s.dst s.src (s.q 3) (s.q 4)).complete .ok) := by
  have O := (State.alloc_ok e).others
  rw [exec_crop_of_surface hs hf hv, State.allocThen_of_ok e, State.sameButAllocation_dst O,
    State.sameButAllocation_src O, State.sameButAllocation_q O, State.sameButAllocation_q O]

end

section
variable {s t : State} {dst src : Handle} {w ht sx sy : Int} {x y : Nat} (A : s.Allocated t dst w ht)
  (hv : (s.desc src).valid = true) (hx : (x : Int) < w) (hy : (y : Int) < ht)
include A hv hx hy

/-- A new pixel takes the old source's, where that is in bounds, and else what `Alloc` cleared it to (R214). -/
theorem State.Allocated.px_cropInto :
    (t.cropInto dst src sx sy).px dst x y =
      if s.inB src (sx + x) (sy + y) = true then t.px src (sx + x).toNat (sy + y).toNat else 0 := by
  have hxn : x < w.toNat := by omega
  have hyn : y < ht.toNat := by omega
  unfold State.cropInto
  rw [State.px_paint _ (hxn.trans_eq A.width.symm) (hyn.trans_eq A.height.symm),
    State.inB_congr (A.descOther src (A.ne_of_valid hv)), A.cleared x y hxn hyn]
  split_ifs <;> rfl

theorem State.Allocated.px_cropInto_of_inB (hs : s.MemInv) (hin : s.inB src (sx + x) (sy + y) = true) :
    (t.cropInto dst src sx sy).px dst x y = s.px src (sx + x).toNat (sy + y).toNat := by
  obtain ⟨hx0, hxs, hy0, hys⟩ := (s.inB_iff src _ _).1 hin
  rw [A.px_cropInto hv hx hy, if_pos hin, A.px_of_valid hs hv (by omega) (by omega)]

theorem State.Allocated.px_cropInto_of_not_inB (hin : s.inB src (sx + x) (sy + y) = false) :
    (t.cropInto dst src sx sy).px dst x y = 0 := by
  rw [A.px_cropInto hv hx hy, if_neg (by simp [hin])]

end

/-- Settles O33: the sentinel, then each way `Alloc` ends; after its success a pixel splits on its source being in
bounds. -/
theorem cropOutcome : Obligations.CropOutcome := by
  intro s hs hf
  refine ⟨exec_crop_of_sentinel hf, fun hv hd => exec_crop_of_error hs hf hv (State.alloc_inUse hd _ _),
    fun hv hd hr => exec_crop_of_error hs hf hv (State.alloc_dim hd hr),
    fun hv hd hr hn => exec_crop_of_error hs hf hv (State.alloc_noMem hd hr hn), ?success⟩
  case success =>
    rintro hv hd ⟨hw0, hw1, hh0, hh1⟩ hfit
    obtain ⟨t, e⟩ := State.alloc_of_fits (h := s.dst) hd ⟨hw0, hw1⟩ ⟨hh0, hh1⟩ hfit
    have A := State.alloc_ok e
    exact ⟨_, exec_crop_of_ok hs hf hv e, (A.gainsSurface.paint _).complete .ok, congrArg (·.complete .ok) A.status,
      fun i j hi hj => ⟨A.px_cropInto_of_inB hv hi hj hs, A.px_cropInto_of_not_inB hv hi hj⟩⟩

end Sys2Proof.Machine
end

section
/-! How a command completes (60_exceptions.md R231 to R234), what its code says of the state, and the interrupt level
(R240). -/

namespace Sys2Proof.Machine

/-! ### The common prologue -/

theorem State.runLatched_of_decode {s : State} {i : Instr} (hd : decode s.latch.cmd = .ok i) :
    s.runLatched = exec i s := by
  unfold State.runLatched
  rw [hd]

/-- Settles O9: the fatal lock on any word and on any command; past it, an illegal and a legal word. -/
theorem commonPrologue : Obligations.CommonPrologue := by
  refine fun s => ⟨State.runLatched_of_locked, State.runLatched_of_illegal, fun _ hl => ?legal, exec_of_locked⟩
  case legal =>
    obtain ⟨i, hd⟩ := (legal_iff _).1 hl
    exact ⟨i, hd, State.runLatched_of_decode hd⟩

/-! ### STATUS after a command -/

/-- What each way to end a command writes in STATUS (R231, R233). -/
theorem State.Ends.status_cases {s t : State} (ht : s.Ends t) :
    (∃ c, c ≠ .palFormat ∧ t.status = s.status.complete c) ∨ t.status = s.status.completeSentinel ∨
      t.status = s.status.raiseFatal .palFormat := by
  cases ht with
  | error c _ hc => exact .inl ⟨c, hc, rfl⟩
  | sentinel => exact .inr (.inl rfl)
  | fatal => exact .inr (.inr rfl)
  | effect u hu =>
    obtain ⟨hst, -⟩ := hu.untouched
    exact .inl ⟨.ok, by decide, congrArg (·.complete .ok) hst⟩

/-- FATAL after a command: kept, or set along with E_PAL_FORMAT. -/
theorem State.Ends.fatal_iff {s t : State} (ht : s.Ends t) :
    t.status.fatal = true ↔ s.status.fatal = true ∨ t.status.err = .palFormat := by
  rcases ht.status_cases with ⟨c, hc, e⟩ | e | e
  · rw [e]; exact (or_iff_left hc).symm
  · rw [e]; exact (or_iff_left (by decide : ErrCode.ok ≠ .palFormat)).symm
  · rw [e]; exact iff_of_true rfl (.inr rfl)

theorem State.Ends.done {s t : State} (ht : s.Ends t) : t.status.done = true := by
  rcases ht.status_cases with ⟨c, -, e⟩ | e | e
  · rw [e]; rfl
  · rw [e]; rfl
  · rw [e]; rfl

theorem State.Ends.ie {s t : State} (ht : s.Ends t) : t.ie = s.ie := by
  cases ht with
  | effect u hu =>
    obtain ⟨-, hie, -⟩ := hu.untouched
    exact hie
  | error c _ _ => rfl
  | sentinel => rfl
  | fatal => rfl

/-- Settles O36: of the ways to end a command, only OK without SENT comes after an effect. -/
theorem errorsChangeOnlyStatus : Obligations.ErrorsChangeOnlyStatus := by
  intro i s t h hcode
  cases exec_cases h with
  | error c _ _ => rfl
  | sentinel => rfl
  | fatal => rfl
  | effect u _ =>
    rcases hcode with herr | hsent
    · exact absurd rfl herr
    · cases hsent

/-! ### The commands that do not raise E_PAL_FORMAT -/

theorem State.drawOn_err {s t : State} {h : Handle} {draw : State → State} (e : s.drawOn h draw = .next t) :
    t.status.err = .ok ∨ t.status.err = .readOnly := by
  rcases State.drawOn_cases e with ⟨-, rfl⟩ | ⟨-, -, rfl⟩ | ⟨-, -, -, rfl⟩
  · exact .inl rfl
  · exact .inr rfl
  · exact .inl rfl

theorem State.drawOn_err_ne {s t : State} {h : Handle} {draw : State → State} (e : s.drawOn h draw = .next t) :
    t.status.err ≠ .palFormat := by
  rcases State.drawOn_err e with e | e <;> simp [e]

theorem State.allocThen_err {s t : State} {h : Handle} {w ht : Int} {body : State → State}
    (e : s.allocThen h w ht body = .next t) : t.status.err = .ok ∨ s.alloc h w ht = .error t.status.err := by
  rcases State.allocThen_cases e with ⟨c, hc, rfl⟩ | ⟨u, -, rfl⟩
  · exact .inr hc
  · exact .inl rfl

theorem State.allocThen_err_ne {s t : State} {h : Handle} {w ht : Int} {body : State → State}
    (e : s.allocThen h w ht body = .next t) : t.status.err ≠ .palFormat := by
  rcases State.allocThen_err e with e | e
  · simp [e]
  · exact (State.alloc_error_ne e).2

/-- No command but PAL_UNPACK completes with E_PAL_FORMAT (R233). -/
theorem eq_palUnpack_of_exec_palFormat {i : Instr} {s t : State} (hf : s.status.fatal = false)
    (h : exec i s = .next t) (herr : t.status.err = .palFormat) : i = .palUnpack := by
  cases i with
  | palUnpack => rfl
  | nop =>
    rw [exec_nop hf] at h
    cases h
    cases herr
  | surfAlloc => exact absurd herr (State.allocThen_err_ne (exec_surfAlloc hf ▸ h))
  | surfSeal =>
    rw [exec_surfSeal hf] at h
    split at h
    · cases h; cases herr
    · cases h; cases herr
  | ctLoad =>
    rw [exec_ctLoad hf] at h
    cases h
    cases herr
  | remap =>
    rw [exec_remap hf] at h
    split at h
    · cases h; cases herr
    · split at h
      · cases h; cases herr
      · obtain ⟨-, h⟩ := State.onSurface_cases h
        exact absurd herr (State.allocThen_err_ne h)
  | fillRect => exact absurd herr (State.drawOn_err_ne (exec_fillRect hf ▸ h))
  | fillCircle => exact absurd herr (State.drawOn_err_ne (exec_fillCircle hf ▸ h))
  | fillEllipse => exact absurd herr (State.drawOn_err_ne (exec_fillEllipse hf ▸ h))
  | fillRing => exact absurd herr (State.drawOn_err_ne (exec_fillRing hf ▸ h))
  | drawLine => exact absurd herr (State.drawOn_err_ne (exec_drawLine hf ▸ h))
  | blit mh mv rot =>
    rw [exec_blit hf] at h
    split at h
    · cases h; cases herr
    · split at h
      · cases h; cases herr
      · split at h
        · cases h; cases herr
        · obtain ⟨-, h⟩ := State.onSurface_cases h
          obtain ⟨-, h⟩ := State.onSurface_cases h
          cases h
          cases herr
  | crop =>
    rw [exec_crop hf] at h
    split at h
    · cases h; cases herr
    · obtain ⟨-, h⟩ := State.onSurface_cases h
      exact absurd herr (State.allocThen_err_ne h)

/-! ### FATAL over a step -/

theorem State.doRead_status (s : State) (addr : HostAddr) (be : BitVec 4) : (s.doRead addr be).status = s.status := by
  unfold State.doRead
  split <;> rfl

/-- No host write touches FATAL, but for the soft reset. -/
theorem State.writeWindow_fatal (s : State) (v : Word) (w : Window) (hr : w = .ctrl → v.getLsbD 1 = false) :
    (s.writeWindow v w).status.fatal = s.status.fatal := by
  cases w with
  | ctrl => simp only [State.writeWindow, State.writeCtrl, hr rfl]; rfl
  | cmd =>
    simp only [State.writeWindow, State.writeCmd]
    split <;> rfl
  | _ => rfl

theorem State.doWrite_fatal {s : State} {addr : HostAddr} {be : BitVec 4} {v : Word}
    (hr : (Input.hostWrite addr be v).resets s = false) : (s.doWrite addr be v).status.fatal = s.status.fatal := by
  unfold State.doWrite
  split
  case isTrue hl => exact s.writeWindow_fatal v _ fun hc => by simpa [Input.resets, hl, hc] using hr
  case isFalse => rfl

/-- R233: FATAL stays 1 over every step but a reset. -/
theorem State.StepCase.fatal {s t : State} (hc : s.StepCase t) (hf : s.status.fatal = true)
    (hr : s.resetsNext = false) : t.status.fatal = true := by
  cases hc with
  | runs u _ hu _ ht =>
    refine ht.fatal_iff.2 (.inl ?_)
    rcases hu with rfl | rfl
    · exact hf
    · exact hf
  | idle _ hu _ =>
    rcases hu with rfl | rfl
    · exact hf
    · exact hf
  | hardReset rest hi => simp [State.resetsNext, hi, Input.resets] at hr
  | read addr be rest hi _ => rw [State.doRead_status]; exact hf
  | write addr be v rest hi _ =>
    have hri : (Input.hostWrite addr be v).resets s = false := by simpa [State.resetsNext, hi] using hr
    exact (State.doWrite_fatal (s := s.popInput) hri).trans hf

/-- Settles O37: FATAL by how the command ends, the command by `eq_palUnpack_of_exec_palFormat`, and the steps. -/
theorem fatalOnlyFromPaletteFormat : Obligations.FatalOnlyFromPaletteFormat := by
  refine ⟨fun i s t hf h => ⟨?fatal, eq_palUnpack_of_exec_palFormat hf h⟩, fun s t h hf hr => (step_cases h).fatal hf hr⟩
  case fatal =>
    rw [(exec_cases h).fatal_iff, hf]
    exact or_iff_right Bool.false_ne_true

/-! ### The interrupt level -/

theorem State.irq_iff (s : State) : s.irq = true ↔ s.ie = true ∧ s.status.done = true := Bool.and_eq_true_iff

/-- R22: DONE is bit 1 of STATUS. -/
theorem Status.toWord_done (st : Status) : st.toWord.getLsbD 1 = st.done := by
  simp only [Status.toWord, BitVec.getLsbD_append]
  simp

theorem State.writeCompletes_status {s : State} {v : Word} {rest : List Input}
    (hi : s.inputs = .hostWrite 0x004 0xF v :: rest) :
    s.WriteCompletes { s.popInput with status := s.status.hostWrite v } :=
  State.writeCompletes_of_not_held (off := 0x004) (by decide) (by decide) hi (.inr rfl)

/-- A write to CTRL other than the soft reset (R23). -/
theorem State.writeCompletes_ctrl {s : State} {v : Word} {rest : List Input}
    (hi : s.inputs = .hostWrite 0x008 0xF v :: rest) (hv : v.getLsbD 1 = false) :
    s.WriteCompletes { s.popInput with ie := v.getLsbD 0 } := by
  have hw : s.WriteCompletes (s.popInput.writeCtrl v) :=
    State.writeCompletes_of_not_held (off := 0x008) (by decide) (by decide) hi (.inr rfl)
  rwa [State.writeCtrl, if_neg (ne_true_of_eq_false hv)] at hw

/-- The response to a write does not enter `irq`. -/
theorem State.WriteCompletes.irq {s u t : State} (hw : s.WriteCompletes u) (h : step s = .next t) : t.irq = u.irq := by
  obtain ⟨d, hd⟩ := hw
  obtain rfl := Host.Outcome.next.inj (hd.symm.trans h)
  rfl

/-- Settles O41: `irq` by its two bits; a completion sets DONE, a write to CTRL sets IE, and a write to STATUS clears
DONE. -/
theorem irqIsALevel : Obligations.IrqIsALevel := by
  refine ⟨fun s => ?level, fun i s t h hie => ?completion, fun s t v rest hi h hv => ?ctrl,
    fun s t v rest hi h hv => ?status⟩
  case level => rw [Status.toWord_done, s.irq_iff]
  case completion =>
    have ht := exec_cases h
    exact t.irq_iff.2 ⟨ht.ie.trans hie, ht.done⟩
  case ctrl =>
    have e : t.irq = (v.getLsbD 0 && s.status.done) := (State.writeCompletes_ctrl hi hv).irq h
    exact ⟨fun h0 hd => by rw [e, h0, hd]; rfl, fun h0 => by rw [e, h0]; rfl⟩
  case status =>
    have e : t.irq = (s.ie && (s.status.done && !v.getLsbD 1)) := (State.writeCompletes_status hi).irq h
    rw [e, hv]
    simp

end Sys2Proof.Machine
end

section
/-! The reset input and the soft reset (70_reset_and_hazards.md R260, R261): the state after either is
`State.doReset` of the state without the input; what is read there; and the step that gives it. -/

namespace Sys2Proof.Machine

/-! ### The state after a reset -/

theorem reset_statusWord : State.reset.status.toWord = 0 := by decide

@[simp] theorem State.doReset_statusWord (s : State) : s.doReset.status.toWord = 0 := reset_statusWord

@[simp] theorem State.doReset_args (s : State) (k : Fin 8) : s.doReset.args[k.val] = 0 :=
  Vector.getElem_replicate k.isLt

@[simp] theorem State.doReset_text (s : State) (n : Fin 4) : s.doReset.text[n.val] = 0 :=
  Vector.getElem_replicate n.isLt

@[simp] theorem State.doReset_slot (s : State) (k : BitVec 8) : s.doReset.slot k = 0 :=
  Vector.getElem_replicate k.isLt

@[simp] theorem State.doReset_desc (s : State) (h : Handle) : s.doReset.desc h = Desc.sentinel :=
  Vector.getElem_replicate h.isLt

@[simp] theorem State.doReset_larg (s : State) (k : Fin 8) : s.doReset.larg k = 0 :=
  Vector.getElem_replicate k.isLt

@[simp] theorem State.doReset_latchText (s : State) (k : Fin 16) : s.doReset.latch.text[k.val] = 0 :=
  Vector.getElem_replicate k.isLt

/-- R31: with PAL_COUNT = 0 every entry is missing. -/
@[simp] theorem State.doReset_effPal (s : State) (i : Nat) : s.doReset.effPal i = 0xFFFFFFFF :=
  if_neg (Nat.not_lt_zero i)

/-- No byte is listed, so each one reads as the free value of this reset (log 3). -/
@[simp] theorem State.doReset_readByte (s : State) (b : Nat) :
    s.doReset.readByte b = Config.resetByte (s.resets + 1) b := rfl

/-! ### The two resets -/

/-- CTRL is never held, so a write to it with bit 1 set resets the block at once, BUSY or not. -/
theorem State.writeCompletes_softReset {s : State} {v : Word} {rest : List Input}
    (hi : s.inputs = .hostWrite 0x008 0xF v :: rest) (hv : v.getLsbD 1 = true) :
    s.WriteCompletes s.popInput.doReset := by
  have hw : s.WriteCompletes (s.popInput.writeCtrl v) :=
    State.writeCompletes_of_not_held (off := 0x008) (by decide) (by decide) hi (.inr rfl)
  rwa [State.writeCtrl, if_pos hv] at hw

/-- Settles O50: the step of the reset input is `State.doReset`, read piece by piece. -/
theorem hardResetValues : Obligations.HardResetValues := by
  intro s rest hi
  refine ⟨_, step_hardReset hi, s.popInput.doReset_statusWord, rfl, rfl, s.popInput.doReset_args,
    s.popInput.doReset_text, rfl, rfl, s.popInput.doReset_slot, s.popInput.doReset_desc, rfl, s.popInput.doReset_larg,
    s.popInput.doReset_latchText, rfl, s.popInput.doReset_effPal, s.popInput.doReset_readByte, rfl, ?inputs⟩
  case inputs => exact congrArg List.tail hi

/-- Settles O51: both steps give the `State.doReset` of the state without its input, and only the write answers. -/
theorem softResetIsAReset : Obligations.SoftResetIsAReset := by
  intro s v rest hv
  obtain ⟨d, hd⟩ := State.writeCompletes_softReset (s := { s with inputs := .hostWrite 0x008 0xF v :: rest }) rfl hv
  exact ⟨_, _, d, hd, step_hardReset rfl, rfl, rfl⟩

end Sys2Proof.Machine
end

section
/-! The invariant over a step (10_state.md R34): what each kind of step does, the invariant over each, and that in a
state that meets it no step stops. -/

namespace Sys2Proof.Machine

/-! ### The kinds of step -/

/-- A step by what it answers: a run of the latched command, the idle engine's turn, a reset, or a host access. -/
inductive State.Moves (s : State) : State → Prop where
  | runs {t : State} (h : s.StepRuns t) : s.Moves t
  | idle {t : State} (ht : t = s ∨ t = s.popInput) : s.Moves t
  | reset (hi : s.inputs.head? = some .hardReset) : s.Moves s.popInput.doReset
  | read (addr : HostAddr) (be : BitVec 4) : s.Moves (s.popInput.doRead addr be)
  | write {addr : HostAddr} {be : BitVec 4} {v : Word} (hi : s.inputs.head? = some (.hostWrite addr be v)) :
    s.Moves (s.popInput.doWrite addr be v)

theorem State.engineTurn_moves {s u t : State} (hu : u = s ∨ u = s.popInput) (h : u.engineTurn = .next t) :
    s.Moves t := by
  have hst : u.status = s.status := by
    rcases hu with rfl | rfl
    · rfl
    · rfl
  unfold State.engineTurn at h
  split at h
  case isTrue hb => exact .runs ⟨hst ▸ hb, u, hu, h⟩
  case isFalse => cases h; exact .idle hu

theorem step_moves {s t : State} (h : step s = .next t) : s.Moves t := by
  cases hi : s.inputs with
  | nil => exact State.engineTurn_moves (.inl rfl) (step_noInput hi ▸ h)
  | cons i rest =>
    cases i with
    | engineTurn => exact State.engineTurn_moves (.inr rfl) (step_engineTurn hi ▸ h)
    | hardReset =>
      obtain rfl := Host.Outcome.next.inj ((step_hardReset hi).symm.trans h)
      exact .reset (by rw [hi]; rfl)
    | hostRead addr be =>
      cases hh : s.holds addr be with
      | true => exact .runs ⟨State.busy_of_holds hh, s, .inl rfl, step_held_read hi hh ▸ h⟩
      | false =>
        obtain rfl := Host.Outcome.next.inj ((step_hostRead hi hh).symm.trans h)
        exact .read addr be
    | hostWrite addr be v =>
      cases hh : s.holds addr be with
      | true => exact .runs ⟨State.busy_of_holds hh, s, .inl rfl, step_held_write hi hh ▸ h⟩
      | false =>
        obtain rfl := Host.Outcome.next.inj ((step_hostWrite hi hh).symm.trans h)
        exact .write (by rw [hi]; rfl)

/-! ### What the invariant reads -/

/-- The register invariant reads PAL_COUNT, the slots, CMD and the latched word, and three fields of STATUS. -/
theorem State.RegInv.congr {s t : State} (hs : s.RegInv) (hpal : t.palCount = s.palCount) (hct : t.ctRam = s.ctRam)
    (hcmd : t.cmd = t.latch.cmd) (hsent : t.status.sent = s.status.sent) (herr : t.status.err = s.status.err)
    (hfatal : t.status.fatal = s.status.fatal) : t.RegInv where
  palBound := hpal ▸ hs.palBound
  slots k := by
    have hk : t.slot k = s.slot k := by simp only [State.slot, hct]
    exact hk ▸ hs.slots k
  cmdLatched := hcmd
  sentOk h := herr ▸ hs.sentOk (hsent ▸ h)
  fatalErr h := herr ▸ hs.fatalErr (hfatal ▸ h)

/-- The list of inputs and the last response do not enter the invariant. -/
theorem State.Inv.withPort {s : State} (hs : s.Inv) (is : List Input) (r : Option Reply) :
    State.Inv { s with inputs := is, reply := r } where
  memory := State.memInv_congr hs.memory rfl rfl rfl rfl
  registers := hs.registers.congr rfl rfl hs.registers.cmdLatched rfl rfl rfl

theorem State.Inv.popInput {s : State} (hs : s.Inv) : s.popInput.Inv := hs.withPort s.inputs.tail s.reply

theorem State.Inv.respond {s : State} (hs : s.Inv) (r : Reply) : (s.respond r).Inv := hs.withPort s.inputs (some r)

theorem State.Inv.doRead {s : State} (hs : s.Inv) (addr : HostAddr) (be : BitVec 4) : (s.doRead addr be).Inv := by
  unfold State.doRead
  split
  · exact hs.respond _
  · exact hs.respond _

/-! ### Reset -/

/-- The reset values meet the invariant whatever the parameters, the inputs to come and the free content are. -/
theorem inv_reset (p : Params) (n : Nat) (is : List Input) :
    State.Inv { State.reset with params := p, resets := n, inputs := is } where
  memory := State.memInv_of_empty (fun h => Vector.getElem_replicate h.isLt) rfl rfl
  registers :=
    { palBound := Nat.zero_le _
      slots := fun k => by
        have hk : State.slot { State.reset with params := p, resets := n, inputs := is } k = 0 :=
          Vector.getElem_replicate k.isLt
        exact hk ▸ slotWellFormed_zero
      cmdLatched := rfl
      sentOk := fun _ => rfl
      fatalErr := fun h => absurd h Bool.false_ne_true }

/-- Settles O53: the reset state is the reset values with their own parameters. -/
theorem resetMeetsInv : Obligations.ResetMeetsInv := inv_reset Params.standard 0 []

/-! ### Commands -/

theorem State.Ends.memInv {s t : State} (ht : s.Ends t) (hs : s.MemInv) : t.MemInv := by
  cases ht with
  | effect u hu => exact State.memInv_congr (hs.effect hu) rfl rfl rfl rfl
  | error c _ _ => exact State.memInv_congr hs rfl rfl rfl rfl
  | sentinel => exact State.memInv_congr hs rfl rfl rfl rfl
  | fatal => exact State.memInv_congr hs rfl rfl rfl rfl

/-- An append below the full count counts one up (R28). -/
theorem State.Effect.palBound {s u : State} (hu : s.Effect u) (hs : s.palCount.toNat ≤ Config.palDepth) :
    u.palCount.toNat ≤ Config.palDepth := by
  rcases hu.palCount with e | ⟨hn, e⟩
  · exact e ▸ hs
  · have hlt : s.palCount.toNat < 32 := lt_of_le_of_ne hs hn
    rw [e]
    exact (State.appendPal_palCount_toNat hlt 0).trans_le hlt

/-- SENT = 1 only with OK after any command (R231). -/
theorem State.Ends.sentOk {s t : State} (ht : s.Ends t) (h : t.status.sent = true) : t.status.err = .ok := by
  rcases ht.status_cases with ⟨c, -, e⟩ | e | e
  · rw [e] at h; cases h
  · rw [e]; rfl
  · rw [e] at h; cases h

/-- After any command FATAL = 1 only with E_PAL_FORMAT or the lock's code (R233, R234). -/
theorem State.runLatched_fatalErr {s t : State} (h : s.runLatched = .next t) (hfatal : t.status.fatal = true) :
    t.status.err = .palFormat ∨ t.status.err = .fatalLock := by
  cases hf : s.status.fatal with
  | true =>
    obtain rfl := Host.Outcome.next.inj ((State.runLatched_of_locked hf).symm.trans h)
    exact .inr rfl
  | false =>
    rcases (State.runLatched_cases h).fatal_iff.1 hfatal with e | e
    · rw [hf] at e; cases e
    · exact .inl e

theorem State.RegInv.runLatched {s t : State} (hs : s.RegInv) (h : s.runLatched = .next t) : t.RegInv := by
  have sentOk := (State.runLatched_cases h).sentOk
  have fatalErr := State.runLatched_fatalErr h
  cases State.runLatched_cases h with
  | effect u hu =>
    obtain ⟨-, -, hcmd, -, -, hlatch, -⟩ := hu.untouched
    have cmdLatched : u.cmd = u.latch.cmd := by rw [hcmd, hlatch]; exact hs.cmdLatched
    exact ⟨hu.palBound hs.palBound, hu.slots hs.slots, cmdLatched, sentOk, fatalErr⟩
  | error c _ _ => exact ⟨hs.palBound, hs.slots, hs.cmdLatched, sentOk, fatalErr⟩
  | sentinel => exact ⟨hs.palBound, hs.slots, hs.cmdLatched, sentOk, fatalErr⟩
  | fatal => exact ⟨hs.palBound, hs.slots, hs.cmdLatched, sentOk, fatalErr⟩

theorem State.Inv.stepRuns {s t : State} (hs : s.Inv) (h : s.StepRuns t) : t.Inv := by
  obtain ⟨-, u, hu, hrun⟩ := h
  have hinv : u.Inv := by
    rcases hu with rfl | rfl
    · exact hs
    · exact hs.popInput
  exact ⟨(State.runLatched_cases hrun).memInv hinv.memory, hinv.registers.runLatched hrun⟩

/-! ### Host writes -/

theorem State.Inv.writeCtrl {s : State} (hs : s.Inv) (v : Word) : (s.writeCtrl v).Inv := by
  unfold State.writeCtrl
  split
  · exact inv_reset s.params (s.resets + 1) s.inputs
  · exact ⟨State.memInv_congr hs.memory rfl rfl rfl rfl,
      hs.registers.congr rfl rfl hs.registers.cmdLatched rfl rfl rfl⟩

/-- An accepted word stands in CMD and in the latch; a dropped one in neither. -/
theorem State.Inv.writeCmd {s : State} (hs : s.Inv) (w : Word) : (s.writeCmd w).Inv := by
  unfold State.writeCmd
  split
  · exact ⟨State.memInv_congr hs.memory rfl rfl rfl rfl,
      hs.registers.congr rfl rfl hs.registers.cmdLatched rfl rfl rfl⟩
  · exact ⟨State.memInv_congr hs.memory rfl rfl rfl rfl, hs.registers.congr rfl rfl rfl rfl rfl rfl⟩

theorem State.Inv.writeWindow {s : State} (hs : s.Inv) (v : Word) {w : Window}
    (hw : ∀ a, w = .pixWin a → a < s.params.pixWords.val) : (s.writeWindow v w).Inv := by
  have others {t : State} (h : t = { s with status := t.status, args := t.args, text := t.text })
      (hsent : t.status.sent = s.status.sent) (herr : t.status.err = s.status.err)
      (hfatal : t.status.fatal = s.status.fatal) : t.Inv := by
    have hcmd : t.cmd = t.latch.cmd := by rw [h]; exact hs.registers.cmdLatched
    exact ⟨State.memInv_congr hs.memory (by rw [h]) (by rw [h]) (by rw [h]) (by rw [h]),
      hs.registers.congr (by rw [h]) (by rw [h]) hcmd hsent herr hfatal⟩
  cases w with
  | ctrl => exact hs.writeCtrl v
  | cmd => exact hs.writeCmd v
  | pixWin a =>
    exact ⟨hs.memory.memWrite (hw a rfl) v, hs.registers.congr rfl rfl hs.registers.cmdLatched rfl rfl rfl⟩
  | status => exact others rfl rfl rfl rfl
  | arg k => exact others rfl rfl rfl rfl
  | text n => exact others rfl rfl rfl rfl
  | id => exact hs
  | palCount => exact hs
  | allocPtr => exact hs
  | palWin i => exact hs
  | ctWin k => exact hs
  | descWin0 h => exact hs
  | descWin1 h => exact hs
  | unmapped => exact hs

theorem State.Inv.doWrite {s : State} (hs : s.Inv) (addr : HostAddr) (be : BitVec 4) (v : Word) :
    (s.doWrite addr be v).Inv := by
  unfold State.doWrite
  split
  · exact (hs.writeWindow v fun a ha => lt_of_windowAt_pixWin ha).respond _
  · exact hs.respond _

/-! ### Every step -/

/-- Settles O54: the invariant over each kind of step. -/
theorem stepKeepsInv : Obligations.StepKeepsInv := by
  intro s t hs h
  cases step_moves h with
  | runs hrun => exact hs.stepRuns hrun
  | idle ht =>
    rcases ht with rfl | rfl
    · exact hs
    · exact hs.popInput
  | reset _ => exact inv_reset s.params (s.resets + 1) s.popInput.inputs
  | read addr be => exact hs.popInput.doRead addr be
  | write _ => exact hs.popInput.doWrite _ _ _

end Sys2Proof.Machine
end

section
/-! What a step leaves alone: the pixels of a sealed surface (10_state.md R36, R107), the palette's entries (R125), the
parameters, and what no command touches. -/

namespace Sys2Proof.Machine

/-! ### Sealed surfaces -/

/-- `t` keeps the sealed surface `h` of `s`: its descriptor and each of its words. -/
structure State.KeepsSealed (s t : State) (h : Handle) : Prop where
  desc : t.desc h = s.desc h
  words : ∀ a, s.covers h a → t.memRead a = s.memRead a

theorem State.KeepsSealed.refl (s : State) (h : Handle) : s.KeepsSealed s h := ⟨rfl, fun _ _ => rfl⟩

/-- A word of one surface lies outside every other. -/
theorem State.MemInv.outside_of_covers {s : State} (hs : s.MemInv) {h k : Handle} {a : Nat} (hc : s.covers h a)
    (hk : (s.desc k).valid = true) (hne : h ≠ k) :
    a < (s.desc k).base.toNat ∨ (s.desc k).base.toNat + s.width k * s.height k ≤ a := by
  by_contra hin
  obtain ⟨hlo, hhi⟩ := not_or.1 hin
  exact hne (hs.disjoint h k a hc ⟨hk, not_lt.1 hlo, not_le.1 hhi⟩)

/-- A word of a surface lies below ALLOC_PTR. -/
theorem State.MemInv.lt_of_covers {s : State} (hs : s.MemInv) {h : Handle} {a : Nat} (hc : s.covers h a) :
    a < s.allocPtr.toNat :=
  hc.2.2.trans_le (hs.surfaceEnd h hc.1)

/-- A word whose four bytes are unchanged is unchanged. -/
theorem State.memRead_congr {s t : State} {a : Nat} (hb : ∀ b, b / 4 = a → t.readByte b = s.readByte b) :
    t.memRead a = s.memRead a := by
  unfold State.memRead
  rw [hb _ (by omega), hb _ (by omega), hb _ (by omega), hb _ (by omega)]

section
variable {s : State} (hs : s.MemInv) {h : Handle} (hv : (s.desc h).valid = true)
include hs hv

/-- Neither `Alloc` nor a write to the surface it made touches another surface. -/
theorem State.Allocated.keepsSealed {t : State} {k : Handle} {w ht : Int} (A : s.Allocated t k w ht)
    (ws : List (Int × Int × Word)) : s.KeepsSealed (t.setPixels k ws) h where
  desc := A.descOther h (A.ne_of_valid hv)
  words a hc := by
    have hlt := hs.lt_of_covers hc
    have below : a < (t.desc k).base.toNat := by rw [A.descNew]; exact hlt
    rw [State.memRead_setPixels_outside ws (.inl below)]
    exact State.memRead_congr fun b hb => A.outside b (.inl (hb ▸ hlt))

/-- A command draws on unsealed surfaces and on new ones only, and these share no word with a sealed one. -/
theorem State.Effect.keepsSealed {u : State} (hu : s.Effect u) (hro : (s.desc h).ro = true) : s.KeepsSealed u h := by
  cases hu with
  | nothing => exact .refl s h
  | palette e _ => exact ⟨rfl, fun _ _ => rfl⟩
  | table k v _ => exact ⟨rfl, fun _ _ => rfl⟩
  | sealed k _ =>
    refine ⟨?_, fun _ _ => rfl⟩
    rw [State.desc_seal]
    split
    case isTrue hk => rw [← hk, ← hro]
    case isFalse => rfl
  | drawn k ws hk hkro _ =>
    have hne : h ≠ k := by rintro rfl; rw [hro] at hkro; cases hkro
    exact ⟨rfl, fun a hc => State.memRead_setPixels_outside ws (hs.outside_of_covers hc hk hne)⟩
  | allocated k w ht t ws ha => exact (State.alloc_ok ha).keepsSealed hs hv ws

theorem State.Ends.keepsSealed {t : State} (ht : s.Ends t) (hro : (s.desc h).ro = true) : s.KeepsSealed t h := by
  cases ht with
  | effect u hu =>
    have K := hu.keepsSealed hs hv hro
    exact ⟨K.desc, K.words⟩
  | error c _ _ => exact ⟨rfl, fun _ _ => rfl⟩
  | sentinel => exact ⟨rfl, fun _ _ => rfl⟩
  | fatal => exact ⟨rfl, fun _ _ => rfl⟩

end

theorem State.StepRuns.keepsSealed {s t : State} (hrun : s.StepRuns t) (hs : s.MemInv) {h : Handle}
    (hv : (s.desc h).valid = true) (hro : (s.desc h).ro = true) : s.KeepsSealed t h := by
  obtain ⟨-, u, hu, hrun⟩ := hrun
  rcases hu with rfl | rfl
  · exact (State.runLatched_cases hrun).keepsSealed hs hv hro
  · have hp : s.popInput.MemInv := State.memInv_congr hs rfl rfl rfl rfl
    have K := (State.runLatched_cases hrun).keepsSealed (h := h) hp hv hro
    exact ⟨K.desc, K.words⟩

/-- Of the host's writes only a PIXWIN write, or a reset, changes a word of pixel memory (R63). -/
theorem State.memRead_writeWindow {s : State} {v : Word} {w : Window} {a : Nat}
    (hr : w = .ctrl → v.getLsbD 1 = false) (hw : w ≠ .pixWin a) : (s.writeWindow v w).memRead a = s.memRead a := by
  cases w with
  | pixWin b =>
    have hab : a ≠ b := fun e => hw (by rw [e])
    exact (s.memRead_memWrite b a v).trans (if_neg hab)
  | ctrl =>
    simp only [State.writeWindow, State.writeCtrl, hr rfl]
    rfl
  | cmd =>
    simp only [State.writeWindow, State.writeCmd]
    split
    · rfl
    · rfl
  | _ => rfl

theorem State.memRead_doWrite {s : State} {addr : HostAddr} {be : BitVec 4} {v : Word} {a : Nat}
    (hr : (Input.hostWrite addr be v).resets s = false) (hw : s.window addr ≠ .pixWin a) :
    (s.doWrite addr be v).memRead a = s.memRead a := by
  unfold State.doWrite
  split
  case isTrue hl => exact State.memRead_writeWindow (fun hc => by simpa [Input.resets, hl, hc] using hr) hw
  case isFalse => rfl

theorem State.memRead_doRead (s : State) (addr : HostAddr) (be : BitVec 4) (a : Nat) :
    (s.doRead addr be).memRead a = s.memRead a := by
  unfold State.doRead
  split
  · rfl
  · rfl

/-- The first input, if the next step is no reset, resets nothing. -/
theorem State.resets_of_head {s : State} {i : Input} (hr : s.resetsNext = false) (hi : s.inputs.head? = some i) :
    i.resets s = false := by
  obtain ⟨rest, e⟩ := List.head?_eq_some_iff.1 hi
  simpa [State.resetsNext, e] using hr

/-- Settles O57: a run of a command by its effect; a host write by the host's duty; no other step writes memory. -/
theorem sealedSurfacesKeepTheirPixels : Obligations.SealedSurfacesKeepTheirPixels := by
  intro s t h hs hstep hr hduty hv hro
  have hdesc (hsame : s.sameButHostPort t) : t.desc h = s.desc h := State.sameButHostPort_desc hsame h
  have K : s.KeepsSealed t h := by
    cases step_moves hstep with
    | runs hrun => exact hrun.keepsSealed hs.memory hv hro
    | idle ht =>
      rcases ht with rfl | rfl
      · exact .refl _ h
      · exact ⟨rfl, fun _ _ => rfl⟩
    | reset hi => exact absurd (State.resets_of_head hr hi) (by simp [Input.resets])
    | read addr be =>
      exact ⟨hdesc (s.sameButHostPort_doRead addr be), fun a _ => s.popInput.memRead_doRead addr be a⟩
    | write hi =>
      have hri := State.resets_of_head hr hi
      have spared := hduty _ (Option.mem_def.2 hi)
      refine ⟨hdesc (State.sameButHostPort_doWrite hri), fun a hc => ?_⟩
      exact State.memRead_doWrite (s := s.popInput) hri fun hw => spared a hw hc
  exact ⟨K.desc, K.words⟩

/-! ### The palette -/

/-- R125 and R28 over one change of state. -/
structure State.KeepsPalette (s t : State) : Prop where
  grows : s.palCount.toNat ≤ t.palCount.toNat
  byOne : t.palCount.toNat ≤ s.palCount.toNat + 1
  entries : ∀ i, i < s.palCount.toNat → t.effPal i = s.effPal i

theorem State.KeepsPalette.of_eq {s t : State} (hc : t.palCount = s.palCount) (hram : t.palRam = s.palRam) :
    s.KeepsPalette t where
  grows := hc ▸ le_rfl
  byOne := hc ▸ Nat.le_succ _
  entries i _ := by simp only [State.effPal, hc, hram]

theorem State.effPal_appendPal_old {s : State} (hc : s.palCount.toNat < 32) (e : Word) {i : Nat}
    (hi : i < s.palCount.toNat) : (s.appendPal e).effPal i = s.effPal i := by
  have hi' : i < (s.appendPal e).palCount.toNat := by
    rw [State.appendPal_palCount_toNat hc]
    exact hi.trans (Nat.lt_succ_self _)
  unfold State.effPal
  rw [if_pos hi', if_pos hi, State.appendPal_palRam, Vector.getElem?_setIfInBounds_ne hi.ne']

/-- An append writes the first missing entry, below the full count (R120). -/
theorem State.keepsPalette_appendPal {s : State} (hc : s.palCount.toNat < 32) (e : Word) :
    s.KeepsPalette (s.appendPal e) where
  grows := by rw [State.appendPal_palCount_toNat hc]; exact Nat.le_succ _
  byOne := (State.appendPal_palCount_toNat hc e).le
  entries _ hi := State.effPal_appendPal_old hc e hi

theorem State.Effect.keepsPalette {s u : State} (hu : s.Effect u) (hc : s.palCount.toNat ≤ 32) :
    s.KeepsPalette u := by
  cases hu with
  | palette e hn => exact State.keepsPalette_appendPal (lt_of_le_of_ne hc hn) e
  | allocated h w ht t ws ha =>
    have O := State.sameButAllocation_setPixels (State.alloc_ok ha).others h ws
    exact .of_eq (State.sameButAllocation_palCount O) (State.sameButAllocation_palRam O)
  | nothing => exact .of_eq rfl rfl
  | sealed h _ => exact .of_eq rfl rfl
  | table k v _ => exact .of_eq rfl rfl
  | drawn h ws _ _ _ => exact .of_eq rfl rfl

theorem State.Ends.keepsPalette {s t : State} (ht : s.Ends t) (hc : s.palCount.toNat ≤ 32) : s.KeepsPalette t := by
  cases ht with
  | effect u hu =>
    have K := hu.keepsPalette hc
    exact ⟨K.grows, K.byOne, K.entries⟩
  | error c _ _ => exact .of_eq rfl rfl
  | sentinel => exact .of_eq rfl rfl
  | fatal => exact .of_eq rfl rfl

/-- Settles O58: a command by its effect, an append below the full count; no other step touches the palette. -/
theorem paletteIsAppendOnly : Obligations.PaletteIsAppendOnly := by
  intro s t hs h hr
  have K : s.KeepsPalette t := by
    rcases step_runs_or_sameButHostPort h hr with ⟨-, u, hu, hrun⟩ | hsame
    · rcases hu with rfl | rfl
      · exact (State.runLatched_cases hrun).keepsPalette hs.registers.palBound
      · have K := (State.runLatched_cases hrun).keepsPalette (s := s.popInput) hs.registers.palBound
        exact ⟨K.grows, K.byOne, K.entries⟩
    · exact .of_eq (by rw [hsame]) (by rw [hsame])
  exact ⟨K.grows, K.byOne, K.entries⟩

/-! ### What no command writes -/

/-- No way to end a command touches these (R26, R27, R37). -/
theorem State.Ends.untouched {s t : State} (ht : s.Ends t) :
    t.args = s.args ∧ t.text = s.text ∧ t.cmd = s.cmd ∧ t.latch = s.latch ∧ t.ie = s.ie ∧ t.params = s.params ∧
      t.resets = s.resets ∧ t.inputs = s.inputs ∧ t.reply = s.reply := by
  cases ht with
  | effect u hu =>
    obtain ⟨-, hie, hcmd, hargs, htext, hlatch, hparams, hresets, hinputs, hreply⟩ := hu.untouched
    exact ⟨hargs, htext, hcmd, hlatch, hie, hparams, hresets, hinputs, hreply⟩
  | error c _ _ => exact ⟨rfl, rfl, rfl, rfl, rfl, rfl, rfl, rfl, rfl⟩
  | sentinel => exact ⟨rfl, rfl, rfl, rfl, rfl, rfl, rfl, rfl, rfl⟩
  | fatal => exact ⟨rfl, rfl, rfl, rfl, rfl, rfl, rfl, rfl, rfl⟩

/-- Settles O39: the frame of every way a command ends. -/
theorem commandsLeaveHostRegistersAlone : Obligations.CommandsLeaveHostRegistersAlone :=
  fun _ _ _ h => (exec_cases h).untouched

/-! ### The parameters -/

theorem State.doRead_params (s : State) (addr : HostAddr) (be : BitVec 4) : (s.doRead addr be).params = s.params := by
  unfold State.doRead
  split
  · rfl
  · rfl

theorem State.writeWindow_params (s : State) (v : Word) (w : Window) : (s.writeWindow v w).params = s.params := by
  cases w with
  | ctrl =>
    simp only [State.writeWindow, State.writeCtrl]
    split
    · rfl
    · rfl
  | cmd =>
    simp only [State.writeWindow, State.writeCmd]
    split
    · rfl
    · rfl
  | _ => rfl

theorem State.doWrite_params (s : State) (addr : HostAddr) (be : BitVec 4) (v : Word) :
    (s.doWrite addr be v).params = s.params := by
  unfold State.doWrite
  split
  · exact s.writeWindow_params v _
  · rfl

theorem State.StepRuns.params {s t : State} (h : s.StepRuns t) : t.params = s.params := by
  obtain ⟨-, u, hu, hrun⟩ := h
  obtain ⟨-, -, e, -⟩ := State.runLatched_frame hrun
  rcases hu with rfl | rfl
  · exact e
  · exact e

/-- Settles O60: no kind of step writes the parameters; a reset keeps them. -/
theorem parametersNeverChange : Obligations.ParametersNeverChange := by
  intro s t h
  cases step_moves h with
  | runs hrun => exact hrun.params
  | idle ht =>
    rcases ht with rfl | rfl
    · rfl
    · rfl
  | reset _ => rfl
  | read addr be => exact s.popInput.doRead_params addr be
  | write _ => exact s.popInput.doWrite_params _ _ _

end Sys2Proof.Machine
end

section
/-! What every completion writes in STATUS (60_exceptions.md R231), and the codes each command can raise (R230). -/

namespace Sys2Proof.Machine

/-! ### STATUS -/

theorem State.Ends.busy {s t : State} (ht : s.Ends t) : t.status.busy = false := by
  rcases ht.status_cases with ⟨c, -, e⟩ | e | e
  · rw [e]; rfl
  · rw [e]; rfl
  · rw [e]; rfl

theorem State.Ends.cmdOvr {s t : State} (ht : s.Ends t) : t.status.cmdOvr = s.status.cmdOvr := by
  rcases ht.status_cases with ⟨c, -, e⟩ | e | e
  · rw [e]; rfl
  · rw [e]; rfl
  · rw [e]; rfl

/-- Settles O35: each field by the way the command ends. -/
theorem completionWritesStatus : Obligations.CompletionWritesStatus := by
  intro i s t h
  have ht := exec_cases h
  exact ⟨ht.done, ht.busy, ht.cmdOvr, ht.sentOk, fun hf => ht.fatal_iff.2 (.inl hf)⟩

/-! ### The codes of each command -/

/-- R230's raised-by column, read by command: the codes it can complete with while FATAL = 0. -/
def codesOf : Instr → List ErrCode
  | .nop => [.ok]
  | .surfAlloc => [.ok, .inUse, .dim, .noMem]
  | .surfSeal => [.ok]
  | .palUnpack => [.ok, .palFormat, .palFull]
  | .ctLoad => [.ok]
  | .remap => [.ok, .ctRange, .inUse, .noMem]
  | .fillRect => [.ok, .readOnly]
  | .fillCircle => [.ok, .readOnly]
  | .fillEllipse => [.ok, .readOnly]
  | .fillRing => [.ok, .readOnly]
  | .drawLine => [.ok, .readOnly]
  | .blit _ _ _ => [.ok, .readOnly]
  | .crop => [.ok, .inUse, .dim, .noMem]

theorem State.drawOn_err_mem {s t : State} {h : Handle} {draw : State → State} (e : s.drawOn h draw = .next t) :
    t.status.err ∈ [ErrCode.ok, .readOnly] := by
  rcases State.drawOn_err e with e | e <;> simp [e]

theorem State.allocThen_err_mem {s t : State} {h : Handle} {w ht : Int} {body : State → State}
    (e : s.allocThen h w ht body = .next t) : t.status.err ∈ [ErrCode.ok, .inUse, .dim, .noMem] := by
  rcases State.allocThen_err e with e | e
  · simp [e]
  · rcases State.alloc_error_iff.1 e with ⟨-, e⟩ | ⟨-, -, e⟩ | ⟨-, -, -, e⟩ <;> simp [e]

/-- REMAP's dimensions are a surface's, which pass the check that raises E_DIM (R160). -/
theorem State.allocThen_surface_err_mem {s t : State} {h k : Handle} {body : State → State}
    (e : s.allocThen h (s.width k) (s.height k) body = .next t) :
    t.status.err ∈ [ErrCode.ok, .ctRange, .inUse, .noMem] := by
  rcases State.allocThen_err e with e | e
  · simp [e]
  · rcases State.alloc_error_iff.1 e with ⟨-, e⟩ | ⟨-, hd, -⟩ | ⟨-, -, -, e⟩
    · simp [e]
    · obtain ⟨hw0, hw1, hh0, hh1⟩ := s.surface_dims k
      omega
    · simp [e]

/-- Each command past the fatal lock, its checks in their order. -/
theorem exec_err_mem_codesOf {i : Instr} {s t : State} (hi : i.wellFormed = true) (hf : s.status.fatal = false)
    (h : exec i s = .next t) : t.status.err ∈ codesOf i := by
  cases i with
  | nop =>
    rw [exec_nop hf] at h
    cases h
    exact List.mem_singleton_self _
  | surfAlloc => exact State.allocThen_err_mem (exec_surfAlloc hf ▸ h)
  | surfSeal =>
    rw [exec_surfSeal hf] at h
    split at h
    · cases h; exact List.mem_singleton_self _
    · cases h; exact List.mem_singleton_self _
  | palUnpack =>
    rw [exec_palUnpack hf] at h
    split at h
    · cases h; exact .tail _ (.head _)
    · split at h
      · cases h; exact .tail _ (.tail _ (.head _))
      · cases h; exact .head _
  | ctLoad =>
    rw [exec_ctLoad hf] at h
    cases h
    exact List.mem_singleton_self _
  | remap =>
    rw [exec_remap hf] at h
    split at h
    · cases h; exact .tail _ (.head _)
    · split at h
      · cases h; exact .head _
      · exact State.allocThen_surface_err_mem (State.onSurface_cases h).2
  | fillRect => exact State.drawOn_err_mem (exec_fillRect hf ▸ h)
  | fillCircle => exact State.drawOn_err_mem (exec_fillCircle hf ▸ h)
  | fillEllipse => exact State.drawOn_err_mem (exec_fillEllipse hf ▸ h)
  | fillRing => exact State.drawOn_err_mem (exec_fillRing hf ▸ h)
  | drawLine => exact State.drawOn_err_mem (exec_drawLine hf ▸ h)
  | blit mh mv rot =>
    have hrot : rot = 0 ∨ rot = 1 := by simpa [Instr.wellFormed] using hi
    rw [exec_blit hf, if_neg (by tauto)] at h
    split at h
    · cases h; exact .head _
    · split at h
      · cases h; exact .tail _ (.head _)
      · obtain ⟨-, h⟩ := State.onSurface_cases h
        obtain ⟨-, h⟩ := State.onSurface_cases h
        cases h
        exact .head _
  | crop =>
    rw [exec_crop hf] at h
    split at h
    · cases h; exact .head _
    · exact State.allocThen_err_mem (State.onSurface_cases h).2

/-- R230's column for a code that one of the commands raises. -/
structure RaisedByTable (i : Instr) (c : ErrCode) : Prop where
  palFormat : c = .palFormat → i = .palUnpack
  palFull : c = .palFull → i = .palUnpack
  illegal : c ≠ .illegal
  inUse : c = .inUse → i ∈ [Instr.surfAlloc, .remap, .crop]
  noMem : c = .noMem → i ∈ [Instr.surfAlloc, .remap, .crop]
  dim : c = .dim → i ∈ [Instr.surfAlloc, .crop]
  readOnly : c = .readOnly →
    i ∈ [Instr.fillRect, .fillCircle, .fillEllipse, .fillRing, .drawLine] ∨ ∃ mh mv rot, i = .blit mh mv rot
  ctRange : c = .ctRange → i = .remap

theorem raisedByTable_of_mem {i : Instr} {c : ErrCode} (hc : c ∈ codesOf i) : RaisedByTable i c where
  palFormat e := by
    subst e
    cases i with
    | palUnpack => rfl
    | _ => simp [codesOf] at hc
  palFull e := by
    subst e
    cases i with
    | palUnpack => rfl
    | _ => simp [codesOf] at hc
  illegal := by
    rintro rfl
    cases i with
    | _ => simp [codesOf] at hc
  inUse e := by
    subst e
    cases i with
    | surfAlloc => simp
    | remap => simp
    | crop => simp
    | _ => simp [codesOf] at hc
  noMem e := by
    subst e
    cases i with
    | surfAlloc => simp
    | remap => simp
    | crop => simp
    | _ => simp [codesOf] at hc
  dim e := by
    subst e
    cases i with
    | surfAlloc => simp
    | crop => simp
    | _ => simp [codesOf] at hc
  readOnly e := by
    subst e
    cases i with
    | blit mh mv rot => exact .inr ⟨mh, mv, rot, rfl⟩
    | fillRect => simp
    | fillCircle => simp
    | fillEllipse => simp
    | fillRing => simp
    | drawLine => simp
    | _ => simp [codesOf] at hc
  ctRange e := by
    subst e
    cases i with
    | remap => rfl
    | _ => simp [codesOf] at hc

theorem ne_fatalLock_of_mem_codesOf {i : Instr} {c : ErrCode} (hc : c ∈ codesOf i) : c ≠ .fatalLock := by
  rintro rfl
  cases i with
  | _ => simp [codesOf] at hc

/-- The lock's code is in no row but every command's own prologue. -/
theorem raisedByTable_fatalLock (i : Instr) : RaisedByTable i .fatalLock := by constructor <;> simp

/-- Settles O38: the lock's code with FATAL = 1; past the lock the command's own codes. -/
theorem codesComeFromTheirCommands : Obligations.CodesComeFromTheirCommands := by
  intro i s t hi h
  obtain ⟨R, hlock⟩ : RaisedByTable i t.status.err ∧ (t.status.err = .fatalLock ↔ s.status.fatal = true) := by
    cases hf : s.status.fatal with
    | true =>
      obtain rfl := Host.Outcome.next.inj ((exec_of_locked hf i).symm.trans h)
      exact ⟨raisedByTable_fatalLock i, iff_of_true rfl rfl⟩
    | false =>
      have hmem := exec_err_mem_codesOf hi hf h
      exact ⟨raisedByTable_of_mem hmem, iff_of_false (ne_fatalLock_of_mem_codesOf hmem) Bool.false_ne_true⟩
  exact ⟨R.palFormat, R.palFull, R.illegal, R.inUse, R.noMem, R.dim, R.readOnly, R.ctRange, hlock⟩

end Sys2Proof.Machine
end

section
/-! Where a command stops for want of pixel memory (10_state.md R35, log 10), that under R34 no step does
(60_exceptions.md R237), and the engine's turn, which runs the latched command (70_reset_and_hazards.md R275). -/

namespace Sys2Proof.Machine

/-! ### Surfaces that do not lie in pixel memory (log 10) -/

theorem State.onSurface_of_not_exists {s : State} {h : Handle} (he : s.surfaceExists h = false)
    (body : State → Result) : s.onSurface h body = .fault .noSuchPixelWord :=
  if_neg (ne_true_of_eq_false he)

theorem State.drawOn_of_not_exists {s : State} {h : Handle} (hv : (s.desc h).valid = true)
    (hro : (s.desc h).ro = false) (he : s.surfaceExists h = false) (draw : State → State) :
    s.drawOn h draw = .fault .noSuchPixelWord := by
  unfold State.drawOn
  rw [if_neg (ne_false_of_eq_true hv), if_neg (ne_true_of_eq_false hro), State.onSurface_of_not_exists he]

/-- BLIT past its checks: the copy waits for both surfaces, the source first. -/
theorem exec_blit_of_unsealed {s : State} (hf : s.status.fatal = false) {rot : BitVec 2} (hr : rot = 0 ∨ rot = 1)
    (hd : (s.desc s.dst).valid = true) (hv : (s.desc s.src).valid = true) (hro : (s.desc s.dst).ro = false)
    (mh mv : Bool) :
    exec (.blit mh mv rot) s = s.onSurface s.src fun s => s.onSurface s.dst fun s =>
      .next ((s.setPixels s.dst
        (s.blitWrites mh mv rot s.src (s.q 1) (s.q 2) (s.q 3) (s.q 4) (s.q 5) (s.q 6))).complete .ok) := by
  rw [exec_blit hf, if_neg (by tauto), if_neg (by simp [hd, hv]), if_neg (ne_true_of_eq_false hro)]

/-- Settles O40: each command past the checks that come before the access. -/
theorem engineStopsOnNonexistentWords : Obligations.EngineStopsOnNonexistentWords := by
  intro s hf
  refine ⟨fun i hi hv hro he => ?draw, fun hv he => ⟨?crop, fun hr => ?remap, fun hd hro mh mv rot hrot => ?blitSrc⟩,
    fun hv hse hd hro he mh mv rot hrot => ?blitDst⟩
  case draw =>
    have stop (draw : State → State) := State.drawOn_of_not_exists hv hro he draw
    simp only [List.mem_cons, List.not_mem_nil, or_false] at hi
    rcases hi with rfl | rfl | rfl | rfl | rfl
    · exact (exec_fillRect hf).trans (stop _)
    · exact (exec_fillCircle hf).trans (stop _)
    · exact (exec_fillEllipse hf).trans (stop _)
    · exact (exec_fillRing hf).trans (stop _)
    · exact (exec_drawLine hf).trans (stop _)
  case crop => rw [exec_crop hf, if_neg (ne_false_of_eq_true hv), State.onSurface_of_not_exists he]
  case remap =>
    rw [exec_remap hf, if_neg (not_lt.2 hr), if_neg (ne_false_of_eq_true hv), State.onSurface_of_not_exists he]
  case blitSrc => rw [exec_blit_of_unsealed hf hrot hd hv hro, State.onSurface_of_not_exists he]
  case blitDst =>
    rw [exec_blit_of_unsealed hf hrot hd hv hro, State.onSurface_of_exists hse, State.onSurface_of_not_exists he]

/-! ### No step stops -/

theorem State.allocThen_total (s : State) (h : Handle) (w ht : Int) (body : State → State) :
    ∃ t, s.allocThen h w ht body = .next t := by
  cases e : s.alloc h w ht with
  | error c => exact ⟨_, State.allocThen_of_error e body⟩
  | ok u => exact ⟨_, State.allocThen_of_ok e body⟩

theorem State.unlessLocked_total {s : State} {body : State → Result}
    (hb : s.status.fatal = false → ∃ t, body s = .next t) : ∃ t, s.unlessLocked body = .next t := by
  cases hf : s.status.fatal with
  | true => exact ⟨_, State.unlessLocked_of_locked hf body⟩
  | false => rw [State.unlessLocked_of_live hf]; exact hb hf

section
variable {s : State} (hs : s.MemInv)
include hs

theorem State.MemInv.drawOn_total (h : Handle) (draw : State → State) : ∃ t, s.drawOn h draw = .next t := by
  cases hv : (s.desc h).valid with
  | false => exact ⟨_, State.drawOn_of_invalid hv draw⟩
  | true =>
    cases hro : (s.desc h).ro with
    | true => exact ⟨_, State.drawOn_of_sealed hv hro draw⟩
    | false => exact ⟨_, State.drawOn_of_open hv hro (hs.surfaceExists hv) draw⟩

/-- Every command answers a next state where every surface lies in pixel memory (R34, R237). -/
theorem State.MemInv.exec_total (i : Instr) : ∃ t, exec i s = .next t := by
  cases hf : s.status.fatal with
  | true => exact ⟨_, exec_of_locked hf i⟩
  | false =>
    cases i with
    | nop => exact ⟨_, exec_nop hf⟩
    | surfAlloc => rw [exec_surfAlloc hf]; exact State.allocThen_total ..
    | surfSeal => rw [exec_surfSeal hf]; split <;> exact ⟨_, rfl⟩
    | palUnpack =>
      rw [exec_palUnpack hf]
      split
      · exact ⟨_, rfl⟩
      · split <;> exact ⟨_, rfl⟩
    | ctLoad => exact ⟨_, exec_ctLoad hf⟩
    | remap =>
      rw [exec_remap hf]
      split
      · exact ⟨_, rfl⟩
      · split
        · exact ⟨_, rfl⟩
        · rename_i hv
          rw [State.onSurface_of_exists (hs.surfaceExists (eq_true_of_ne_false hv))]
          exact State.allocThen_total ..
    | fillRect => rw [exec_fillRect hf]; exact hs.drawOn_total ..
    | fillCircle => rw [exec_fillCircle hf]; exact hs.drawOn_total ..
    | fillEllipse => rw [exec_fillEllipse hf]; exact hs.drawOn_total ..
    | fillRing => rw [exec_fillRing hf]; exact hs.drawOn_total ..
    | drawLine => rw [exec_drawLine hf]; exact hs.drawOn_total ..
    | blit mh mv rot =>
      rw [exec_blit hf]
      split
      · exact ⟨_, rfl⟩
      · split
        · exact ⟨_, rfl⟩
        · rename_i hv
          obtain ⟨hd, hv⟩ := not_or.1 hv
          split
          · exact ⟨_, rfl⟩
          · rw [State.onSurface_of_exists (hs.surfaceExists (eq_true_of_ne_false hv)),
              State.onSurface_of_exists (hs.surfaceExists (eq_true_of_ne_false hd))]
            exact ⟨_, rfl⟩
    | crop =>
      rw [exec_crop hf]
      split
      · exact ⟨_, rfl⟩
      · rename_i hv
        rw [State.onSurface_of_exists (hs.surfaceExists (eq_true_of_ne_false hv))]
        exact State.allocThen_total ..

theorem State.MemInv.runLatched_total : ∃ t, s.runLatched = .next t := by
  unfold State.runLatched
  split
  · exact hs.exec_total _
  · exact State.unlessLocked_total fun _ => ⟨_, rfl⟩

theorem State.MemInv.engineTurn_total : ∃ t, s.engineTurn = .next t := by
  unfold State.engineTurn
  split
  · exact hs.runLatched_total
  · exact ⟨s, rfl⟩

end

/-- Settles O55: the engine's turns by `State.MemInv.exec_total`; resets and host accesses always answer. -/
theorem stepNeverStops : Obligations.StepNeverStops := by
  intro s hs
  cases hi : s.inputs with
  | nil => rw [step_noInput hi]; exact hs.memory.engineTurn_total
  | cons i rest =>
    cases i with
    | engineTurn => rw [step_engineTurn hi]; exact hs.popInput.memory.engineTurn_total
    | hardReset => exact ⟨_, step_hardReset hi⟩
    | hostRead addr be =>
      cases hh : s.holds addr be with
      | true => rw [step_held_read hi hh]; exact hs.memory.runLatched_total
      | false => exact ⟨_, step_hostRead hi hh⟩
    | hostWrite addr be v =>
      cases hh : s.holds addr be with
      | true => rw [step_held_write hi hh]; exact hs.memory.runLatched_total
      | false => exact ⟨_, step_hostWrite hi hh⟩

/-! ### The engine's turn -/

/-- The engine's turn with a command running, no input left or its own taken off, is the run of the latched word. -/
theorem step_engine_of_busy {s : State} (hb : s.status.busy = true) :
    (s.inputs = [] → step s = s.runLatched) ∧
      ∀ rest, s.inputs = .engineTurn :: rest → step s = s.popInput.runLatched :=
  ⟨fun hi => (step_noInput hi).trans (State.engineTurn_of_busy hb),
    fun _ hi => (step_engineTurn hi).trans (State.engineTurn_of_busy (s := s.popInput) hb)⟩

/-- Settles O52: the run answers by R237, and what it answers is a completion. -/
theorem acceptedCommandCompletes : Obligations.AcceptedCommandCompletes := by
  intro s hs hb hi
  obtain ⟨onEmpty, onTurn⟩ := step_engine_of_busy hb
  obtain ⟨u, hu, e⟩ : ∃ u : State, u.MemInv ∧ step s = u.runLatched := by
    rcases hi with hi | ⟨rest, hi⟩
    · exact ⟨s, hs.memory, onEmpty hi⟩
    · exact ⟨s.popInput, hs.popInput.memory, onTurn rest hi⟩
  obtain ⟨t, ht⟩ := hu.runLatched_total
  have ends := State.runLatched_cases ht
  exact ⟨t, e.trans ht, ends.busy, ends.done⟩

/-- Settles O7: the engine's turn, by which input gives it, is the run of the latched word, which is `exec` of its
command. -/
theorem engineTurnRunsTheLatchedCommand : Obligations.EngineTurnRunsTheLatchedCommand := by
  refine ⟨fun s i hb hd => ?busy, fun s hb => ⟨fun hi => ?idleEmpty, fun rest hi => ?idleTurn⟩⟩
  case busy =>
    obtain ⟨onEmpty, onTurn⟩ := step_engine_of_busy hb
    have run : s.runLatched = exec i s := State.runLatched_of_decode hd
    have held {addr : HostAddr} {be : BitVec 4} (hl : legalAccess addr be = true)
        (hw : (s.window addr).held = true) : s.holds addr be = true := by simp [State.holds, hb, hl, hw]
    refine ⟨fun hi => (onEmpty hi).trans run, fun rest hi => ?_,
      fun addr be rest hi hl hw => (step_held_read hi (held hl hw)).trans run,
      fun addr be v rest hi hl hw => (step_held_write hi (held hl hw)).trans run⟩
    rw [onTurn rest hi, State.popInput_eq hi]
    exact State.runLatched_of_decode hd
  case idleEmpty => exact (step_noInput hi).trans (if_neg (ne_true_of_eq_false hb))
  case idleTurn =>
    rw [step_engineTurn hi, ← State.popInput_eq hi]
    exact if_neg (ne_true_of_eq_false hb)

/-- Settles O8: the word placed is latched with the engine's turn first, whose input that turn takes off again. -/
theorem loadedCommandIsTheNextStep : Obligations.LoadedCommandIsTheNextStep := by
  intro s w i hw hd
  have word : commandWord 32 w = BitVec.ofNat 32 w := by rw [commandWord, Nat.mod_eq_of_lt hw]
  have placed : s.withFetchWord 32 w = s.loadCommand (BitVec.ofNat 32 w) := congrArg s.loadCommand word
  rw [placed, (step_engine_of_busy rfl).2 s.inputs rfl]
  exact State.runLatched_of_decode hd

end Sys2Proof.Machine
end

section
/-! Command words, Q16.16 operands and assembled lines (30_encoding.md sections 2 to 5). -/

namespace Sys2Proof

/-- Settles O2: the words that decode, by `decode_eq_ok_iff`. -/
theorem decodeIffEncode : Obligations.DecodeIffEncode := decode_eq_ok_iff

/-- Settles O1: each word of R86's table is the encoding of its well-formed command. -/
theorem tableWordsDecode : Obligations.TableWordsDecode :=
  ⟨decode_encode (i := .nop) rfl, decode_encode (i := .surfAlloc) rfl, decode_encode (i := .surfSeal) rfl,
    decode_encode (i := .palUnpack) rfl, decode_encode (i := .ctLoad) rfl, decode_encode (i := .remap) rfl,
    decode_encode (i := .fillRect) rfl, decode_encode (i := .fillCircle) rfl, decode_encode (i := .fillEllipse) rfl,
    decode_encode (i := .fillRing) rfl, decode_encode (i := .drawLine) rfl, decode_encode (i := .crop) rfl,
    decode_encode (i := .blit true false 0) rfl, decode_encode (i := .blit false true 1) rfl⟩

end Sys2Proof

namespace Sys2Proof.Machine

/-! ### Q16.16 operands -/

theorem intPart_eq_sshiftRight (v : Word) : intPart v = (v.sshiftRight 16).toInt := by
  rw [BitVec.toInt_sshiftRight, Int.shiftRight_eq_div_pow]
  rfl

/-- Settles O5: the floor of a division by 65536, on the range of a 32-bit word. -/
theorem intPartIsFloor : Obligations.IntPartIsFloor := by
  refine ⟨by decide, by decide, fun v => ?_⟩
  have hdiv : intPart v = v.toInt / 65536 := rfl
  have hlo : -2147483648 ≤ v.toInt := BitVec.le_toInt v
  have hhi : v.toInt < 2147483648 := BitVec.toInt_lt
  exact ⟨by omega, by omega, by omega, by omega, intPart_eq_sshiftRight v⟩

/-- The scaled value of a decimal operand in range fits a 32-bit word (R91). -/
theorem Decimal.toInt_word {d : Decimal} (hlo : -32768 * 10 ^ d.scale ≤ d.mantissa)
    (hhi : d.mantissa < 32768 * 10 ^ d.scale) : d.word.toInt = d.mantissa * 65536 / 10 ^ d.scale := by
  have hpos : (0 : Int) < 10 ^ d.scale := by positivity
  have lo : -2147483648 ≤ d.mantissa * 65536 / 10 ^ d.scale := (Int.le_ediv_iff_mul_le hpos).2 (by linarith)
  have hi : d.mantissa * 65536 / 10 ^ d.scale < 2147483648 := (Int.ediv_lt_iff_lt_mul hpos).2 (by linarith)
  exact BitVec.toInt_ofInt_eq_self (by decide) lo hi

theorem Decimal.intPart_word {d : Decimal} (hlo : -32768 * 10 ^ d.scale ≤ d.mantissa)
    (hhi : d.mantissa < 32768 * 10 ^ d.scale) : intPart d.word = d.mantissa / 10 ^ d.scale := by
  have hpos : (0 : Int) ≤ 10 ^ d.scale := by positivity
  rw [intPart, fdiv, Decimal.toInt_word hlo hhi, Int.ediv_ediv_of_nonneg hpos]
  exact Int.mul_ediv_mul_of_pos_left _ _ (by norm_num)

/-! ### The bus writes of a line -/

/-- A host write of `v` to ARG[k], BUSY or not (R26). -/
theorem State.writeCompletes_arg {s : State} {k : Fin 8} {v : Word} {rest : List Input}
    (hi : s.inputs = .hostWrite (BitVec.ofNat 23 (0x020 + 4 * k.val)) 0xF v :: rest) :
    s.WriteCompletes { s with inputs := rest, args := s.args.set k.val v k.isLt } := by
  have hw := State.writeCompletes_of_not_held (off := 0x020 + 4 * k.val) (by omega) (by omega) hi
    (.inr (by rw [windowAt_arg]; rfl))
  rwa [windowAt_arg, State.popInput_eq hi] at hw

theorem State.writeCompletes_cmd_idle {s : State} {w : Word} {rest : List Input} (hb : s.status.busy = false)
    (hi : s.inputs = .hostWrite 0x00C 0xF w :: rest) :
    s.WriteCompletes (State.accept { s with inputs := rest } w) := by
  have hw := State.writeCompletes_cmd hi
  rwa [State.writeCmd_idle (s := s.popInput) hb, State.popInput_eq hi] at hw

/-- ARG after the operand writes of a line. -/
def argsAfter (args : Vector Word 8) (l : List (Fin 8 × Word)) : Vector Word 8 :=
  l.foldl (fun a p => a.set p.1.val p.2 p.1.isLt) args

theorem argsAfter_of_notMem {args : Vector Word 8} {l : List (Fin 8 × Word)} {k : Fin 8}
    (hk : k ∉ l.map Prod.fst) : (argsAfter args l)[k.val] = args[k.val] := by
  induction l generalizing args with
  | nil => rfl
  | cons p l ih =>
    obtain ⟨hne, hl⟩ := not_or.1 (mt List.mem_cons.2 hk)
    have hval : p.1.val ≠ k.val := fun e => hne (Fin.ext e.symm)
    exact (ih hl).trans (Vector.getElem_set_ne _ _ hval)

/-- A register that a line writes once holds the value written. -/
theorem argsAfter_of_mem {args : Vector Word 8} {l : List (Fin 8 × Word)} {k : Fin 8} {v : Word}
    (hn : (l.map Prod.fst).Nodup) (hm : (k, v) ∈ l) : (argsAfter args l)[k.val] = v := by
  induction l generalizing args with
  | nil => cases hm
  | cons p l ih =>
    obtain ⟨hp, hl⟩ := List.nodup_cons.1 hn
    rcases List.mem_cons.1 hm with rfl | hm
    · exact (argsAfter_of_notMem hp).trans (Vector.getElem_set_self _)
    · exact ih hl hm

/-- The operand writes of a line as registers and values. -/
def argLine (l : List (Fin 8 × Word)) : List Input := argWrites (l.map fun p => (p.1.val, p.2))

theorem run_succ_of_step {n : Nat} {s t : State} (h : step s = .next t) :
    Host.Core.run Sys2Proof.core (n + 1) s = Host.Core.run Sys2Proof.core n t := by
  have hs : Sys2Proof.core.step s = .next t := h
  simp only [Host.Core.run, hs]

/-- The steps over a line's operand writes write ARG and nothing else but the response. -/
theorem run_argLine (l : List (Fin 8 × Word)) (n : Nat) (s : State) (rest : List Input) :
    ∃ r, Host.Core.run Sys2Proof.core (n + l.length) { s with inputs := argLine l ++ rest } =
      Host.Core.run Sys2Proof.core n { s with args := argsAfter s.args l, inputs := rest, reply := r } := by
  induction l generalizing s with
  | nil => exact ⟨s.reply, rfl⟩
  | cons p l ih =>
    obtain ⟨d, hd⟩ := State.writeCompletes_arg (s := { s with inputs := argLine (p :: l) ++ rest }) rfl
    obtain ⟨r, hr⟩ := ih { s with args := s.args.set p.1.val p.2 p.1.isLt, reply := some ⟨false, d⟩ }
    exact ⟨r, (run_succ_of_step hd).trans hr⟩

/-- The first handle of an operand word is DST (R83). -/
theorem handles_dst (hD hS : Handle) : (handles hD hS).extractLsb' 0 8 = hD := by
  apply BitVec.eq_of_getLsbD_eq
  intro i hi
  simp only [handles, BitVec.getLsbD_extractLsb', BitVec.getLsbD_append]
  simp [hi]

/-- An idle block accepts the command word of a line, latching ARG as the operand writes left it (R37). -/
theorem run_line {s : State} (hb : s.status.busy = false) (l : List (Fin 8 × Word)) (w : Word) (rest : List Input) :
    ∃ r, Host.Core.run Sys2Proof.core (1 + l.length) { s with inputs := argLine l ++ busWrite 0x00C w :: rest } =
      .next { State.accept { s with args := argsAfter s.args l } w with inputs := rest, reply := r } := by
  obtain ⟨r, hr⟩ := run_argLine l 1 s (busWrite 0x00C w :: rest)
  obtain ⟨d, hd⟩ := State.writeCompletes_cmd_idle (w := w) (rest := rest)
    (s := { s with args := argsAfter s.args l, inputs := busWrite 0x00C w :: rest, reply := r }) hb rfl
  exact ⟨some ⟨false, d⟩, hr.trans (run_succ_of_step hd)⟩

/-- The operand registers of a FILL_RECT line (R84, R91). -/
def fillRectLine (hD : Handle) (x y w h : Decimal) (color : Word) : List (Fin 8 × Word) :=
  [(0, oneHandle hD), (1, x.word), (2, y.word), (3, w.word), (4, h.word), (5, color)]

/-- Settles O6: the word of a decimal in range, and the run over the line's six operand writes and its command word. -/
theorem assembledFillRectIsAccepted : Obligations.AssembledFillRectIsAccepted := by
  refine ⟨fun d hlo hhi => ⟨Decimal.toInt_word hlo hhi, Decimal.intPart_word hlo hhi⟩,
    fun s hD x y w h color ins rest hb hins => ?line⟩
  case line =>
    obtain rfl := Option.some.inj hins
    have reg (k : Fin 8) (v : Word) (hm : (k, v) ∈ fillRectLine hD x y w h color) :
        (argsAfter s.args (fillRectLine hD x y w h color))[k.val] = v :=
      argsAfter_of_mem (by simp [fillRectLine]) hm
    obtain ⟨r, hr⟩ := run_line hb (fillRectLine hD x y w h color) (encode .fillRect) rest
    refine ⟨_, hr, rfl, rfl, rfl, rfl, ?dst, reg 1 x.word ?_, reg 2 y.word ?_, reg 3 w.word ?_, reg 4 h.word ?_,
      reg 5 color ?_, rfl, rfl, rfl, rfl⟩
    case dst =>
      have arg0 := reg 0 (oneHandle hD) (by simp [fillRectLine])
      exact (congrArg (BitVec.extractLsb' 0 8) arg0).trans (handles_dst hD 0)
    all_goals simp [fillRectLine]

end Sys2Proof.Machine
end

section
/-! The host port (20_memory.md): STATUS and the host's registers, bus errors, the address map's reads and writes, and
accesses while a command runs. -/

namespace Sys2Proof.Machine

/-! ### STATUS (10_state.md R22) -/

theorem Status.toWord_flags (st : Status) :
    st.toWord.getLsbD 0 = st.busy ∧ st.toWord.getLsbD 2 = st.fatal ∧ st.toWord.getLsbD 3 = st.cmdOvr ∧
      st.toWord.getLsbD 4 = st.sent := by
  simp only [Status.toWord, BitVec.getLsbD_append]
  simp

theorem Status.toWord_err (st : Status) : st.toWord.extractLsb' 8 8 = st.err.toByte := by
  apply BitVec.eq_of_getLsbD_eq
  intro i hi
  simp only [Status.toWord, BitVec.getLsbD_extractLsb', BitVec.getLsbD_append]
  interval_cases i <;> simp

theorem Status.toWord_reserved (st : Status) :
    st.toWord.extractLsb' 5 3 = 0 ∧ st.toWord.extractLsb' 16 16 = 0 := by
  constructor
  · apply BitVec.eq_of_getLsbD_eq
    intro i hi
    simp only [Status.toWord, BitVec.getLsbD_extractLsb', BitVec.getLsbD_append]
    interval_cases i <;> simp
  · apply BitVec.eq_of_getLsbD_eq
    intro i hi
    simp only [Status.toWord, BitVec.getLsbD_extractLsb', BitVec.getLsbD_append]
    interval_cases i <;> simp

theorem Status.hostWrite_eq (st : Status) (v : Word) :
    st.hostWrite v = { st with
      done := if v.getLsbD 1 then false else st.done
      cmdOvr := if v.getLsbD 3 then false else st.cmdOvr } := by
  unfold Status.hostWrite
  cases v.getLsbD 1 <;> cases v.getLsbD 3 <;> simp

/-- Settles O42: the bits of `Status.toWord`, the codes as they are defined, and the host write's two cleared fields. -/
theorem statusRegister : Obligations.StatusRegister := by
  refine ⟨fun st => ?bits, ⟨rfl, rfl, rfl, rfl, rfl, rfl, rfl, rfl, rfl, rfl⟩, fun s v rest hi => ?write⟩
  case bits =>
    obtain ⟨hbusy, hfatal, hovr, hsent⟩ := st.toWord_flags
    obtain ⟨hlow, hhigh⟩ := st.toWord_reserved
    exact ⟨hbusy, st.toWord_done, hfatal, hovr, hsent, hlow, st.toWord_err, hhigh⟩
  case write =>
    have hw := State.writeCompletes_status hi
    rwa [State.popInput_eq hi, Status.hostWrite_eq] at hw

/-! ### The host's registers (10_state.md R23, R26, R27) -/

theorem State.writeCompletes_text {s : State} {n : Fin 4} {v : Word} {rest : List Input}
    (hi : s.inputs = .hostWrite (BitVec.ofNat 23 (0x040 + 4 * n.val)) 0xF v :: rest) :
    s.WriteCompletes { s with inputs := rest, text := s.text.set n.val v n.isLt } := by
  have hw := State.writeCompletes_of_not_held (off := 0x040 + 4 * n.val) (by omega) (by omega) hi
    (.inr (by rw [windowAt_text]; rfl))
  rwa [windowAt_text, State.popInput_eq hi] at hw

/-- The response to a write carries data 0 (log 5). -/
theorem State.doWrite_reply (s : State) (addr : HostAddr) (be : BitVec 4) (v : Word) :
    (s.doWrite addr be v).reply = some { busError := !legalAccess addr be, data := 0 } := by
  unfold State.doWrite
  split
  case isTrue hl => rw [hl]; rfl
  case isFalse hl => rw [Bool.eq_false_of_not_eq_true hl]; rfl

/-- A held write stays in the list, so a step that takes it off performs it. -/
theorem step_hostWrite_of_taken {s t : State} {addr : HostAddr} {be : BitVec 4} {v : Word} {rest : List Input}
    (hi : s.inputs = .hostWrite addr be v :: rest) (h : step s = .next t) (ht : t.inputs = rest) :
    t = s.popInput.doWrite addr be v := by
  cases hh : s.holds addr be with
  | false => exact Host.Outcome.next.inj (h.symm.trans (step_hostWrite hi hh))
  | true =>
    obtain ⟨kept, -⟩ := State.runLatched_frame ((step_held_write hi hh).symm.trans h)
    rw [ht, hi] at kept
    exact absurd kept.symm (List.cons_ne_self _ _)

/-- Settles O44: the registers by their windows, never held; the response by `State.doWrite_reply`. -/
theorem hostRegisterWrites : Obligations.HostRegisterWrites := by
  refine ⟨fun s k v rest => State.writeCompletes_arg, fun s n v rest => State.writeCompletes_text,
    fun s v rest hi hv => ?ctrl, fun s t addr be v rest hi h ht => ?reply⟩
  case ctrl =>
    have hw := State.writeCompletes_ctrl hi hv
    rwa [State.popInput_eq hi] at hw
  case reply =>
    rw [step_hostWrite_of_taken hi h ht]
    exact ⟨_, State.doWrite_reply _ addr be v⟩

/-! ### Bus errors (20_memory.md R61) -/

/-- Settles O45: an illegal access is never held, and answers a bus error. -/
theorem illegalAccessIsABusError : Obligations.IllegalAccessIsABusError := by
  intro s addr be v rest hbad hi
  have hl : ¬ legalAccess addr be = true := by
    rw [legalAccess_iff]
    rintro ⟨hbe, h4⟩
    exact hbad.elim (· hbe) (· h4)
  have hh : s.holds addr be = false := by simp [State.holds, hl]
  rcases hi with hi | hi
  · rw [step_hostRead hi hh, State.popInput_eq hi, State.doRead, if_neg hl]
    rfl
  · rw [step_hostWrite hi hh, State.popInput_eq hi, State.doWrite, if_neg hl]
    rfl

/-! ### Reads of the windows (20_memory.md R62) -/

theorem zero_append_eq_setWidth {n : Nat} (m : Nat) (x : BitVec n) :
    (0 : BitVec m) ++ x = (x.setWidth (m + n)) := by
  apply BitVec.eq_of_getLsbD_eq
  intro i hi
  rw [BitVec.getLsbD_append, BitVec.getLsbD_setWidth, BitVec.ofNat_eq_ofNat, BitVec.getLsbD_zero]
  by_cases hn : i < n
  · simp [hn, hi]
  · simp [hn, BitVec.getLsbD_of_ge x i (not_lt.1 hn)]

theorem State.effPal_eq (s : State) (i : Fin 32) :
    s.effPal i.val = if i.val < s.palCount.toNat then s.palRam[i.val] else 0xFFFFFFFF := by
  simp [State.effPal]

/-- DESCWIN1's fields (R62). -/
theorem Desc.word1_fields (d : Desc) :
    d.word1.getLsbD 31 = d.valid ∧ d.word1.getLsbD 30 = d.ro ∧ d.word1.extractLsb' 28 2 = 0 ∧
      d.word1.extractLsb' 16 12 = d.h ∧ d.word1.extractLsb' 12 4 = 0 ∧ d.word1.extractLsb' 0 12 = d.w := by
  refine ⟨?_, ?_, ?_, ?_, ?_, ?_⟩
  · simp only [Desc.word1, BitVec.getLsbD_append]; simp
  · simp only [Desc.word1, BitVec.getLsbD_append]; simp
  all_goals
    apply BitVec.eq_of_getLsbD_eq
    intro i hi
    simp only [Desc.word1, BitVec.getLsbD_extractLsb', BitVec.getLsbD_append]
    interval_cases i <;> simp

/-- A read of the window `w`, at an aligned offset where it stands, while it is not held. -/
theorem step_read_window {s : State} {off : Nat} {w : Window} (hw : windowAt s.params.pixWords.val off = w)
    (h4 : 4 ∣ off) (hlt : off < 2 ^ 23) (hh : s.status.busy = false ∨ w.held = false) {v : Word}
    (hv : s.readWindow w = v) (rest : List Input) (hi : s.inputs = .hostRead (BitVec.ofNat 23 off) 0xF :: rest) :
    step s = .next { s with inputs := rest, reply := some { busError := false, data := v } } := by
  subst hw hv
  exact step_read_of_not_held h4 hlt hi hh

theorem State.readWindow_ctrl (s : State) : s.readWindow .ctrl = if s.ie then 1 else 0 := by
  unfold State.readWindow
  cases s.ie with
  | false => rfl
  | true => rfl

/-- Settles O46: each window by its offset and its word; those that R66 holds while no command runs. -/
theorem addressMapReads : Obligations.AddressMapReads := by
  intro s
  have never {w : Window} (h : w.held = false) : s.status.busy = false ∨ w.held = false := .inr h
  refine ⟨⟨?id, ?status, ?ctrl, ?cmd, fun k => ?arg, fun n => ?text⟩,
    fun hb => ⟨?palCount, ?allocPtr, fun i => ?palWin, fun k => ?ctWin, fun h => ?descWin0,
      fun h => ⟨(s.desc h).word1, ?descWin1, (s.desc h).word1_fields⟩, fun a ha => ?pixWin⟩⟩
  case id => exact step_read_window (windowAt_id _) (by decide) (by decide) (never rfl) rfl
  case status => exact step_read_window (windowAt_status _) (by decide) (by decide) (never rfl) rfl
  case ctrl => exact step_read_window (windowAt_ctrl _) (by decide) (by decide) (never rfl) s.readWindow_ctrl
  case cmd => exact step_read_window (windowAt_cmd _) (by decide) (by decide) (never rfl) rfl
  case arg => exact step_read_window (windowAt_arg _ k) (by omega) (by omega) (never rfl) rfl
  case text => exact step_read_window (windowAt_text _ n) (by omega) (by omega) (never rfl) rfl
  case palCount =>
    exact step_read_window (windowAt_palCount _) (by decide) (by decide) (.inl hb) (zero_append_eq_setWidth 26 _)
  case allocPtr =>
    exact step_read_window (windowAt_allocPtr _) (by decide) (by decide) (.inl hb) (zero_append_eq_setWidth 11 _)
  case palWin => exact step_read_window (windowAt_palWin _ i) (by omega) (by omega) (.inl hb) (s.effPal_eq i)
  case ctWin => exact step_read_window (windowAt_ctWin _ k) (by omega) (by omega) (.inl hb) rfl
  case descWin0 =>
    exact step_read_window (windowAt_descWin0 _ h) (by omega) (by omega) (.inl hb) (zero_append_eq_setWidth 11 _)
  case descWin1 => exact step_read_window (windowAt_descWin1 _ h) (by omega) (by omega) (.inl hb) rfl
  case pixWin =>
    have hlt : 0x100000 + 4 * a < 2 ^ 23 := by have := s.params.pixWords.isLt; omega
    exact step_read_window (windowAt_pixWin ha) (by omega) hlt (.inl hb) rfl

/-! ### Read-only windows, unmapped offsets, PIXWIN (20_memory.md R63 to R65) -/

/-- Settles O47: no window, and no window that a write changes; ID and the unmapped offsets are never held. -/
theorem readOnlyAndUnmappedOffsets : Obligations.ReadOnlyAndUnmappedOffsets := by
  intro s off rest h4 hlt
  refine ⟨fun v hi hoff => ?write, fun hi hun => ?read⟩
  case write =>
    rw [← State.popInput_eq hi]
    rcases hoff with hun | hid | ⟨hb, hro⟩
    · have hw := windowAt_unmapped h4 hun
      have done := State.writeCompletes_of_not_held h4 hlt hi (.inr (by rw [hw]; rfl))
      rwa [hw] at done
    · have done := State.writeCompletes_of_not_held h4 hlt hi (.inr (by rw [hid]; rfl))
      rwa [State.writeWindow_readOnly _ v h4 (.inl hid)] at done
    · have done := State.writeCompletes_of_not_held h4 hlt hi (.inl hb)
      rwa [State.writeWindow_readOnly _ v h4 (.inr hro)] at done
  case read => exact step_read_window (windowAt_unmapped h4 hun) h4 hlt (.inr rfl) rfl rest hi

/-- A byte of no written word is unchanged. -/
theorem State.readByte_memWrite_of_ne {s : State} {a b : Nat} (v : Word) (hb : b / 4 ≠ a) :
    (s.memWrite a v).readByte b = s.readByte b := by
  unfold State.readByte
  rw [State.memWrite_mem, Memory.read?_writeWord_of_ne hb, State.memWrite_resets]

/-- Settles O48: PIXWIN[a] is word `a`, read and written, while no command holds the window. -/
theorem pixelWindow : Obligations.PixelWindow := by
  intro s a v rest hb ha
  have h4 : 4 ∣ 0x100000 + 4 * a := by omega
  have hlt : 0x100000 + 4 * a < 2 ^ 23 := by have := s.params.pixWords.isLt; omega
  refine ⟨fun hi => step_read_window (windowAt_pixWin ha) h4 hlt (.inl hb) rfl rest hi, fun hi => ?write⟩
  case write =>
    have done := State.writeCompletes_of_not_held h4 hlt hi (.inl hb)
    rw [windowAt_pixWin ha, State.popInput_eq hi] at done
    refine ⟨s.mem.writeWord a v, done, ?_, fun b hne => State.readByte_memWrite_of_ne v hne⟩
    exact (s.memRead_memWrite a a v).trans (if_pos rfl)

/-! ### Accesses while a command runs (20_memory.md R66) -/

/-- What the step does with the access `acc`, first in the list, whose effect is `perform`: a run of the latched command
while the access is held, and else the access, which takes itself off the list, answers, and leaves a running command
running unless it resets the block. -/
structure IsAccess (acc : Input) (perform : State → State) (addr : HostAddr) (be : BitVec 4) : Prop where
  held : ∀ {u : State} {rest : List Input}, u.inputs = acc :: rest → u.holds addr be = true → step u = u.runLatched
  done : ∀ {u : State} {rest : List Input}, u.inputs = acc :: rest → u.holds addr be = false →
    step u = .next (perform u)
  inputs : ∀ {u : State} {rest : List Input}, u.inputs = acc :: rest → (perform u).inputs = rest
  reply : ∀ u, (perform u).reply.isSome = true
  busy : ∀ {u : State}, acc.resets u = false → u.status.busy = true → (perform u).status.busy = true

theorem State.doRead_inputs (s : State) (addr : HostAddr) (be : BitVec 4) : (s.doRead addr be).inputs = s.inputs := by
  unfold State.doRead
  split
  · rfl
  · rfl

theorem State.doRead_reply_isSome (s : State) (addr : HostAddr) (be : BitVec 4) :
    (s.doRead addr be).reply.isSome = true := by
  unfold State.doRead
  split
  · rfl
  · rfl

theorem State.doWrite_inputs (s : State) (addr : HostAddr) (be : BitVec 4) (v : Word) :
    (s.doWrite addr be v).inputs = s.inputs := by
  unfold State.doWrite
  split
  · exact s.writeWindow_inputs v _
  · rfl

/-- A write other than the soft reset leaves a running command running. -/
theorem State.writeWindow_busy {s : State} {v : Word} {w : Window} (hr : w = .ctrl → v.getLsbD 1 = false)
    (hb : s.status.busy = true) : (s.writeWindow v w).status.busy = true := by
  cases w with
  | ctrl =>
    simp only [State.writeWindow, State.writeCtrl, hr rfl]
    exact hb
  | cmd => exact (congrArg (·.status.busy) (State.writeCmd_busy hb v)).trans hb
  | _ => exact hb

theorem State.doWrite_busy {s : State} {addr : HostAddr} {be : BitVec 4} {v : Word}
    (hr : (Input.hostWrite addr be v).resets s = false) (hb : s.status.busy = true) :
    (s.doWrite addr be v).status.busy = true := by
  unfold State.doWrite
  split
  case isTrue hl => exact State.writeWindow_busy (fun hc => by simpa [Input.resets, hl, hc] using hr) hb
  case isFalse => exact hb

theorem isAccess_hostRead (addr : HostAddr) (be : BitVec 4) :
    IsAccess (.hostRead addr be) (fun u => u.popInput.doRead addr be) addr be where
  held := step_held_read
  done := step_hostRead
  inputs hi := (State.doRead_inputs _ addr be).trans (congrArg List.tail hi)
  reply u := u.popInput.doRead_reply_isSome addr be
  busy _ hb := (congrArg Status.busy (State.doRead_status _ addr be)).trans hb

theorem isAccess_hostWrite (addr : HostAddr) (be : BitVec 4) (v : Word) :
    IsAccess (.hostWrite addr be v) (fun u => u.popInput.doWrite addr be v) addr be where
  held := step_held_write
  done := step_hostWrite
  inputs hi := (State.doWrite_inputs _ addr be v).trans (congrArg List.tail hi)
  reply u := congrArg Option.isSome (u.popInput.doWrite_reply addr be v)
  busy {u} hr hb := State.doWrite_busy (s := u.popInput) hr hb

/-- The held windows of legal accesses, by their offsets (R66). -/
theorem State.holds_iff {s : State} {off : Nat} (hb : s.status.busy = true) (h4 : 4 ∣ off) (hlt : off < 2 ^ 23) :
    s.holds (BitVec.ofNat 23 off) 0xF = true ↔
      off = 0x010 ∨ off = 0x014 ∨ (0x100 ≤ off ∧ off < 0x180) ∨ (0x400 ≤ off ∧ off < 0x1000) ∨
        (0x100000 ≤ off ∧ off < 0x100000 + 4 * s.params.pixWords.val) := by
  rw [← windowAt_held_iff h4, State.holds, hb, legalAccess_ofNat h4 hlt, State.window_ofNat s hlt]
  rfl

theorem State.holds_of_idle {s : State} (hb : s.status.busy = false) (addr : HostAddr) (be : BitVec 4) :
    s.holds addr be = false := by
  rw [State.holds, hb]
  rfl

/-- Settles O49: a held access waits for one run of the latched command, after which nothing holds it; any other is
performed at once. -/
theorem heldWindows : Obligations.HeldWindows := by
  intro s t off acc perform rest hb h4 hlt hacc hi h
  have A : IsAccess acc perform (BitVec.ofNat 23 off) 0xF := by
    rcases hacc with ⟨rfl, rfl⟩ | ⟨v, rfl, rfl⟩
    · exact isAccess_hostRead _ _
    · exact isAccess_hostWrite _ _ v
  have hheld := State.holds_iff hb h4 hlt
  refine ⟨fun hoff => ?waits, fun hoff => ?atOnce⟩
  case waits =>
    have hrun : s.runLatched = .next t := (A.held hi (hheld.2 hoff)).symm.trans h
    obtain ⟨hinputs, hreply, -, hidle⟩ := State.runLatched_frame hrun
    have hi' := hinputs.trans hi
    exact ⟨hrun, hi', hreply, hidle, A.done hi' (State.holds_of_idle hidle _ _), A.inputs hi', A.reply t⟩
  case atOnce =>
    have hfree := Bool.eq_false_of_not_eq_true (mt hheld.1 hoff)
    obtain rfl := Host.Outcome.next.inj (h.symm.trans (A.done hi hfree))
    exact ⟨rfl, A.inputs hi, A.reply s, fun hr => A.busy (State.resets_of_head hr (by rw [hi]; rfl)) hb⟩

end Sys2Proof.Machine
end

section
/-! The laws of the drawing commands (44_raster.md R188, R190, R191): equal coverages, repeated drawings, and the steps
of a line. -/

namespace Sys2Proof.Machine

/-! ### Equal coverages -/

theorem State.drawOn_congr {s : State} {draw draw' : State → State} (h : Handle) (e : draw s = draw' s) :
    s.drawOn h draw = s.drawOn h draw' := by
  simp only [State.drawOn, State.onSurface, e]

/-- R188: an inner radius 0 bounds nothing. -/
theorem covRing_zero (cx cy r : Int) : covRing cx cy 0 r = covCircle cx cy r := by
  funext px py
  rw [Bool.eq_iff_iff, covRing_iff, covCircle_iff]
  exact and_iff_right (by nlinarith [sq_nonneg (px - cx), sq_nonneg (py - cy)])

/-- R191: with both radii `r ≠ 0` the factor `r * r` cancels from the ellipse's inequality. -/
theorem covEllipse_self {r : Int} (hr : r ≠ 0) (cx cy : Int) : covEllipse cx cy r r = covCircle cx cy r := by
  funext px py
  have hpos : 0 < r * r := mul_self_pos.2 hr
  rw [Bool.eq_iff_iff, covEllipse_iff, covCircle_iff, ← add_mul]
  simp only [ne_eq, hr, not_false_iff, true_and]
  exact mul_le_mul_iff_left₀ hpos

/-- Settles O27: the same prologue and the same pixels. -/
theorem ellipseWithEqualRadiiIsCircle : Obligations.EllipseWithEqualRadiiIsCircle := by
  intro s heq hne
  cases hf : s.status.fatal with
  | true => rw [exec_of_locked hf, exec_of_locked hf]
  | false =>
    have hq : s.q 4 = s.q 3 := heq.symm
    rw [exec_fillEllipse hf, exec_fillCircle hf]
    refine State.drawOn_congr s.dst ?_
    rw [hq, covEllipse_self (r := s.q 3) hne]

/-- The state with another word latched for one operand. -/
def State.withLarg (s : State) (k : Fin 8) (v : Word) : State :=
  { s with latch := { s.latch with arg := s.latch.arg.set k.val v k.isLt } }

theorem State.larg_withLarg (s : State) (k j : Fin 8) (v : Word) :
    (s.withLarg k v).larg j = if j = k then v else s.larg j := by
  unfold State.withLarg State.larg
  rw [Vector.getElem_set]
  simp only [Fin.val_inj, eq_comm (a := k)]

/-- A drawing on the same surface of the same memory, whatever the latch holds, ends in the same way. -/
theorem State.drawOn_withLarg {s t : State} {h : Handle} {draw draw' : State → State} {k : Fin 8} {v : Word}
    (hmem : (draw' (s.withLarg k v)).mem = (draw s).mem)
    (hst : (draw' (s.withLarg k v)).status = (draw s).status) (e : s.drawOn h draw = .next t) :
    ∃ u, (s.withLarg k v).drawOn h draw' = .next u ∧ u.mem = t.mem ∧ u.status = t.status := by
  rcases State.drawOn_cases e with ⟨hv, rfl⟩ | ⟨hv, hro, rfl⟩ | ⟨hv, hro, he, rfl⟩
  · exact ⟨_, State.drawOn_of_invalid (s := s.withLarg k v) hv draw', rfl, rfl⟩
  · exact ⟨_, State.drawOn_of_sealed (s := s.withLarg k v) hv hro draw', rfl, rfl⟩
  · exact ⟨_, State.drawOn_of_open (s := s.withLarg k v) hv hro he draw', hmem, congrArg (·.complete .ok) hst⟩

/-- Settles O26: the ring from 0 covers the disc, and the outer radius is the radius latched. -/
theorem ringFromZeroIsCircle : Obligations.RingFromZeroIsCircle := by
  intro s t hzero h
  change ∃ u, exec .fillCircle (s.withLarg 3 (s.larg 4)) = .next u ∧ u.mem = t.mem ∧ u.status = t.status
  cases hf : s.status.fatal with
  | true =>
    obtain rfl := Host.Outcome.next.inj ((exec_of_locked hf _).symm.trans h)
    exact ⟨_, exec_of_locked (s := s.withLarg 3 (s.larg 4)) hf _, rfl, rfl⟩
  | false =>
    have larg (j : Fin 8) := s.larg_withLarg 3 j (s.larg 4)
    have dst : (s.withLarg 3 (s.larg 4)).dst = s.dst := congrArg (BitVec.extractLsb' 0 8) (larg 0)
    have radius : (s.withLarg 3 (s.larg 4)).q 3 = s.q 4 := congrArg intPart (larg 3)
    rw [exec_fillRing hf] at h
    rw [exec_fillCircle (s := s.withLarg 3 (s.larg 4)) hf, dst]
    refine State.drawOn_withLarg ?_ rfl h
    have inner : s.q 3 = 0 := hzero
    have same : (s.withLarg 3 (s.larg 4)).q 1 = s.q 1 ∧ (s.withLarg 3 (s.larg 4)).q 2 = s.q 2 ∧
        (s.withLarg 3 (s.larg 4)).color = s.color :=
      ⟨congrArg intPart (larg 1), congrArg intPart (larg 2), larg 5⟩
    obtain ⟨hcx, hcy, hcolor⟩ := same
    rw [dst, radius, hcx, hcy, hcolor, inner, covRing_zero]
    rfl

/-! ### Repeated drawings -/

/-- Equal words have equal bytes. -/
theorem State.readByte_eq_of_memRead_eq {s t : State} {b : Nat} (h : s.memRead (b / 4) = t.memRead (b / 4)) :
    s.readByte b = t.readByte b := by
  have split (u : State) (a i : Nat) (hi : i < 4) :
      (u.memRead a).extractLsb' (8 * (3 - i)) 8 = u.readByte (4 * a + i) := by
    apply BitVec.eq_of_getLsbD_eq
    intro j hj
    simp only [State.memRead, BitVec.getLsbD_extractLsb', BitVec.getLsbD_append]
    interval_cases i <;> interval_cases j <;> simp
  have hb : 4 * (b / 4) + b % 4 = b := by omega
  have e := congrArg (BitVec.extractLsb' (8 * (3 - b % 4)) 8) h
  rwa [split s _ _ (by omega), split t _ _ (by omega), hb] at e

/-- A drawing over a drawing of the same pixels in the same colour changes nothing further. -/
theorem State.Draws.readByte_eq {s t u : State} {h : Handle} {cov : Int → Int → Prop} {c : Word}
    (D : s.Draws t h cov c) (E : t.Draws u h cov c) (b : Nat) : u.readByte b = t.readByte b := by
  have hdesc : t.desc h = s.desc h := by rw [D.onlyMem]; rfl
  have hdesc' : u.desc h = t.desc h := by rw [E.onlyMem]; rfl
  by_cases hb : ∃ x y : Nat, x < t.width h ∧ y < t.height h ∧ cov x y ∧ b / 4 = t.pxAddr h x y
  · obtain ⟨x, y, hx, hy, hc, e⟩ := hb
    have first : t.px h x y = c := D.covered x y (State.width_congr hdesc ▸ hx) (State.height_congr hdesc ▸ hy) hc
    have second : u.memRead (t.pxAddr h x y) = c := State.pxAddr_congr hdesc' x y ▸ E.covered x y hx hy hc
    exact State.readByte_eq_of_memRead_eq (e ▸ second.trans first.symm)
  · exact E.otherBytes b fun x y hx hy hc e => hb ⟨x, y, hx, hy, hc, e⟩

/-- What a second run of a command leaves after the first: the same STATUS and the same bytes. -/
def RepeatsInto (i : Instr) (t : State) : Prop :=
  ∃ u, exec i t = .next u ∧ u.status = t.status ∧ ∀ b, u.readByte b = t.readByte b

section
variable {i : Instr} {draw : State → State} {cov : State → Int → Int → Prop}
  (run : ∀ s : State, s.status.fatal = false → exec i s = s.drawOn s.dst draw)
  (status : ∀ s : State, (draw s).status = s.status)
  (drawn : ∀ s : State, s.Draws (draw s) s.dst (cov s) s.color)
  (latched : ∀ s t : State, t.latch = s.latch → cov t = cov s)
include run status drawn latched

/-- The drawing again, on the operands still latched, covers the same pixels of the same surface. -/
theorem repeatsInto_draw {s : State} (hf : s.status.fatal = false) (hv : (s.desc s.dst).valid = true)
    (hro : (s.desc s.dst).ro = false) (he : s.surfaceExists s.dst = true) :
    RepeatsInto i ((draw s).complete .ok) := by
  obtain ⟨t, ht⟩ : ∃ t, t = (draw s).complete .ok := ⟨_, rfl⟩
  have D : s.Draws t s.dst (cov s) s.color := ht ▸ (drawn s).complete .ok
  have hst : t.status = s.status.complete .ok := ht ▸ congrArg (·.complete .ok) (status s)
  have hlatch : t.latch = s.latch := by rw [D.onlyMem]
  have hdst : t.dst = s.dst := by rw [State.dst, State.larg, hlatch]; rfl
  have hcolor : t.color = s.color := by rw [State.color, State.larg, hlatch]; rfl
  have hdesc : t.desc s.dst = s.desc s.dst := by rw [D.onlyMem]; rfl
  have hexists : t.surfaceExists s.dst = true := by
    rw [State.surfaceExists_congr hdesc (by rw [D.onlyMem])]; exact he
  have hlive : t.status.fatal = false := (congrArg Status.fatal hst).trans hf
  have E := drawn t
  rw [hdst, hcolor, latched s t hlatch] at E
  have again : exec i t = .next ((draw t).complete .ok) := by
    rw [run t hlive, hdst]
    exact State.drawOn_of_open (hdesc ▸ hv) (hdesc ▸ hro) hexists draw
  have hst' : (draw t).status.complete .ok = t.status := by rw [status t, hst]; rfl
  exact ht ▸ ⟨_, again, hst', D.readByte_eq (E.complete .ok)⟩

theorem repeatsInto_of_drawOn {s t : State} (h : exec i s = .next t) : RepeatsInto i t := by
  cases hf : s.status.fatal with
  | true =>
    obtain rfl := Host.Outcome.next.inj ((exec_of_locked hf i).symm.trans h)
    exact ⟨_, exec_of_locked (s := s.complete .fatalLock) hf i, rfl, fun _ => rfl⟩
  | false =>
    rcases State.drawOn_cases ((run s hf).symm.trans h) with ⟨hv, rfl⟩ | ⟨hv, hro, rfl⟩ | ⟨hv, hro, he, rfl⟩
    · exact ⟨_, (run s.completeSentinel hf).trans (State.drawOn_of_invalid (s := s.completeSentinel) hv draw), rfl,
        fun _ => rfl⟩
    · exact ⟨_, (run (s.complete .readOnly) hf).trans (State.drawOn_of_sealed (s := s.complete .readOnly) hv hro draw),
        rfl, fun _ => rfl⟩
    · exact repeatsInto_draw run status drawn latched hf hv hro he

end

/-- The operands are latched, so states with one latch have the same operands (R37). -/
theorem State.q_congr {s t : State} (e : t.latch = s.latch) (k : Fin 8) : t.q k = s.q k := by
  rw [State.q, State.q, State.larg, State.larg, e]

/-- Settles O28: each command is the prologue and a drawing whose pixels and colour its latched operands fix. -/
theorem fillTwiceIsFillOnce : Obligations.FillTwiceIsFillOnce := by
  intro i s t hi h
  simp only [List.mem_cons, List.not_mem_nil, or_false] at hi
  rcases hi with rfl | rfl | rfl | rfl | rfl
  · exact repeatsInto_of_drawOn (fun _ => exec_fillRect) (fun _ => rfl) (fun _ => State.draws_fill)
      (fun s t e => by simp only [State.q_congr e]) h
  · exact repeatsInto_of_drawOn (fun _ => exec_fillCircle) (fun _ => rfl) (fun _ => State.draws_fill)
      (fun s t e => by simp only [State.q_congr e]) h
  · exact repeatsInto_of_drawOn (fun _ => exec_fillEllipse) (fun _ => rfl) (fun _ => State.draws_fill)
      (fun s t e => by simp only [State.q_congr e]) h
  · exact repeatsInto_of_drawOn (fun _ => exec_fillRing) (fun _ => rfl) (fun _ => State.draws_fill)
      (fun s t e => by simp only [State.q_congr e]) h
  · exact repeatsInto_of_drawOn (fun _ => exec_drawLine) (fun _ => rfl) (fun _ => State.draws_plot)
      (fun s t e => by simp only [State.q_congr e]) h

/-! ### The steps of a line (R189, R190) -/

/-- One coordinate after `i` of `n` steps from `a` to `a + d`. -/
def lineAt (a d : Int) (n i : Nat) : Int := a + i * d / n

theorem linePoints_eq_map (x0 y0 x1 y1 : Int) {n : Nat} (hn : n = max (x1 - x0).natAbs (y1 - y0).natAbs) :
    linePoints x0 y0 x1 y1 =
      (List.range (n + 1)).map fun i => (lineAt x0 (x1 - x0) n i, lineAt y0 (y1 - y0) n i) := by
  subst hn
  unfold linePoints
  by_cases h : max (x1 - x0).natAbs (y1 - y0).natAbs = 0
  · simp [h, lineAt]
  · simp only [if_neg h]
    rfl

theorem lineAt_zero (a d : Int) (n : Nat) : lineAt a d n 0 = a := by simp [lineAt]

/-- The last step ends on the far end; with no steps both ends are one point. -/
theorem lineAt_last {a b : Int} {n : Nat} (hd : (b - a).natAbs ≤ n) : lineAt a (b - a) n n = b := by
  unfold lineAt
  rcases Nat.eq_zero_or_pos n with rfl | hn
  · simp; omega
  · rw [Int.mul_ediv_cancel_left _ (by omega)]
    omega

/-- The `i`-th step from one end is the step `n - i` from the other. -/
theorem lineAt_reverse {a b : Int} {n i : Nat} (hn : n ≠ 0) (hi : i ≤ n) :
    lineAt a (b - a) n i = lineAt b (a - b) n (n - i) := by
  have hsplit : ((n - i : Nat) : Int) * (a - b) = i * (b - a) + n * (a - b) := by
    rw [Nat.cast_sub hi]
    ring
  unfold lineAt
  rw [hsplit, Int.add_mul_ediv_left _ _ (by omega)]
  ring

/-- One step moves a coordinate by at most 1, and the major axis, whose `|d|` is `n`, by exactly 1. -/
theorem lineAt_succ {a d : Int} {n : Nat} (hn : 0 < n) (hd : d.natAbs ≤ n) (i : Nat) :
    (lineAt a d n (i + 1) - lineAt a d n i).natAbs ≤ 1 ∧
      (d.natAbs = n → (lineAt a d n (i + 1) - lineAt a d n i).natAbs = 1) := by
  have hpos : (0 : Int) < n := by omega
  obtain ⟨r, hr⟩ : ∃ r, r = (i * d) % (n : Int) := ⟨_, rfl⟩
  have hr0 : 0 ≤ r := hr ▸ Int.emod_nonneg _ hpos.ne'
  have hr1 : r < n := hr ▸ Int.emod_lt_of_pos _ hpos
  have hnext : ((i + 1 : Nat) : Int) * d = (r + d) + n * (i * d / n) := by
    rw [hr]
    push_cast
    linarith [Int.emod_add_mul_ediv (i * d) n]
  have hmove : lineAt a d n (i + 1) - lineAt a d n i = (r + d) / n := by
    unfold lineAt
    rw [hnext, Int.add_mul_ediv_left _ _ hpos.ne']
    ring
  have hlo {m : Int} (h : m * n ≤ r + d) : m ≤ (r + d) / n := (Int.le_ediv_iff_mul_le hpos).2 h
  have hhi {m : Int} (h : r + d < m * n) : (r + d) / n < m := (Int.ediv_lt_iff_lt_mul hpos).2 h
  rw [hmove]
  have hm1 : -1 ≤ (r + d) / n := hlo (by omega)
  have h2 : (r + d) / n < 2 := hhi (by omega)
  refine ⟨by omega, fun hmajor => ?_⟩
  rcases Int.natAbs_eq d with e | e
  · have h1 : 1 ≤ (r + d) / n := hlo (by omega)
    omega
  · have h0 : (r + d) / n < 0 := hhi (by omega)
    omega

theorem getElem?_linePoints_eq_some {x0 y0 x1 y1 : Int} {n k : Nat} {p : Int × Int}
    (hn : n = max (x1 - x0).natAbs (y1 - y0).natAbs) :
    (linePoints x0 y0 x1 y1)[k]? = some p ↔
      k ≤ n ∧ p = (lineAt x0 (x1 - x0) n k, lineAt y0 (y1 - y0) n k) := by
  rw [linePoints_eq_map x0 y0 x1 y1 hn, List.getElem?_map, Option.map_eq_some_iff]
  constructor
  · rintro ⟨j, hj, rfl⟩
    obtain ⟨hlt, rfl⟩ := List.getElem?_eq_some_iff.1 hj
    rw [List.length_range] at hlt
    rw [List.getElem_range]
    exact ⟨Nat.le_of_lt_succ hlt, rfl⟩
  · rintro ⟨hk, rfl⟩
    exact ⟨k, List.getElem?_range (Nat.lt_succ_of_le hk), rfl⟩

/-- Settles O30: the list by its entries, and each axis by `lineAt_succ`. -/
theorem lineStepsAreWholePixels : Obligations.LineStepsAreWholePixels := by
  intro x0 y0 x1 y1
  obtain ⟨n, hn⟩ : ∃ n : Nat, n = max (x1 - x0).natAbs (y1 - y0).natAbs := ⟨_, rfl⟩
  have hdx : (x1 - x0).natAbs ≤ n := hn ▸ le_max_left _ _
  have hdy : (y1 - y0).natAbs ≤ n := hn ▸ le_max_right _ _
  simp only [← hn]
  refine ⟨?length, ?first, ?last, fun k p q hp hq => ?step⟩
  case length => rw [linePoints_eq_map x0 y0 x1 y1 hn, List.length_map, List.length_range]
  case first => exact (getElem?_linePoints_eq_some hn).2 ⟨Nat.zero_le n, by rw [lineAt_zero, lineAt_zero]⟩
  case last => exact (getElem?_linePoints_eq_some hn).2 ⟨le_rfl, by rw [lineAt_last hdx, lineAt_last hdy]⟩
  case step =>
    obtain ⟨-, rfl⟩ := (getElem?_linePoints_eq_some hn).1 hp
    obtain ⟨hk, rfl⟩ := (getElem?_linePoints_eq_some hn).1 hq
    have hpos : 0 < n := Nat.lt_of_lt_of_le (Nat.succ_pos k) hk
    obtain ⟨hx, hxmajor⟩ := lineAt_succ (a := x0) hpos hdx k
    obtain ⟨hy, hymajor⟩ := lineAt_succ (a := y0) hpos hdy k
    refine ⟨le_antisymm (max_le hx hy) ?_, hxmajor, hymajor⟩
    rcases max_choice (x1 - x0).natAbs (y1 - y0).natAbs with e | e
    · exact le_max_of_le_left (hxmajor (e ▸ hn.symm)).ge
    · exact le_max_of_le_right (hymajor (e ▸ hn.symm)).ge

theorem mem_linePoints_reverse {x0 y0 x1 y1 : Int} {p : Int × Int} (h : p ∈ linePoints x0 y0 x1 y1) :
    p ∈ linePoints x1 y1 x0 y0 := by
  obtain ⟨n, hn⟩ : ∃ n : Nat, n = max (x1 - x0).natAbs (y1 - y0).natAbs := ⟨_, rfl⟩
  have hn' : n = max (x0 - x1).natAbs (y0 - y1).natAbs := by omega
  rcases (mem_linePoints hn).1 h with ⟨h0, rfl⟩ | ⟨h0, i, hi, rfl⟩
  · exact (mem_linePoints hn').2 (.inl ⟨h0, by ext <;> simp <;> omega⟩)
  · exact (mem_linePoints hn').2
      (.inr ⟨h0, n - i, Nat.sub_le n i, Prod.ext (lineAt_reverse h0 hi) (lineAt_reverse h0 hi)⟩)

/-- Settles O29: the step `i` from one end is the step `n - i` from the other. -/
theorem lineReversalCoversTheSameSet : Obligations.LineReversalCoversTheSameSet :=
  fun _ _ _ _ _ => ⟨mem_linePoints_reverse, mem_linePoints_reverse⟩

end Sys2Proof.Machine
end

section
/-! Laws that compare commands or runs: the palette entry (41_palette.md R126), REMAP under the identity table
(43_tile_remap.md R170), BLIT's mapping (45_compositor.md R211), and CROP as SURF_ALLOC and BLIT (R215). -/

namespace Sys2Proof.Machine

/-- A command that completes with OK was not locked. -/
theorem live_of_exec_ok {i : Instr} {s t : State} (h : exec i s = .next t) (hok : t.status.err = .ok) :
    s.status.fatal = false := by
  cases hf : s.status.fatal with
  | false => rfl
  | true =>
    obtain rfl := Host.Outcome.next.inj ((exec_of_locked hf i).symm.trans h)
    cases hok

/-! ### The palette entry -/

/-- What a PAL_UNPACK that completes with OK stores (R120). -/
theorem effPal_of_palUnpack_ok {s t : State} (h : exec .palUnpack s = .next t) (hok : t.status.err = .ok)
    (hc : s.palCount.toNat < 32) : t.effPal s.palCount.toNat = s.palEntry := by
  have hf := live_of_exec_ok h hok
  cases hw : s.palWellFormed with
  | false =>
    obtain rfl := Host.Outcome.next.inj ((exec_palUnpack_of_malformed hf (by simp [hw])).symm.trans h)
    cases hok
  | true =>
    obtain rfl := Host.Outcome.next.inj ((exec_palUnpack_of_room hf hw hc).symm.trans h)
    exact State.effPal_appendPal_new hc s.palEntry

theorem State.palEntry_congr {s s' : State} (hd : ∀ k, k < 8 → s.palDigit k = s'.palDigit k) :
    s.palEntry = s'.palEntry := by
  unfold State.palEntry
  rw [hd 0 (by decide), hd 1 (by decide), hd 2 (by decide), hd 3 (by decide), hd 4 (by decide), hd 5 (by decide),
    hd 6 (by decide), hd 7 (by decide)]

theorem State.palDigit_of_lt {s : State} {k : Nat} (hk : k < s.palLen) :
    s.palDigit k = (hexVal (s.ltext k)).getD 0xF :=
  if_pos hk

/-- Past the length of a six-digit entry stand the implicit "ff" (R122). -/
theorem State.palDigit_of_le {s : State} {k : Nat} (hk : s.palLen ≤ k) : s.palDigit k = 0xF :=
  if_neg (not_lt.2 hk)

theorem State.palDigit_congr {s s' : State} (hlen : s.palLen = s'.palLen)
    (htext : ∀ k, k < s.palLen → s.ltext k = s'.ltext k) (k : Nat) : s.palDigit k = s'.palDigit k := by
  rcases Nat.lt_or_ge k s.palLen with hk | hk
  · rw [State.palDigit_of_lt hk, State.palDigit_of_lt (hlen ▸ hk), htext k hk]
  · rw [State.palDigit_of_le hk, State.palDigit_of_le (hlen ▸ hk)]

/-- The characters 'f' have the digit value that the missing ones of a six-digit entry are given. -/
theorem State.palDigit_six_eight {s s' : State} (h6 : s.palLen = 6) (h8 : s'.palLen = 8)
    (htext : ∀ k, k < 6 → s.ltext k = s'.ltext k) (hf6 : s'.ltext 6 = 0x66) (hf7 : s'.ltext 7 = 0x66) {k : Nat}
    (hk : k < 8) : s.palDigit k = s'.palDigit k := by
  rw [State.palDigit_of_lt (s := s') (by omega)]
  rcases Nat.lt_or_ge k 6 with hlow | hhigh
  · rw [State.palDigit_of_lt (by omega), htext k hlow]
  · rw [State.palDigit_of_le (by omega)]
    obtain rfl | rfl : k = 6 ∨ k = 7 := by omega
    · rw [hf6]; rfl
    · rw [hf7]; rfl

/-- The alpha byte is the last two digits (R122). -/
theorem State.palEntry_alpha (s : State) : s.palEntry.extractLsb' 0 8 = s.palDigit 6 ++ s.palDigit 7 := by
  apply BitVec.eq_of_getLsbD_eq
  intro i hi
  simp only [State.palEntry, BitVec.getLsbD_extractLsb', BitVec.getLsbD_append]
  interval_cases i <;> simp

/-- Settles O16: the stored word is `State.palEntry`, which its eight digits fix. -/
theorem paletteEntryLaws : Obligations.PaletteEntryLaws := by
  intro s s' t t' h h' hok hok' hc hc'
  rw [effPal_of_palUnpack_ok h hok hc, effPal_of_palUnpack_ok h' hok' hc']
  refine ⟨?same, ?alpha⟩
  case same =>
    rintro ⟨hlen, htext⟩
    exact State.palEntry_congr fun k _ => State.palDigit_congr hlen htext k
  case alpha =>
    rintro ⟨h6, h8, htext, hf6, hf7⟩
    refine ⟨State.palEntry_congr fun k hk => State.palDigit_six_eight h6 h8 htext hf6 hf7 hk, ?_⟩
    rw [s.palEntry_alpha, State.palDigit_of_le h6.le, State.palDigit_of_le (by omega)]
    rfl

/-! ### REMAP under the identity table -/

/-- A REMAP that completes with OK and without SENT passed its checks, and its pixel loop ran on what `Alloc` left. -/
theorem remap_ok_cases {s t : State} (hs : s.MemInv) (h : exec .remap s = .next t) (hok : t.status.err = .ok)
    (hsent : t.status.sent = false) :
    (s.desc s.src).valid = true ∧ ∃ u, s.Allocated u s.dst (s.width s.src) (s.height s.src) ∧
      t = (u.remapInto s.dst s.src).complete .ok := by
  have hf := live_of_exec_ok h hok
  rcases Nat.lt_or_ge 256 (s.ctBase + s.ctCount) with hr | hr
  · obtain rfl := Host.Outcome.next.inj ((exec_remap_of_ctRange hf hr).symm.trans h)
    cases hok
  cases hv : (s.desc s.src).valid with
  | false =>
    obtain rfl := Host.Outcome.next.inj ((exec_remap_of_sentinel hf hr hv).symm.trans h)
    cases hsent
  | true =>
    rcases State.allocThen_cases ((exec_remap_of_surface hs hf hr hv).symm.trans h) with ⟨c, hc, rfl⟩ | ⟨u, hu, rfl⟩
    · exact absurd hok (State.alloc_error_ne hc).1
    · have A := State.alloc_ok hu
      rw [State.sameButAllocation_dst A.others, State.sameButAllocation_src A.others]
      exact ⟨rfl, u, A, rfl⟩

theorem bucket_lt (p : Word) : bucket p < 4 := by
  rw [bucket_eq]
  omega

/-- Under the identity table a covered pixel becomes the palette entry of its bucket (R170). -/
theorem State.remapPixel_of_identity {s : State} {w h x y : Nat}
    (hid : ∀ k b : Nat, k < s.ctCount → b < 4 → slotIndex (s.slot (BitVec.ofNat 8 (s.ctBase + k))) b = b)
    (hc : tileCovered w h s.ctCount x y = true) (p : Word) : s.remapPixel w h x y p = s.effPal (bucket p) := by
  obtain ⟨-, -, hj⟩ := tileCovered_iff.1 hc
  rw [State.remapPixel_of_covered hc, hid (tileIndex w x y) (bucket p) hj (bucket_lt p)]

/-- Settles O20: covered pixels by the identity table; the uncovered ones are copied whatever the table holds. -/
theorem remapUnderTheIdentityTable : Obligations.RemapUnderTheIdentityTable := by
  intro s t hs h hok hsent hid
  obtain ⟨hv, u, A, rfl⟩ := remap_ok_cases hs h hok hsent
  have pixel {x y : Nat} (hx : x < s.width s.src) (hy : y < s.height s.src) :
      ((u.remapInto s.dst s.src).complete .ok).px s.dst x y =
        s.remapPixel (s.width s.src) (s.height s.src) x y (s.px s.src x y) := A.px_remapInto hs hv hx hy
  have onCovered {x y : Nat} (hx : x < s.width s.src) (hy : y < s.height s.src)
      (hc : tileCovered (s.width s.src) (s.height s.src) s.ctCount x y = true) :
      ((u.remapInto s.dst s.src).complete .ok).px s.dst x y = s.effPal (bucket (s.px s.src x y)) :=
    (pixel hx hy).trans (State.remapPixel_of_identity hid hc _)
  refine ⟨fun x y ⟨hx, hy, hc⟩ => onCovered hx hy hc, fun hall x y ⟨hx, hy, hc⟩ => ?fixed, fun hfix x y hx hy => ?equal⟩
  case fixed => exact (onCovered hx hy hc).symm.trans (hall x y hx hy)
  case equal =>
    by_cases hc : tileCovered (s.width s.src) (s.height s.src) s.ctCount x y = true
    · exact (onCovered hx hy hc).trans (hfix x y ⟨hx, hy, hc⟩)
    · exact (pixel hx hy).trans (State.remapPixel_of_not_covered hc _)

/-! ### BLIT's mapping -/

/-- A mirrored offset of a side is an offset of that side. -/
theorem mirror_bounds {side k : Int} (m : Bool) (h0 : 0 ≤ k) (h1 : k < side) :
    0 ≤ (if m = true then side - 1 - k else k) ∧ (if m = true then side - 1 - k else k) < side := by
  split
  · omega
  · omega

/-- Settles O31: `blitTarget_inj`, and each mirrored offset within its side. -/
theorem blitMappingIsOneToOne : Obligations.BlitMappingIsOneToOne := by
  refine fun mh mv rot dx dy sw sh i j i2 j2 => ⟨blitTarget_inj, fun hi0 hi hj0 hj => ?box⟩
  case box =>
    obtain ⟨hi0', hi'⟩ := mirror_bounds mh hi0 hi
    obtain ⟨hj0', hj'⟩ := mirror_bounds mv hj0 hj
    rw [blitTarget_eq]
    by_cases hr : rot = 0
    · subst hr
      simp only [if_true]
      exact ⟨by omega, by omega, fun _ => ⟨by omega, by omega⟩, fun h1 => absurd h1 (by decide)⟩
    · simp only [if_neg hr]
      exact ⟨by omega, by omega, fun h0 => absurd h0 hr, fun _ => ⟨by omega, by omega⟩⟩

/-! ### CROP as SURF_ALLOC and BLIT -/

/-- A CROP that completes with OK and without SENT passed its checks, and its pixel loop ran on what `Alloc` left. -/
theorem crop_ok_cases {s t : State} (hs : s.MemInv) (h : exec .crop s = .next t) (hok : t.status.err = .ok)
    (hsent : t.status.sent = false) :
    (s.desc s.src).valid = true ∧ ∃ u, s.alloc s.dst (s.q 5) (s.q 6) = .ok u ∧
      t = (u.cropInto s.dst s.src (s.q 3) (s.q 4)).complete .ok := by
  have hf := live_of_exec_ok h hok
  cases hv : (s.desc s.src).valid with
  | false =>
    obtain rfl := Host.Outcome.next.inj ((exec_crop_of_sentinel hf hv).symm.trans h)
    cases hsent
  | true =>
    refine ⟨rfl, ?_⟩
    cases e : s.alloc s.dst (s.q 5) (s.q 6) with
    | error c =>
      obtain rfl := Host.Outcome.next.inj ((exec_crop_of_error hs hf hv e).symm.trans h)
      exact absurd hok (State.alloc_error_ne e).1
    | ok u => exact ⟨u, rfl, (Host.Outcome.next.inj ((exec_crop_of_ok hs hf hv e).symm.trans h)).symm⟩

theorem blitTarget_plain (sw sh i j : Int) : blitTarget false false 0 0 0 sw sh i j = (i, j) := by
  simp [blitTarget_eq]

section
variable {s u : State} {dst src : Handle} {w ht sx sy : Int} (A : s.Allocated u dst w ht)
  (hv : (s.desc src).valid = true)
include A hv

/-- The plain BLIT of the whole region leaves on the new surface what CROP's loop leaves (`px_cropInto`). -/
theorem State.Allocated.px_plainBlit {x y : Nat} (hx : (x : Int) < w) (hy : (y : Int) < ht) :
    (u.setPixels dst (u.blitWrites false false 0 src 0 0 sx sy w ht)).px dst x y =
      if s.inB src (sx + x) (sy + y) = true then u.px src (sx + x).toNat (sy + y).toNat else 0 := by
  have hxu : x < u.width dst := by rw [A.width]; omega
  have hyu : y < u.height dst := by rw [A.height]; omega
  have hin : u.inB src (sx + x) (sy + y) = s.inB src (sx + x) (sy + y) :=
    State.inB_congr (A.descOther src (A.ne_of_valid hv)) _ _
  split
  case isTrue h =>
    have copy := State.px_setPixels_blitWrites (s := u) (mh := false) (mv := false) (rot := 0) (dst := dst)
      (src := src) (dx := 0) (dy := 0) (sx := sx) (sy := sy) ⟨Int.natCast_nonneg x, hx⟩ ⟨Int.natCast_nonneg y, hy⟩
      (hin.trans h)
    rw [blitTarget_plain] at copy
    exact copy ((u.inB_nat dst x y).2 ⟨hxu, hyu⟩)
  case isFalse h =>
    refine (State.px_setPixels_of_notMem hxu fun p hp => ?_).trans (A.cleared x y (by omega) (by omega))
    obtain ⟨i, j, -, -, -, -, hsrc, rfl⟩ := State.mem_blitWrites.1 hp
    rw [blitTarget_plain]
    rintro ⟨rfl, rfl⟩
    exact h (hin.symm.trans hsrc)

/-- On every byte of memory: on the new surface pixel by pixel, and outside it neither writes. -/
theorem State.Allocated.readByte_plainBlit (b : Nat) :
    (u.setPixels dst (u.blitWrites false false 0 src 0 0 sx sy w ht)).readByte b =
      (u.cropInto dst src sx sy).readByte b := by
  by_cases hb : (u.desc dst).base.toNat ≤ b / 4 ∧ b / 4 < (u.desc dst).base.toNat + u.width dst * u.height dst
  · obtain ⟨x, y, hx, hy, e⟩ := State.exists_pxAddr hb.1 hb.2
    rw [A.width] at hx
    rw [A.height] at hy
    have hxw : (x : Int) < w := by omega
    have hyh : (y : Int) < ht := by omega
    refine State.readByte_eq_of_memRead_eq (e ▸ ?_)
    exact (A.px_plainBlit hv hxw hyh).trans (A.px_cropInto hv hxw hyh).symm
  · have outside : b / 4 < (u.desc dst).base.toNat ∨
        (u.desc dst).base.toNat + u.width dst * u.height dst ≤ b / 4 := by omega
    exact (State.readByte_setPixels_outside _ outside).trans (State.readByte_paint_outside _ outside).symm

end

/-- The state with another latch. -/
def State.withLatch (s : State) (l : Latch) : State := { s with latch := l }

/-- When `Alloc` succeeds, and the state it then leaves (R104). -/
theorem State.alloc_ok_iff {s u : State} {h : Handle} {w ht : Int} :
    s.alloc h w ht = .ok u ↔
      (s.desc h).valid = false ∧ (0 ≤ w ∧ w ≤ 4095 ∧ 0 ≤ ht ∧ ht ≤ 4095) ∧
        s.allocPtr.toNat + w.toNat * ht.toNat ≤ s.params.pixWords.val ∧
        u = (s.claim h w.toNat ht.toNat).paint h fun _ _ => some 0 := by
  constructor
  · intro e
    have A := State.alloc_ok e
    refine ⟨A.wasFree, ⟨A.wNonneg, A.wMax, A.hNonneg, A.hMax⟩, A.fits, ?_⟩
    unfold State.alloc at e
    rw [if_neg (by simp [A.wasFree]), if_neg, if_neg (not_lt.2 A.fits)] at e
    · exact (Except.ok.inj e).symm
    · simp only [Config.maxDim]
      have := A.wNonneg; have := A.wMax; have := A.hNonneg; have := A.hMax
      omega
  · rintro ⟨hv, ⟨hw0, hw1, hh0, hh1⟩, hf, rfl⟩
    unfold State.alloc
    rw [if_neg (by simp [hv]), if_neg (by simp only [Config.maxDim]; omega), if_neg (not_lt.2 hf)]

/-- `Alloc` reads its arguments and not the latch. -/
theorem State.alloc_withLatch {s u : State} {h : Handle} {w ht : Int} (l : Latch) (e : s.alloc h w ht = .ok u) :
    (s.withLatch l).alloc h w ht = .ok (u.withLatch l) := by
  obtain ⟨hv, hd, hf, rfl⟩ := State.alloc_ok_iff.1 e
  exact State.alloc_ok_iff.2 ⟨hv, hd, hf, rfl⟩

/-- A dimension that passed `Alloc`'s check is the unsigned value of its word. -/
theorem toNat_ofInt_of_dim {n : Int} (h0 : 0 ≤ n) (h1 : n ≤ 4095) : ((BitVec.ofInt 32 n).toNat : Int) = n := by
  rw [BitVec.toNat_ofInt]
  omega

/-- SURF_ALLOC with the dimensions in ARG1 and ARG2 gains the surface that `Alloc` gives CROP. -/
theorem exec_surfAlloc_of_dims {s u : State} (hf : s.status.fatal = false) {w ht : Int}
    (e : s.alloc s.dst w ht = .ok u) :
    exec .surfAlloc ((s.withLarg 1 (BitVec.ofInt 32 w)).withLarg 2 (BitVec.ofInt 32 ht)) =
      .next ((u.withLatch
        ((s.withLarg 1 (BitVec.ofInt 32 w)).withLarg 2 (BitVec.ofInt 32 ht)).latch).complete .ok) := by
  obtain ⟨r, hr⟩ : ∃ r, r = (s.withLarg 1 (BitVec.ofInt 32 w)).withLarg 2 (BitVec.ofInt 32 ht) := ⟨_, rfl⟩
  have A := State.alloc_ok e
  have larg (j : Fin 8) : r.larg j = if j = 2 then BitVec.ofInt 32 ht else if j = 1 then BitVec.ofInt 32 w
      else s.larg j := by rw [hr, State.larg_withLarg, State.larg_withLarg]
  have hdst : r.dst = s.dst := congrArg (BitVec.extractLsb' 0 8) (larg 0)
  have hw : (r.allocW : Int) = w := by
    rw [State.allocW, larg 1]
    exact toNat_ofInt_of_dim A.wNonneg A.wMax
  have hht : (r.allocH : Int) = ht := by
    rw [State.allocH, larg 2]
    exact toNat_ofInt_of_dim A.hNonneg A.hMax
  have hlive : r.status.fatal = false := by rw [hr]; exact hf
  have halloc : r.alloc r.dst r.allocW r.allocH = .ok (u.withLatch r.latch) := by
    rw [hdst, hw, hht]
    have hrs : r = s.withLatch r.latch := by rw [hr]; rfl
    rw [hrs]
    exact State.alloc_withLatch r.latch e
  rw [← hr, exec_surfAlloc hlive, State.allocThen_of_ok halloc]
  rfl

theorem intPart_zero : intPart 0 = 0 := by decide

/-- What SURF_ALLOC left, with the operands of the plain BLIT to (0, 0) latched and the others as `s` holds them. -/
def State.readyToCopy (s u : State) : State := (u.complete .ok).withLatch ((s.withLarg 1 0).withLarg 2 0).latch

theorem State.larg_readyToCopy (s u : State) (j : Fin 8) :
    (s.readyToCopy u).larg j = if j = 2 then 0 else if j = 1 then 0 else s.larg j := by
  rw [← State.larg_withLarg, ← State.larg_withLarg]
  rfl

theorem State.q_readyToCopy (s u : State) (j : Fin 8) :
    (s.readyToCopy u).q j = if j = 2 then 0 else if j = 1 then 0 else s.q j := by
  unfold State.q
  rw [State.larg_readyToCopy]
  split_ifs
  · exact intPart_zero
  · exact intPart_zero
  · rfl

/-- The plain BLIT onto the surface just gained passes its checks (R210). -/
theorem exec_plainBlit_of_alloc {s u : State} {w ht : Int} (hs : s.MemInv) (hf : s.status.fatal = false)
    (hv : (s.desc s.src).valid = true) (hu : s.alloc s.dst w ht = .ok u) :
    exec (.blit false false 0) (s.readyToCopy u) =
      .next (((s.readyToCopy u).setPixels s.dst ((s.readyToCopy u).blitWrites false false 0 s.src 0 0
        (s.q 3) (s.q 4) (s.q 5) (s.q 6))).complete .ok) := by
  have A := State.alloc_ok hu
  have hdst : (s.readyToCopy u).dst = s.dst := congrArg (BitVec.extractLsb' 0 8) (s.larg_readyToCopy u 0)
  have hsrc : (s.readyToCopy u).src = s.src := congrArg (BitVec.extractLsb' 8 8) (s.larg_readyToCopy u 0)
  have q1 : (s.readyToCopy u).q 1 = 0 := s.q_readyToCopy u 1
  have q2 : (s.readyToCopy u).q 2 = 0 := s.q_readyToCopy u 2
  have q3 : (s.readyToCopy u).q 3 = s.q 3 := s.q_readyToCopy u 3
  have q4 : (s.readyToCopy u).q 4 = s.q 4 := s.q_readyToCopy u 4
  have q5 : (s.readyToCopy u).q 5 = s.q 5 := s.q_readyToCopy u 5
  have q6 : (s.readyToCopy u).q 6 = s.q 6 := s.q_readyToCopy u 6
  have hinv : (s.readyToCopy u).MemInv := State.memInv_congr (hs.alloc hu) rfl rfl rfl rfl
  have hlive : (s.readyToCopy u).status.fatal = false := (congrArg Status.fatal A.status).trans hf
  have hnew : (s.readyToCopy u).desc (s.readyToCopy u).dst = Desc.fresh w.toNat ht.toNat s.allocPtr :=
    hdst ▸ A.descNew
  have hold : (s.readyToCopy u).desc (s.readyToCopy u).src = s.desc s.src := by
    rw [hsrc]
    exact A.descOther _ (A.ne_of_valid hv)
  have hnewValid : ((s.readyToCopy u).desc (s.readyToCopy u).dst).valid = true := congrArg Desc.valid hnew
  have holdValid : ((s.readyToCopy u).desc (s.readyToCopy u).src).valid = true := (congrArg Desc.valid hold).trans hv
  have blit := exec_blit_of_open hlive false false (rot := 0) (.inl rfl) hnewValid holdValid (congrArg Desc.ro hnew)
    (hinv.surfaceExists hnewValid) (hinv.surfaceExists holdValid)
  rwa [hdst, hsrc, q1, q2, q3, q4, q5, q6] at blit

/-- Settles O34: SURF_ALLOC gains CROP's surface, and the plain BLIT copies CROP's pixels onto it. -/
theorem cropIsAllocThenBlit : Obligations.CropIsAllocThenBlit := by
  intro s t hs h hok hsent
  obtain ⟨hv, u, hu, rfl⟩ := crop_ok_cases hs h hok hsent
  have hf := live_of_exec_ok h hok
  have copied := exec_plainBlit_of_alloc hs hf hv hu
  exact ⟨_, _, exec_surfAlloc_of_dims hf hu, copied, rfl, rfl, fun _ => rfl,
    (State.alloc_ok hu).readByte_plainBlit hv⟩

end Sys2Proof.Machine
end

section
/-! The free content of pixel memory (93 U2, log 3): `State.resets` selects it, and no command's outcome depends on it,
since a command reads words of surfaces only, whose bytes have all been written. -/

namespace Sys2Proof.Machine

/-- The state with another free content of pixel memory. -/
def State.withResets (s : State) (n : Nat) : State := { s with resets := n }

/-- The same outcome over another free content. -/
def resultWithResets (n : Nat) : Result → Result
  | .next t => .next (t.withResets n)
  | .fault r => .fault r
  | .refused r => .refused r

/-! ### What a command reads of memory -/

theorem State.MemInv.readByte_withResets {s : State} (hs : s.MemInv) (n : Nat) {b : Nat}
    (hb : b < 4 * s.allocPtr.toNat) : (s.withResets n).readByte b = s.readByte b := by
  obtain ⟨v, hv⟩ := Option.isSome_iff_exists.1 (hs.allocWritten b hb)
  have written (k : Nat) : (s.withResets k).readByte b = v := by
    change (s.mem.read? b).getD _ = v
    rw [hv, Option.getD_some]
  exact (written n).trans (written s.resets).symm

/-- A surface's pixels do not depend on the free content. -/
theorem State.MemInv.px_withResets {s : State} (hs : s.MemInv) (n : Nat) {h : Handle} (hv : (s.desc h).valid = true)
    {x y : Nat} (hx : x < s.width h) (hy : y < s.height h) : (s.withResets n).px h x y = s.px h x y := by
  have hlt := hs.pxAddr_lt hv hx hy
  exact State.px_congr rfl fun b hb => hs.readByte_withResets n (by omega)

theorem State.paint_congr {s : State} {h : Handle} {f g : Nat → Nat → Option Word}
    (e : ∀ x y, x < s.width h → y < s.height h → f x y = g x y) : s.paint h f = s.paint h g := by
  unfold State.paint
  refine congrArg (s.setPixels h) (List.filterMap_congr fun p hp => ?_)
  obtain ⟨hx, hy⟩ := mem_points.1 (show (p.1, p.2) ∈ _ from hp)
  rw [e p.1 p.2 hx hy]

theorem State.MemInv.blitWrites_withResets {s : State} (hs : s.MemInv) (n : Nat) {src : Handle}
    (hv : (s.desc src).valid = true) (mh mv : Bool) (rot : BitVec 2) (dx dy sx sy sw sh : Int) :
    (s.withResets n).blitWrites mh mv rot src dx dy sx sy sw sh = s.blitWrites mh mv rot src dx dy sx sy sw sh := by
  unfold State.blitWrites
  refine List.filterMap_congr fun p hp => ?_
  obtain ⟨hx, hy⟩ := mem_points.1 (show (p.1, p.2) ∈ _ from hp)
  rw [hs.px_withResets n hv hx hy]

/-- REMAP's loop on a new surface of the source's dimensions. -/
theorem State.MemInv.remapInto_withResets {u : State} (hu : u.MemInv) (n : Nat) {dst src : Handle}
    (hv : (u.desc src).valid = true) (hw : u.width dst = u.width src) (hh : u.height dst = u.height src) :
    (u.withResets n).remapInto dst src = (u.remapInto dst src).withResets n := by
  refine (State.paint_congr (s := u.withResets n) (g := fun x y =>
    some (u.remapPixel (u.width src) (u.height src) x y (u.px src x y))) fun x y hx hy => ?_).trans rfl
  rw [hu.px_withResets n hv (hx.trans_eq hw) (hy.trans_eq hh)]
  rfl

/-- CROP's loop, which reads the source in bounds only. -/
theorem State.MemInv.cropInto_withResets {u : State} (hu : u.MemInv) (n : Nat) {dst src : Handle}
    (hv : (u.desc src).valid = true) (sx sy : Int) :
    (u.withResets n).cropInto dst src sx sy = (u.cropInto dst src sx sy).withResets n := by
  refine (State.paint_congr (s := u.withResets n) (g := fun x y =>
    if u.inB src (sx + x) (sy + y) then some (u.px src (sx + x).toNat (sy + y).toNat) else none)
    fun x y _ _ => ?_).trans rfl
  change (if u.inB src (sx + x) (sy + y) = true then _ else _) = _
  split
  case isTrue hin =>
    obtain ⟨hx0, hx, hy0, hy⟩ := (u.inB_iff src _ _).1 hin
    rw [hu.px_withResets n hv (by omega) (by omega)]
  case isFalse => rfl

/-! ### The shared operations -/

theorem State.onSurface_withResets {s : State} {n : Nat} {h : Handle} {body : State → Result}
    (hb : body (s.withResets n) = resultWithResets n (body s)) :
    (s.withResets n).onSurface h body = resultWithResets n (s.onSurface h body) := by
  unfold State.onSurface
  rw [apply_ite (resultWithResets n), ← hb]
  rfl

theorem State.drawOn_withResets {s : State} {n : Nat} {draw : State → State} (h : Handle)
    (hd : draw (s.withResets n) = (draw s).withResets n) :
    (s.withResets n).drawOn h draw = resultWithResets n (s.drawOn h draw) := by
  unfold State.drawOn
  rw [apply_ite (resultWithResets n), apply_ite (resultWithResets n), ← State.onSurface_withResets]
  · rfl
  · rw [hd]; rfl

theorem State.allocThen_withResets {s : State} {n : Nat} {h : Handle} {w ht : Int} {body : State → State}
    (hb : ∀ u, s.alloc h w ht = .ok u → body (u.withResets n) = (body u).withResets n) :
    (s.withResets n).allocThen h w ht body = resultWithResets n (s.allocThen h w ht body) := by
  cases e : s.alloc h w ht with
  | error c =>
    have failed := State.alloc_error_iff.1 e
    have e' : (s.withResets n).alloc h w ht = .error c := State.alloc_error_iff.2 failed
    rw [State.allocThen_of_error e, State.allocThen_of_error e']
    rfl
  | ok u =>
    obtain ⟨hv, hd, hf, hu⟩ := State.alloc_ok_iff.1 e
    have e' : (s.withResets n).alloc h w ht = .ok (u.withResets n) :=
      State.alloc_ok_iff.2 ⟨hv, hd, hf, congrArg (State.withResets · n) hu⟩
    rw [State.allocThen_of_ok e, State.allocThen_of_ok e', hb u e]
    rfl

/-! ### The commands -/

section
variable {s : State} (hs : s.MemInv) (hf : s.status.fatal = false) (n : Nat)
include hs hf

theorem exec_remap_withResets : exec .remap (s.withResets n) = resultWithResets n (exec .remap s) := by
  rcases Nat.lt_or_ge 256 (s.ctBase + s.ctCount) with hr | hr
  · rw [exec_remap_of_ctRange hf hr, exec_remap_of_ctRange (s := s.withResets n) hf hr]
    rfl
  cases hv : (s.desc s.src).valid with
  | false =>
    rw [exec_remap_of_sentinel hf hr hv, exec_remap_of_sentinel (s := s.withResets n) hf hr hv]
    rfl
  | true =>
    have hs' : (s.withResets n).MemInv := State.memInv_congr hs rfl rfl rfl rfl
    rw [exec_remap_of_surface hs hf hr hv, exec_remap_of_surface hs' hf hr hv]
    refine State.allocThen_withResets fun u hu => ?_
    have A : s.Allocated u s.dst (s.width s.src) (s.height s.src) := State.alloc_ok hu
    have hsrc := A.descOther s.src (A.ne_of_valid hv)
    have hdstE : u.dst = s.dst := State.sameButAllocation_dst A.others
    have hsrcE : u.src = s.src := State.sameButAllocation_src A.others
    have loop := (hs.alloc hu).remapInto_withResets (dst := s.dst) n (by rw [hsrc]; exact hv)
      (by rw [A.width, State.width_congr hsrc]; rfl) (by rw [A.height, State.height_congr hsrc]; rfl)
    rw [← hdstE, ← hsrcE] at loop
    exact loop

theorem exec_crop_withResets : exec .crop (s.withResets n) = resultWithResets n (exec .crop s) := by
  cases hv : (s.desc s.src).valid with
  | false =>
    rw [exec_crop_of_sentinel hf hv, exec_crop_of_sentinel (s := s.withResets n) hf hv]
    rfl
  | true =>
    have hs' : (s.withResets n).MemInv := State.memInv_congr hs rfl rfl rfl rfl
    rw [exec_crop_of_surface hs hf hv, exec_crop_of_surface hs' hf hv]
    refine State.allocThen_withResets fun u hu => ?_
    have A := State.alloc_ok hu
    have hsrcE : u.src = s.src := State.sameButAllocation_src A.others
    have hvu : (u.desc u.src).valid = true := by
      rw [hsrcE, A.descOther s.src (A.ne_of_valid hv)]
      exact hv
    exact (hs.alloc hu).cropInto_withResets n hvu (u.q 3) (u.q 4)

theorem exec_blit_withResets (mh mv : Bool) (rot : BitVec 2) :
    exec (.blit mh mv rot) (s.withResets n) = resultWithResets n (exec (.blit mh mv rot) s) := by
  have hf' : (s.withResets n).status.fatal = false := hf
  by_cases hrot : rot = 0 ∨ rot = 1
  case neg =>
    obtain ⟨h0, h1⟩ := not_or.1 hrot
    rw [exec_blit_of_reserved hf mh mv h0 h1, exec_blit_of_reserved hf' mh mv h0 h1]
    rfl
  by_cases hv : (s.desc s.dst).valid = false ∨ (s.desc s.src).valid = false
  case pos =>
    rw [exec_blit_of_sentinel hf mh mv hrot hv, exec_blit_of_sentinel hf' mh mv hrot hv]
    rfl
  obtain ⟨hd, hv⟩ := not_or.1 hv
  replace hd := eq_true_of_ne_false hd
  replace hv := eq_true_of_ne_false hv
  cases hro : (s.desc s.dst).ro with
  | true =>
    rw [exec_blit_of_sealed hf mh mv hrot hd hv hro, exec_blit_of_sealed hf' mh mv hrot hd hv hro]
    rfl
  | false =>
    have hde := hs.surfaceExists hd
    have hse := hs.surfaceExists hv
    have copy : exec (.blit mh mv rot) (s.withResets n) = .next (((s.withResets n).setPixels s.dst
        ((s.withResets n).blitWrites mh mv rot s.src (s.q 1) (s.q 2) (s.q 3) (s.q 4) (s.q 5) (s.q 6))).complete .ok) :=
      exec_blit_of_open hf' mh mv hrot hd hv hro hde hse
    rw [hs.blitWrites_withResets n hv] at copy
    rw [exec_blit_of_open hf mh mv hrot hd hv hro hde hse]
    exact copy

end

/-- Every command, past the fatal lock by its own equation. -/
theorem exec_withResets {s : State} (hs : s.MemInv) (n : Nat) (i : Instr) :
    exec i (s.withResets n) = resultWithResets n (exec i s) := by
  cases hf : s.status.fatal with
  | true =>
    rw [exec_of_locked hf, exec_of_locked (s := s.withResets n) hf]
    rfl
  | false =>
    have hf' : (s.withResets n).status.fatal = false := hf
    cases i with
    | nop => rw [exec_nop hf, exec_nop hf']; rfl
    | surfAlloc => rw [exec_surfAlloc hf, exec_surfAlloc hf']; exact State.allocThen_withResets fun _ _ => rfl
    | surfSeal => rw [exec_surfSeal hf, exec_surfSeal hf', apply_ite (resultWithResets n)]; rfl
    | palUnpack =>
      rw [exec_palUnpack hf, exec_palUnpack hf', apply_ite (resultWithResets n), apply_ite (resultWithResets n)]
      rfl
    | ctLoad => rw [exec_ctLoad hf, exec_ctLoad hf']; rfl
    | remap => exact exec_remap_withResets hs hf n
    | fillRect => rw [exec_fillRect hf, exec_fillRect hf']; exact State.drawOn_withResets s.dst rfl
    | fillCircle => rw [exec_fillCircle hf, exec_fillCircle hf']; exact State.drawOn_withResets s.dst rfl
    | fillEllipse => rw [exec_fillEllipse hf, exec_fillEllipse hf']; exact State.drawOn_withResets s.dst rfl
    | fillRing => rw [exec_fillRing hf, exec_fillRing hf']; exact State.drawOn_withResets s.dst rfl
    | drawLine => rw [exec_drawLine hf, exec_drawLine hf']; exact State.drawOn_withResets s.dst rfl
    | blit mh mv rot => exact exec_blit_withResets hs hf n mh mv rot
    | crop => exact exec_crop_withResets hs hf n

/-- Settles O59: `exec_withResets`, its outcome written out. -/
theorem commandsDoNotReadFreeContent : Obligations.CommandsDoNotReadFreeContent := by
  intro i s n hs
  refine (exec_withResets hs.memory n i).trans ?_
  cases exec i s with
  | next t => rfl
  | fault r => rfl
  | refused r => rfl

end Sys2Proof.Machine
end
